-- ==== Sys2Proof/Word.lean ====
section
/-! DEFINITION. The widths of UartCore (spec/00_scope.md R9): a byte of a FIFO, a 16-bit size, index, count or
length, and a 32-bit command word or response value. -/

namespace Sys2Proof

/-- One FIFO element, `BYTE_W` = 8 bits (R9; PRESUMED by the spec itself, 93_implementation_defined.md K1; log 21). -/
abbrev Byte := BitVec 8

/-- A 16-bit quantity: `IDX_W`, `LEN_W` and `ECHO_W` (R9). -/
abbrev Half := BitVec 16

/-- A command word, a payload word or a response value: `CMD_W` = 32 bits (R9); also `BAUD_W` and `OVF_W`. -/
abbrev Word := BitVec 32

end Sys2Proof
end

