-- ==== Sys2Proof/Syntax.lean ====
section
/-! DEFINITION. The commands of UartCore as terms (spec/00_scope.md R12, spec/30_encoding.md R100): one constructor per
row of spec/opcode_table.json. The port at which a command is presented is no part of the term. -/

namespace Sys2Proof

/-- The two command ports (R11): `I` for the interrupt side, `L` for the loop side. -/
inductive Port where
  | I
  | L
  deriving DecidableEq, Repr, Inhabited

/-- A command with its operands (R100). -/
inductive Instr where
  /-- `init` (R141): presence of the backend, receive storage and transmit storage references, the baud rate, and
  the two capacities. -/
  | init (be rxs txs : Bool) (baud : Word) (rxSize txSize : Half)
  /-- `ingestReceivedByte` (R151). -/
  | ingestReceivedByte (byte : Byte)
  /-- `serviceTransmit` (R153). -/
  | serviceTransmit
  /-- `write` (R160): the bytes and their number. -/
  | write (data : List Byte) (length : Half)
  /-- `read` (R162). -/
  | read (maxLen : Half)
  /-- `rxAvailableCount` (R164). -/
  | rxAvailableCount
  /-- `txQueuedCount` (R165). -/
  | txQueuedCount
  /-- `echoPump` (R170). -/
  | echoPump
  /-- `overflowCount` (R180). -/
  | overflowCount
  /-- `overflowClear` (R181). -/
  | overflowClear
  /-- `setEchoChunkSize` (R182). -/
  | setEchoChunkSize (n : Half)
  /-- `getEchoChunkSize` (R183). -/
  | getEchoChunkSize
  deriving DecidableEq, Repr

/-- DOC's name of a command, as spec/opcode_table.json spells it (R100, R108). -/
def Instr.mnemonic : Instr → String
  | .init _ _ _ _ _ _ => "init"
  | .ingestReceivedByte _ => "ingestReceivedByte"
  | .serviceTransmit => "serviceTransmit"
  | .write _ _ => "write"
  | .read _ => "read"
  | .rxAvailableCount => "rxAvailableCount"
  | .txQueuedCount => "txQueuedCount"
  | .echoPump => "echoPump"
  | .overflowCount => "overflowCount"
  | .overflowClear => "overflowClear"
  | .setEchoChunkSize _ => "setEchoChunkSize"
  | .getEchoChunkSize => "getEchoChunkSize"

end Sys2Proof
end

