-- ==== Sys2Proof/WellFormed.lean ====
section
/-! DEFINITION. Which command terms the spec admits (spec/30_encoding.md R107, spec/44_write_read.md R160). Every
operand but `write`'s has exactly the width of its field, so its type already bounds it. -/

namespace Sys2Proof

/-- `write` takes exactly `length` bytes: a term with `|data| ≠ length` is ill-formed (R160, D36). Every other term
is well-formed (R98, R107). -/
def Instr.wellFormed : Instr → Bool
  | .init _ _ _ _ _ _ => true
  | .ingestReceivedByte _ => true
  | .serviceTransmit => true
  | .write data length => decide (data.length = length.toNat)
  | .read _ => true
  | .rxAvailableCount => true
  | .txQueuedCount => true
  | .echoPump => true
  | .overflowCount => true
  | .overflowClear => true
  | .setEchoChunkSize _ => true
  | .getEchoChunkSize => true

end Sys2Proof
end

