-- ==== Sys2Proof/Decode.lean ====
section
/-! DEFINITION. The word level (spec/30_encoding.md): payload packing, the length of a command, the decoder with its
transport errors, and the encoder. -/

namespace Sys2Proof

/-- The transport errors (R104). -/
inductive CmdError where
  /-- 1: `op` is 0x00 or 0x0D to 0xFF. -/
  | illegalOpcode
  /-- 2: a must-be-zero field or an unused payload lane is not 0. -/
  | reservedNonzero
  /-- 3: the port does not take the command (R102). -/
  | wrongPort
  deriving DecidableEq, Repr

/-- The code a transport error answers with (R104, R204). -/
def CmdError.code : CmdError → Word
  | .illegalOpcode => 1
  | .reservedNonzero => 2
  | .wrongPort => 3

/-- What the words waiting on a command channel hold. -/
inductive Fetched where
  /-- No command, or a command whose words are not all there yet (log 8). -/
  | wait
  /-- A command that does not decode, and the words after it (R104: its words are consumed). -/
  | bad (e : CmdError) (rest : List Word)
  /-- A command, and the words after it. -/
  | command (i : Instr) (rest : List Word)
  deriving DecidableEq, Repr

/-- `op = cw[31:24]` (R91). -/
def opField (cw : Word) : BitVec 8 := cw.extractLsb' 24 8

/-- `imm16 = cw[15:0]` (R91). -/
def immField (cw : Word) : Half := cw.extractLsb' 0 16

/-- A header of opcode `op`, flags and imm16 (R91). -/
def headerOf (op flags : BitVec 8) (imm : Half) : Word := op ++ flags ++ imm

/-- The byte in lane `k` of a payload word: bits `[8k + 7 : 8k]` (R99). -/
def lane (w : Word) (k : Nat) : Byte := w.extractLsb' (8 * k) 8

/-- A payload word from its four lanes, lane 0 in the low byte (R99). -/
def wordOfLanes (b0 b1 b2 b3 : Byte) : Word := b3 ++ b2 ++ b1 ++ b0

/-- A byte sequence as payload words, little-endian, unused lanes 0 (R99). -/
def packBytes : List Byte → List Word
  | [] => []
  | [b0] => [wordOfLanes b0 0 0 0]
  | [b0, b1] => [wordOfLanes b0 b1 0 0]
  | [b0, b1, b2] => [wordOfLanes b0 b1 b2 0]
  | b0 :: b1 :: b2 :: b3 :: rest => wordOfLanes b0 b1 b2 b3 :: packBytes rest

/-- The lanes of payload words in order, four a word (R99). -/
def unpackWords : List Word → List Byte
  | [] => []
  | w :: ws => lane w 0 :: lane w 1 :: lane w 2 :: lane w 3 :: unpackWords ws

/-- `ceil(n / 4)`, the payload words that `n` bytes take (R95, R103). -/
def payloadWords (n : Nat) : Nat := (n + 3) / 4

/-- How many words follow the header `cw`: two for `init`, the payload of a `write`, none otherwise (R97). -/
def wordsAfter (cw : Word) : Nat :=
  match (opField cw).toNat with
  | 0x01 => 2
  | 0x04 => payloadWords (immField cw).toNat
  | _ => 0

/-- Whether a list has at least `n` elements. -/
def hasAtLeast {α : Type} : Nat → List α → Bool
  | 0, _ => true
  | _ + 1, [] => false
  | n + 1, _ :: l => hasAtLeast n l

/-- What a header decodes to when a must-be-zero field of it is 0, and the error 2 when it is not (R104, R105). -/
def ifZero {n : Nat} (field : BitVec n) (d : Except CmdError Instr) : Except CmdError Instr :=
  if field = 0 then d else .error .reservedNonzero

/-- The command of format W: `length` bytes from the payload words, whose unused lanes must be 0 (R95, R99, R104). -/
def decodeWrite (length : Half) (payload : List Word) : Except CmdError Instr :=
  let bytes := unpackWords payload
  if (bytes.drop length.toNat).all (fun b => b == 0) then
    .ok (.write (bytes.take length.toNat) length)
  else .error .reservedNonzero

/-- A header and exactly the words that follow it, decoded in the order of checks of R105: the opcode map is R100, the
formats R92 to R96, an unassigned opcode R106. -/
def decodeHeader (cw : Word) (after : List Word) : Except CmdError Instr :=
  match (opField cw).toNat with
  | 0x01 => ifZero (cw.extractLsb' 0 16) <| ifZero (cw.extractLsb' 19 5) <| .ok <|
      .init (cw.getLsbD 16) (cw.getLsbD 17) (cw.getLsbD 18) (after.getD 0 0)
        ((after.getD 1 0).extractLsb' 16 16) ((after.getD 1 0).extractLsb' 0 16)
  | 0x02 => ifZero (cw.extractLsb' 8 16) <| .ok <| .ingestReceivedByte (cw.extractLsb' 0 8)
  | 0x03 => ifZero (cw.extractLsb' 0 24) <| .ok .serviceTransmit
  | 0x04 => ifZero (cw.extractLsb' 16 8) <| decodeWrite (immField cw) after
  | 0x05 => ifZero (cw.extractLsb' 16 8) <| .ok <| .read (immField cw)
  | 0x06 => ifZero (cw.extractLsb' 0 24) <| .ok .rxAvailableCount
  | 0x07 => ifZero (cw.extractLsb' 0 24) <| .ok .txQueuedCount
  | 0x08 => ifZero (cw.extractLsb' 0 24) <| .ok .echoPump
  | 0x09 => ifZero (cw.extractLsb' 0 24) <| .ok .overflowCount
  | 0x0A => ifZero (cw.extractLsb' 0 24) <| .ok .overflowClear
  | 0x0B => ifZero (cw.extractLsb' 16 8) <| .ok <| .setEchoChunkSize (immField cw)
  | 0x0C => ifZero (cw.extractLsb' 0 24) <| .ok .getEchoChunkSize
  | _ => .error .illegalOpcode

/-- The first command of the words on a channel: take as many words as its header says, then check them (R97, R105). -/
def decode : List Word → Fetched
  | [] => .wait
  | cw :: tail =>
    if hasAtLeast (wordsAfter cw) tail then
      match decodeHeader cw (tail.take (wordsAfter cw)) with
      | .ok i => .command i (tail.drop (wordsAfter cw))
      | .error e => .bad e (tail.drop (wordsAfter cw))
    else .wait

/-- A bit as the bit of an 8-bit flags field at place `k` (R91, R96). -/
def flagBit (b : Bool) (k : Nat) : BitVec 8 := if b then 1 <<< k else 0

/-- The one word spelling of a well-formed command (R91 to R96, R99, R100, R107). -/
def encode : Instr → List Word
  | .init be rxs txs baud rxSize txSize =>
      [headerOf 0x01 (flagBit be 0 ||| flagBit rxs 1 ||| flagBit txs 2) 0, baud, rxSize ++ txSize]
  | .ingestReceivedByte byte => [headerOf 0x02 0 (byte.zeroExtend 16)]
  | .serviceTransmit => [headerOf 0x03 0 0]
  | .write data length => headerOf 0x04 0 length :: packBytes data
  | .read maxLen => [headerOf 0x05 0 maxLen]
  | .rxAvailableCount => [headerOf 0x06 0 0]
  | .txQueuedCount => [headerOf 0x07 0 0]
  | .echoPump => [headerOf 0x08 0 0]
  | .overflowCount => [headerOf 0x09 0 0]
  | .overflowClear => [headerOf 0x0A 0 0]
  | .setEchoChunkSize n => [headerOf 0x0B 0 n]
  | .getEchoChunkSize => [headerOf 0x0C 0 0]

/-- The `n` words of the number `w`, whose bit 0 is bit 0 of the first word. -/
def wordsOfNat : Nat → Nat → List Word
  | 0, _ => []
  | n + 1, w => BitVec.ofNat 32 w :: wordsOfNat n (w / 4294967296)

/-- The words of the command whose bits are the low `nbits` bits of `w`, every bit above them 0: its header and as many
words as the header says follow it (R97). -/
def commandWords (nbits w : Nat) : List Word :=
  wordsOfNat (1 + wordsAfter (BitVec.ofNat 32 (w % 2 ^ nbits))) (w % 2 ^ nbits)

/-- The command the decoder reads from the bits `w` of a row of spec/opcode_table.json. -/
def decodeTableWord (nbits w : Nat) : Option Instr :=
  match decode (commandWords nbits w) with
  | .command i _ => some i
  | .bad _ _ => none
  | .wait => none

end Sys2Proof
end

