-- ==== Sys2Proof/Config.lean ====
section
/-! DEFINITION. What the spec fixes as a parameter of the block (spec/00_scope.md R9) and the values it leaves free
(spec/93_implementation_defined.md V2, V3, V13, V14). The one OPEN parameter, `ECHO_MAX`, is an argument of the model held
in the state (`State.echoMax`, log 11), so that every statement about every state is about every value of it. -/

namespace Sys2Proof

/-- `ECHO_DEFAULT`: the chunk size that stands for a configured 0, and that `init` configures (R9, R41, R171). -/
def Config.echoDefault : Half := 32

/-- `ECHO_MAX`'s default value; the parameter itself is `State.echoMax` (R9, U6). -/
def Config.echoMaxDefault : Half := 64

/-- `OVF_MAX` = 2^32 - 1, at which the overflow counter saturates (R9, R40; `OVF_POLICY` = saturate). -/
def Config.ovfMax : Word := 4294967295

/-- What a member of a capability set is bound to (R43): nothing, or the block's one backend port (D14). -/
inductive BackendId where
  | unbound
  | backend
  deriving DecidableEq, Repr

/-- The two storage regions (R46, R60): an address is a region and an offset. -/
inductive Region where
  | rxmem
  | txmem
  deriving DecidableEq, Repr

/-- FREE VALUE. What the storage holds at an address that nothing has written since hardware reset (R49, R62; V2: any
value; log 3). -/
opaque Config.unwrittenByte : Region → Nat → Byte

/-- FREE VALUE. What the echo staging buffer holds at an offset that the current iteration has not written: the `n`-th free
value, at that offset (R45; V3: any value; log 4). -/
opaque Config.unwrittenStaging : Nat → Nat → Byte

/-- FREE VALUE. The `n`-th answer drawn from what a capability member is bound to, once the answers that the state
lists are used up (R16, R131, R132; V13: a boolean drawn afresh at each call, under no law; log 5). -/
opaque Config.backendAnswer : BackendId → Nat → Bool

/-- FREE VALUE. The port that takes the `n`-th turn, once the order that the state lists is used up (R66; V14; log 6). -/
opaque Config.freeTurn : Nat → Port

end Sys2Proof
end

