-- ==== Sys2Proof/Machine/State.lean ====
section
/-! DEFINITION. The state of UartCore (spec/10_state.md R30), the channels of its two ports (spec/30_encoding.md
R90), the record of its backend calls (spec/00_scope.md R16), and what R48 calls the parameters of a run (the
backend's answers, the order of the ports' turns, `ECHO_MAX`), all as plain data. -/

namespace Sys2Proof.Machine

/-- The two FIFOs (R14). -/
inductive FifoId where
  | rx
  | tx
  deriving DecidableEq, Repr

/-- The contents of a memory: the bytes that have been written, by rising offset. What is stored at an offset that is not
listed is left open, and reads as a free value (R49; 93 V2, V3; log 3, log 4). -/
abbrev Memory := List Host.Cell

/-- The canonical form of a memory: offsets strictly rising, so that equal memories are equal lists. -/
abbrev Memory.wf (m : Memory) : Prop := (m.map Prod.fst).Pairwise (· < ·)

/-- The registers of one FIFO (R31 to R34) and the region bound to it (R30, R121). -/
@[ext] structure Fifo where
  /-- The bound storage region (`f.mem`). -/
  mem : Region
  /-- Capacity in bytes. -/
  cap : Half
  /-- Write index. -/
  wr : Half
  /-- Read index. -/
  rd : Half
  /-- Count of valid bytes. -/
  cnt : Half
  deriving DecidableEq, Repr

/-- The copied capability set: its five bindings (R43, R130). -/
structure CapabilitySet where
  init : BackendId
  txReady : BackendId
  txWrite : BackendId
  rxAvailable : BackendId
  rxRead : BackendId
  deriving DecidableEq, Repr

/-- The capability set the integrator supplies with `BE` = 1: the block's one backend port (R96, D14). -/
def CapabilitySet.supplied : CapabilitySet := ⟨.backend, .backend, .backend, .backend, .backend⟩

/-- The outcome of `init` that later commands depend on (R42). -/
inductive Status where
  | never
  | ok
  | failed
  deriving DecidableEq, Repr

/-- An event of the backend trace (R16). -/
inductive Event where
  | init (baud : Word) (result : Bool)
  | txReady (result : Bool)
  | txWrite (byte : Byte)
  deriving DecidableEq, Repr

/-- A response: the error bit, the value, and the payload words of a `read` (R90, R103, R104). -/
structure Response where
  err : Bool
  val : Word
  payload : List Word
  deriving DecidableEq, Repr

/-- Where a `serviceTransmit` loop stands between two micro-steps (R38, R153): not begun, about to ask `txReady`
again, about to pop, or holding a popped byte that `txWrite` takes next. -/
inductive TxLoc where
  | start
  | ask
  | pop
  | put (byte : Byte)
  deriving DecidableEq, Repr

/-- The phase of a `write` body (R38, R160): pushing, or flushing with the flush's own place. -/
inductive WriteLoc where
  | pushing
  | flushing (loc : TxLoc)
  deriving DecidableEq, Repr

/-- Where an `echoPump` stands between two micro-steps (R38, R170). -/
inductive EchoLoc where
  /-- About to ask for `rx`'s count. -/
  | ask
  /-- `n` bytes were counted; the chunk is not chosen yet. -/
  | counted (n : Half)
  /-- In the inner `read` of `k` bytes, `i` of them taken. -/
  | reading (n : Half) (k i : Nat)
  /-- In the inner `write` of the `r` bytes read, `i` of them enqueued. -/
  | writing (n : Half) (k r i : Nat) (loc : WriteLoc)
  deriving DecidableEq, Repr

/-- A port's sequencer (R38): idle, or the command in flight with what it carries between micro-steps. A command of
one micro-step is never in flight between two; an `init` in flight is one whose setup has run. -/
inductive Seq where
  | idle
  | init (be rxs txs : Bool) (baud : Word) (rxSize txSize : Half)
  | serviceTransmit (loc : TxLoc)
  | write (data : List Byte) (length : Half) (i : Nat) (loc : WriteLoc)
  | read (maxLen : Half) (out : List Byte)
  | echoPump (loc : EchoLoc)
  deriving DecidableEq, Repr

/-- The machine. -/
@[ext]
structure State where
  /-- Receive FIFO registers. -/
  rx : Fifo
  /-- Transmit FIFO registers. -/
  tx : Fifo
  /-- Contents of RXMEM (R46). -/
  rxmem : Memory
  /-- Contents of TXMEM (R46). -/
  txmem : Memory
  /-- Receive-overflow counter (R40). -/
  ovf : Word
  /-- Configured echo-chunk size (R41). -/
  echoCfg : Half
  /-- The copied capability set (R43). -/
  be : CapabilitySet
  /-- Outcome of `init` (R42). -/
  status : Status
  /-- Echo staging buffer (R45). -/
  echoTmp : Memory
  /-- Sequencer of port I (R38). -/
  seqI : Seq
  /-- Sequencer of port L (R38). -/
  seqL : Seq
  /-- Words waiting on port I's command channel (R90). -/
  cmdI : List Word
  /-- Words waiting on port L's command channel (R90). -/
  cmdL : List Word
  /-- Responses delivered on port I, oldest first (R90, R220). -/
  respI : List Response
  /-- Responses delivered on port L, oldest first (R90, R220). -/
  respL : List Response
  /-- Backend trace, oldest first (R16). -/
  trace : List Event
  /-- MODEL: the port whose micro-step is being taken (R66; log 7). -/
  turn : Port
  /-- MODEL: the order of turns to come (V14; log 6, 7). -/
  order : List Port
  /-- MODEL: the backend's answers to come (V13; log 5, 7). -/
  answers : List Bool
  /-- MODEL: how many free values have been drawn (log 7). -/
  draws : Nat
  /-- Parameter `ECHO_MAX`, an argument of the model that nothing writes (R9, U6; log 11). -/
  echoMax : Half
  deriving DecidableEq, Repr

/-- Why the machine stops. The first three are the undefined conditions of R203, which 93_implementation_defined.md
treats as faults that are never final; the others are never reached from a state that meets `State.Inv`. -/
inductive Fault where
  /-- A command other than `init` starts while `status` is not OK (R203, U1). Raised by eleven commands; safe. -/
  | useBeforeInit
  /-- `init` starts while `status` is OK (R145, R203, V6). Raised by `init`; safe. -/
  | reInit
  /-- A `serviceTransmit` activity starts while one is in progress on the other port (R156, R203, U3). Raised by the
  first micro-step of a `serviceTransmit` loop; safe. -/
  | txConsumerOverlap
  /-- An access to a storage offset outside `[0, f.cap)`, which R15 says never arises. Raised by `push` and `pop`; safe. -/
  | storageOutOfRange
  /-- An access to the echo staging buffer outside `[0, ECHO_MAX)` (R45, R171). Raised by `echoPump`; safe. -/
  | stagingOutOfRange
  deriving DecidableEq, Repr

/-- Why an instruction is given no meaning. -/
inductive Refusal where
  /-- An instruction that has no meaning yet; raised by `exec` alone; safe. -/
  | notModelled (mnemonic : String)
  /-- A command at a port that has another in flight: a move the integrator does not have (R38, R203, V7). Raised by
  every command; `step` never meets it; safe. -/
  | portBusy
  /-- A `write` term with `|data| ≠ length`, which is ill-formed and has no word spelling (R160, D36). Raised by
  `write`; `step` never meets it; safe. -/
  | illFormedWrite
  deriving DecidableEq, Repr

/-- The machine right after hardware reset (R49, R50, R250): `status` is NEVER and both sequencers are idle. Nothing is
presented, nothing is recorded, and no storage byte has been written. R49 leaves every register unspecified: here each holds
DESIGN CHOICE zero, each FIFO is bound to its own region, and no capability is bound (log 1, 2, 7). `ECHO_MAX` is the
spec's default 64 (log 11). -/
def State.reset : State where
  rx := { mem := .rxmem, cap := 0, wr := 0, rd := 0, cnt := 0 }
  tx := { mem := .txmem, cap := 0, wr := 0, rd := 0, cnt := 0 }
  rxmem := []
  txmem := []
  ovf := 0
  echoCfg := 0
  be := ⟨.unbound, .unbound, .unbound, .unbound, .unbound⟩
  status := .never
  echoTmp := []
  seqI := .idle
  seqL := .idle
  cmdI := []
  cmdL := []
  respI := []
  respL := []
  trace := []
  turn := .L
  order := []
  answers := []
  draws := 0
  echoMax := Config.echoMaxDefault

end Sys2Proof.Machine
end

