-- ==== Sys2Proof/Machine/Flags.lean ====
section
/-! DEFINITION. The block has no flags register (spec/10_state.md R39): the two conditions of a FIFO, computed from its
count wherever they are needed, and the unsigned arithmetic of spec/00_scope.md R21. -/

namespace Sys2Proof.Machine

/-- `f.empty` is `f.cnt = 0` (R39). -/
def Fifo.empty (q : Fifo) : Bool := q.cnt == 0

/-- `f.full` is `f.cnt = f.cap` (R39). -/
def Fifo.full (q : Fifo) : Bool := q.cnt == q.cap

/-- Index advance, `(i + 1) mod f.cap` (R21 (a)). -/
def advance (i cap : Half) : Half := BitVec.ofNat 16 ((i.toNat + 1) % cap.toNat)

/-- `satinc_32` (R13, R21 (f)). -/
def satInc (v : Word) : Word := if v = Config.ovfMax then v else v + 1

end Sys2Proof.Machine
end

