-- ==== Sys2Proof/Machine/Operands.lean ====
section
/-! DEFINITION. What a command needs beside its operands' values, and how results are widened: the ports that take it
(spec/30_encoding.md R102), the effective chunk (spec/45_echopump.md R171), the response values (R103, R104). -/

namespace Sys2Proof.Machine

/-- Which port takes which command (R102, R213). -/
def takenOn : Port → Instr → Bool
  | .I, .init _ _ _ _ _ _ => false
  | .I, .ingestReceivedByte _ => true
  | .I, .serviceTransmit => true
  | .I, .write _ _ => false
  | .I, .read _ => false
  | .I, .rxAvailableCount => true
  | .I, .txQueuedCount => true
  | .I, .echoPump => false
  | .I, .overflowCount => true
  | .I, .overflowClear => false
  | .I, .setEchoChunkSize _ => false
  | .I, .getEchoChunkSize => true
  | .L, .ingestReceivedByte _ => false
  | .L, .init _ _ _ _ _ _ => true
  | .L, .serviceTransmit => true
  | .L, .write _ _ => true
  | .L, .read _ => true
  | .L, .rxAvailableCount => true
  | .L, .txQueuedCount => true
  | .L, .echoPump => true
  | .L, .overflowCount => true
  | .L, .overflowClear => true
  | .L, .setEchoChunkSize _ => true
  | .L, .getEchoChunkSize => true

/-- Whether the operands of an `init` pass its checks (R141, R143). -/
def initAccepts (be rxs txs : Bool) (rxSize txSize : Half) : Bool :=
  be && rxs && txs && rxSize != 0 && txSize != 0

/-- `effective_chunk(v)` (R171): the default for 0, and never more than `ECHO_MAX`. -/
def effectiveChunk (v echoMax : Half) : Nat :=
  min (if v = 0 then Config.echoDefault.toNat else v.toNat) echoMax.toNat

/-- `zext_32` of a 16-bit count (R13, R103). -/
def zext32 (n : Half) : Word := n.zeroExtend 32

/-- A boolean result as a value: 1 true, 0 false (R100). -/
def boolVal (b : Bool) : Word := if b then 1 else 0

/-- The response of a command that executed and answers a value (R103). -/
def okResponse (val : Word) : Response := { err := false, val := val, payload := [] }

/-- The response of a `read` that took `bytes` (R103): their number, then the bytes packed. -/
def readResponse (bytes : List Byte) : Response :=
  { err := false, val := BitVec.ofNat 32 bytes.length, payload := packBytes bytes }

/-- The response of a command that was refused with a transport error (R104). -/
def errResponse (e : CmdError) : Response := { err := true, val := e.code, payload := [] }

/-- The 33 bits of a response: `err` in bit 32, `val` in bits 31:0 (R90). -/
def Response.bits (r : Response) : BitVec 33 := BitVec.ofBool r.err ++ r.val

end Sys2Proof.Machine
end

