-- ==== Sys2Proof/Machine/Ops.lean ====
section
/-! DEFINITION. The named operations every command is built from: the ports' sequencers and channels, the storage, the
RingBuffer micro-operations (spec/40_ringbuffer.md), the backend calls (spec/41_backend_port.md), one micro-step of
each loop (spec/43 to 45), and the start of a command. The block takes no exception and returns from none
(spec/60_exceptions.md R200, R211, R212), so there is no such operation here. -/

namespace Sys2Proof.Machine

/-! ## Ports -/

/-- The other port. -/
def otherPort : Port → Port
  | .I => .L
  | .L => .I

/-- The sequencer of a port. -/
def State.seqOf (s : State) : Port → Seq
  | .I => s.seqI
  | .L => s.seqL

/-- Write the sequencer of a port. -/
def State.setSeq (s : State) : Port → Seq → State
  | .I, q => { s with seqI := q }
  | .L, q => { s with seqL := q }

/-- The sequencer of the port whose turn it is. -/
def State.current (s : State) : Seq := s.seqOf s.turn

/-- Write the sequencer of the port whose turn it is. -/
def State.setCurrent (s : State) (q : Seq) : State := s.setSeq s.turn q

/-- The words on a port's command channel. -/
def State.commands (s : State) : Port → List Word
  | .I => s.cmdI
  | .L => s.cmdL

/-- Write a port's command channel. -/
def State.setCommands (s : State) : Port → List Word → State
  | .I, ws => { s with cmdI := ws }
  | .L, ws => { s with cmdL := ws }

/-- The responses delivered on a port. -/
def State.responses (s : State) : Port → List Response
  | .I => s.respI
  | .L => s.respL

/-- Deliver a response on a port. -/
def State.respond (s : State) : Port → Response → State
  | .I, r => { s with respI := s.respI ++ [r] }
  | .L, r => { s with respL := s.respL ++ [r] }

/-- The command of the port whose turn it is returns: its response is delivered and the port is idle (R38, R103). -/
def State.finish (s : State) (r : Response) : State := (s.respond s.turn r).setCurrent .idle

/-- The next turn: the next of the order to come, or a free value once that is used up (R66, V14; log 6). -/
def State.takeTurn (s : State) : State :=
  match s.order with
  | p :: ps => { s with turn := p, order := ps }
  | [] => { s with turn := Config.freeTurn s.draws, draws := s.draws + 1 }

/-- The command in flight on a sequencer. -/
def Seq.instr : Seq → Option Instr
  | .idle => none
  | .init be rxs txs baud rxSize txSize => some (.init be rxs txs baud rxSize txSize)
  | .serviceTransmit _ => some .serviceTransmit
  | .write data length _ _ => some (.write data length)
  | .read maxLen _ => some (.read maxLen)
  | .echoPump _ => some .echoPump

/-! ## Storage -/

/-- The byte at an offset, if one was written there. -/
def Memory.read : Memory → Nat → Option Byte
  | [], _ => none
  | (k, v) :: m, a => if k = a then some v else Memory.read m a

/-- Write a byte at an offset, keeping the canonical form. -/
def Memory.write : Memory → Nat → Byte → Memory
  | [], a, b => [(a, b)]
  | (k, v) :: m, a, b =>
    if a < k then (a, b) :: (k, v) :: m
    else if a = k then (a, b) :: m
    else (k, v) :: Memory.write m a b

/-- The contents of a region. -/
def State.region (s : State) : Region → Memory
  | .rxmem => s.rxmem
  | .txmem => s.txmem

/-- Write the contents of a region. -/
def State.setRegion (s : State) : Region → Memory → State
  | .rxmem, m => { s with rxmem := m }
  | .txmem, m => { s with txmem := m }

/-- The byte at an address, which is a region and an offset (R60), if one was written there. -/
def State.byteAt (s : State) (r : Region) (a : Nat) : Option Byte := (s.region r).read a

/-- What `MemRead` finds at an address: the byte last written there, or a free value where nothing was written (R15, V2;
log 3). -/
def State.storedByte (s : State) (r : Region) (a : Nat) : Byte :=
  (s.byteAt r a).getD (Config.unwrittenByte r a)

/-- What the echo staging buffer holds at an offset: the byte written there in this iteration, or a free value (R45, V3;
log 4). -/
def State.stagedByte (s : State) (i : Nat) : Byte :=
  (s.echoTmp.read i).getD (Config.unwrittenStaging s.draws i)

/-- The registers of a FIFO. -/
def State.fifo (s : State) : FifoId → Fifo
  | .rx => s.rx
  | .tx => s.tx

/-- Write the registers of a FIFO. -/
def State.setFifo (s : State) : FifoId → Fifo → State
  | .rx, q => { s with rx := q }
  | .tx, q => { s with tx := q }

/-- `MemRead(f.mem + i, 1)` (R15): it cannot fault at an offset within the region. -/
def memRead (f : FifoId) (i : Nat) (s : State) : Except Fault Byte :=
  if i < (s.fifo f).cap.toNat then .ok (s.storedByte (s.fifo f).mem i) else .error .storageOutOfRange

/-- `MemWrite(f.mem + i, 1, b)` (R15): it cannot fault at an offset within the region. -/
def memWrite (f : FifoId) (i : Nat) (b : Byte) (s : State) : Except Fault State :=
  if i < (s.fifo f).cap.toNat then
    .ok (s.setRegion (s.fifo f).mem ((s.region (s.fifo f).mem).write i b))
  else .error .storageOutOfRange

/-- The byte at offset `i` of the echo staging buffer (R45). -/
def stagingRead (i : Nat) (s : State) : Except Fault Byte :=
  if i < s.echoMax.toNat then .ok (s.stagedByte i) else .error .stagingOutOfRange

/-- Write the byte at offset `i` of the echo staging buffer (R45). -/
def stagingWrite (i : Nat) (b : Byte) (s : State) : Except Fault State :=
  if i < s.echoMax.toNat then .ok { s with echoTmp := s.echoTmp.write i b }
  else .error .stagingOutOfRange

/-! ## RingBuffer micro-operations -/

/-- The storage region that the integrator lends to a FIFO (R46, D14). -/
def lentRegion : FifoId → Region
  | .rx => .rxmem
  | .tx => .txmem

/-- `RB.init` (R121): binds the region, sets the capacity, empties the FIFO; the storage is not touched. -/
def rbInit (f : FifoId) (size : Half) (s : State) : State :=
  s.setFifo f { mem := lentRegion f, cap := size, wr := 0, rd := 0, cnt := 0 }

/-- `availableCount` (R122). -/
def availableCount (f : FifoId) (s : State) : Half := (s.fifo f).cnt

/-- `freeSpace` (R123); no command performs it. -/
def freeSpace (f : FifoId) (s : State) : Half := (s.fifo f).cap - (s.fifo f).cnt

/-- `push` (R124): whether the byte was stored, and the state after. -/
def push (f : FifoId) (b : Byte) (s : State) : Except Fault (Bool × State) :=
  if (s.fifo f).full then .ok (false, s)
  else
    match memWrite f (s.fifo f).wr.toNat b s with
    | .error e => .error e
    | .ok t =>
      .ok (true, t.setFifo f { t.fifo f with
        wr := advance (t.fifo f).wr (t.fifo f).cap, cnt := (t.fifo f).cnt + 1 })

/-- `pop` (R125): the oldest byte, or none from an empty FIFO (V4), and the state after. -/
def pop (f : FifoId) (s : State) : Except Fault (Option Byte × State) :=
  if (s.fifo f).empty then .ok (none, s)
  else
    match memRead f (s.fifo f).rd.toNat s with
    | .error e => .error e
    | .ok b =>
      .ok (some b, s.setFifo f { s.fifo f with
        rd := advance (s.fifo f).rd (s.fifo f).cap, cnt := (s.fifo f).cnt - 1 })

/-! ## Backend calls -/

/-- An answer of the backend: the next of the answers to come, or a free value once those are used up (R16, D25, V13;
log 5). -/
def drawAnswer (agent : BackendId) (s : State) : Bool × State :=
  match s.answers with
  | a :: rest => (a, { s with answers := rest })
  | [] => (Config.backendAnswer agent s.draws, { s with draws := s.draws + 1 })

/-- Append an event to the backend trace (R16). -/
def State.record (s : State) (e : Event) : State := { s with trace := s.trace ++ [e] }

/-- `be.init(baud)` (R131). -/
def beInit (baud : Word) (s : State) : Bool × State :=
  ((drawAnswer s.be.init s).1, (drawAnswer s.be.init s).2.record (.init baud (drawAnswer s.be.init s).1))

/-- `be.txReady()` (R132). -/
def beTxReady (s : State) : Bool × State :=
  ((drawAnswer s.be.txReady s).1, (drawAnswer s.be.txReady s).2.record (.txReady (drawAnswer s.be.txReady s).1))

/-- `be.txWrite(b)` (R133). -/
def beTxWrite (b : Byte) (s : State) : State := s.record (.txWrite b)

/-! ## The loops, one micro-step at a time -/

/-- Whether a `serviceTransmit` loop that stands at `loc` has begun and not returned (R156). -/
def TxLoc.active : TxLoc → Bool
  | .start => false
  | .ask => true
  | .pop => true
  | .put _ => true

/-- Whether a `write` body that stands at `loc` is inside its flush (R156). -/
def WriteLoc.active : WriteLoc → Bool
  | .pushing => false
  | .flushing loc => loc.active

/-- Whether a port's command is inside a `serviceTransmit` activity (R156). -/
def Seq.active : Seq → Bool
  | .serviceTransmit loc => loc.active
  | .write _ _ _ loc => loc.active
  | .echoPump (.writing _ _ _ _ loc) => loc.active
  | .echoPump .ask => false
  | .echoPump (.counted _) => false
  | .echoPump (.reading _ _ _) => false
  | .idle => false
  | .init _ _ _ _ _ _ => false
  | .read _ _ => false

/-- One micro-step of the `serviceTransmit` loop of the port whose turn it is (R153): where the loop stands after it,
or none when the loop has returned. The first one tests that the other port is in no activity (R156). -/
def serviceStep (loc : TxLoc) (s : State) : Except Fault (Option TxLoc × State) :=
  match loc with
  | .start =>
    if (s.seqOf (otherPort s.turn)).active then .error .txConsumerOverlap
    else .ok (if (beTxReady s).1 then some .pop else none, (beTxReady s).2)
  | .ask => .ok (if (beTxReady s).1 then some .pop else none, (beTxReady s).2)
  | .pop =>
    match pop .tx s with
    | .error e => .error e
    | .ok (none, t) => .ok (none, t)
    | .ok (some b, t) => .ok (some (.put b), t)
  | .put b => .ok (some .ask, beTxWrite b s)

/-- Where a `write` body stands after a micro-step: still running, or returned with the count enqueued. -/
inductive WriteOut where
  | running (i : Nat) (loc : WriteLoc)
  | returned (i : Nat)
  deriving DecidableEq, Repr

/-- One micro-step of the flush that ends a `write` body with `i` bytes enqueued (R160). -/
def flushStep (i : Nat) (loc : TxLoc) (s : State) : Except Fault (WriteOut × State) :=
  match serviceStep loc s with
  | .error e => .error e
  | .ok (some loc', t) => .ok (.running i (.flushing loc'), t)
  | .ok (none, t) => .ok (.returned i, t)

/-- One micro-step of a `write` body (R160) with `i` bytes enqueued; `next` is the byte to push, or none when all are
pushed. A failing push ends the pushing; when no push is left the flush begins. -/
def writeStep (next : Option Byte) (i : Nat) (loc : WriteLoc) (s : State) : Except Fault (WriteOut × State) :=
  match loc with
  | .flushing l => flushStep i l s
  | .pushing =>
    match next with
    | none => flushStep i .start s
    | some b =>
      match push .tx b s with
      | .error e => .error e
      | .ok (true, t) => .ok (.running (i + 1) .pushing, t)
      | .ok (false, t) => .ok (.running i (.flushing .start), t)

/-! ## Starting a command -/

/-- What an `Except` result makes of the step: its state, or its fault. -/
def ofResult (r : Except Fault State) : Host.Outcome State Fault Refusal :=
  match r with
  | .ok t => .next t
  | .error e => .fault e

/-- The start of the command `i` at the port whose turn it is: the port must be idle (R38), and a port that does not take
the command answers `WRONG_PORT` and changes nothing else (R102, R104, R105). -/
def startOn (i : Instr) (s : State) (body : Host.Outcome State Fault Refusal) : Host.Outcome State Fault Refusal :=
  if s.current ≠ .idle then .refused .portBusy
  else if takenOn s.turn i then body
  else .next (s.finish (errResponse .wrongPort))

/-- Every command but `init` is undefined while `status` is not OK (R42, R203). -/
def whenReady (s : State) (body : Host.Outcome State Fault Refusal) : Host.Outcome State Fault Refusal :=
  if s.status = .ok then body else .fault .useBeforeInit

/-- The first command on the channel of the port whose turn it is (R90, R97, R105). -/
def State.fetched (s : State) : Fetched := decode (s.commands s.turn)

/-- The state with the channel of the port whose turn it is cut down to the words after its first command. -/
def State.consume (s : State) (rest : List Word) : State := s.setCommands s.turn rest

/-- A command that does not decode is answered with its error; its words are consumed and nothing else changes (R104). -/
def State.answerError (s : State) (e : CmdError) (rest : List Word) : State :=
  (s.consume rest).finish (errResponse e)

end Sys2Proof.Machine
end

