-- ==== Sys2Proof/Machine/DiagTuning.lean ====
section
/-! DEFINITION. The commands `overflowCount`, `overflowClear`, `setEchoChunkSize` and `getEchoChunkSize`
(spec/46_diag_tuning.md). -/

namespace Sys2Proof.Machine

/-- `overflowCount` (R180). -/
def execOverflowCount (s : State) : Host.Outcome State Fault Refusal :=
  startOn .overflowCount s <| whenReady s <| .next (s.finish (okResponse s.ovf))

/-- `overflowClear` (R181). -/
def execOverflowClear (s : State) : Host.Outcome State Fault Refusal :=
  startOn .overflowClear s <| whenReady s <|
    .next (State.finish { s with ovf := 0 } (okResponse 0))

/-- `setEchoChunkSize` (R182): the operand is stored unchanged, 0 and values above `ECHO_MAX` included. -/
def execSetEchoChunkSize (n : Half) (s : State) : Host.Outcome State Fault Refusal :=
  startOn (.setEchoChunkSize n) s <| whenReady s <|
    .next (State.finish { s with echoCfg := n } (okResponse 0))

/-- `getEchoChunkSize` (R183): the configured value, not the effective one. -/
def execGetEchoChunkSize (s : State) : Host.Outcome State Fault Refusal :=
  startOn .getEchoChunkSize s <| whenReady s <| .next (s.finish (okResponse (zext32 s.echoCfg)))

end Sys2Proof.Machine
end

