-- ==== Sys2Proof/Machine/EchoPump.lean ====
section
/-! DEFINITION. The command `echoPump` (spec/45_echopump.md). -/

namespace Sys2Proof.Machine

/-- The staging buffer outside the window between a chunk's read and its write, where its contents are left open: every
byte is a free value (R45, V3; log 4). -/
def State.dropStaging (s : State) : State := { s with echoTmp := [] }

/-- The pump returns (R170). -/
def echoReturn (s : State) : State := s.dropStaging.finish (okResponse 0)

/-- The inner `read` has returned `r` bytes: the defensive guard (R173), else the inner `write` is next (R170). -/
def echoAfterRead (n : Half) (k r : Nat) (s : State) : State :=
  if r = 0 then echoReturn s else s.setCurrent (.echoPump (.writing n k r 0 .pushing))

/-- One pop micro-step of the inner `read` of `k` bytes, `i` of them taken; the byte goes to `echo_tmp[i]` (R170). -/
def echoRead (n : Half) (k i : Nat) (s : State) : Except Fault State :=
  match pop .rx s with
  | .error e => .error e
  | .ok (none, t) => .ok (echoAfterRead n k i t)
  | .ok (some b, t) =>
    match stagingWrite i b t with
    | .error e => .error e
    | .ok u =>
      if i + 1 < k then .ok (u.setCurrent (.echoPump (.reading n k (i + 1))))
      else .ok (echoAfterRead n k (i + 1) u)

/-- The byte that the inner `write` of `r` bytes pushes after `i` of them, if it pushes one. -/
def echoNext (r i : Nat) (loc : WriteLoc) (s : State) : Except Fault (Option Byte) :=
  match loc with
  | .flushing _ => .ok none
  | .pushing =>
    if i < r then
      match stagingRead i s with
      | .error e => .error e
      | .ok b => .ok (some b)
    else .ok none

/-- One micro-step of the inner `write` (R170); the count it returns is discarded, so bytes that did not fit in `tx` are
lost (R172), and the loop goes on. -/
def echoWrite (n : Half) (k r i : Nat) (loc : WriteLoc) (s : State) : Except Fault State :=
  match echoNext r i loc s with
  | .error e => .error e
  | .ok next =>
    match writeStep next i loc s with
    | .error e => .error e
    | .ok (.running i' loc', t) => .ok (t.setCurrent (.echoPump (.writing n k r i' loc')))
    | .ok (.returned _, t) => .ok (t.dropStaging.setCurrent (.echoPump .ask))

/-- The head of an iteration (R170, R174): ask `rx` for its count, return when it is 0. -/
def echoAsk (s : State) : State :=
  if availableCount .rx s = 0 then echoReturn s
  else s.setCurrent (.echoPump (.counted (availableCount .rx s)))

/-- The chunk of an iteration that counted `n` bytes (R170, R171). -/
def echoChunk (n : Half) (s : State) : Nat := min n.toNat (effectiveChunk s.echoCfg s.echoMax)

/-- One micro-step of an `echoPump` that stands at `loc` (R170). A chunk of 0 bytes, which R170 rules out and no state that
meets the invariant has, would take one turn with no pop (DESIGN CHOICE, log 25). -/
def echoPumpStep (loc : EchoLoc) (s : State) : Except Fault State :=
  match loc with
  | .ask => .ok (echoAsk s)
  | .counted n =>
    if echoChunk n s = 0 then .ok (echoAfterRead n 0 0 s) else echoRead n (echoChunk n s) 0 s
  | .reading n k i => echoRead n k i s
  | .writing n k r i wloc => echoWrite n k r i wloc s

/-- `echoPump` (R170 to R175). -/
def execEchoPump (s : State) : Host.Outcome State Fault Refusal :=
  match s.current with
  | .echoPump loc => ofResult (echoPumpStep loc s)
  | _ => startOn .echoPump s <| whenReady s <| ofResult (echoPumpStep .ask s)

end Sys2Proof.Machine
end

