-- ==== Sys2Proof/Machine/IngestService.lean ====
section
/-! DEFINITION. The commands `ingestReceivedByte` and `serviceTransmit` (spec/43_ingest_service.md). -/

namespace Sys2Proof.Machine

/-- The one micro-step of `ingestReceivedByte` (R151): push into `rx`; a full FIFO drops the byte and counts it. -/
def ingest (byte : Byte) (s : State) : Except Fault State :=
  match push .rx byte s with
  | .error e => .error e
  | .ok (true, t) => .ok (t.finish (okResponse 0))
  | .ok (false, t) => .ok (State.finish { t with ovf := satInc t.ovf } (okResponse 0))

/-- `ingestReceivedByte` (R151, R152). -/
def execIngestReceivedByte (byte : Byte) (s : State) : Host.Outcome State Fault Refusal :=
  startOn (.ingestReceivedByte byte) s <| whenReady s <| ofResult (ingest byte s)

/-- One micro-step of the command `serviceTransmit` that stands at `loc` (R153). -/
def serviceTransmitStep (loc : TxLoc) (s : State) : Except Fault State :=
  match serviceStep loc s with
  | .error e => .error e
  | .ok (some loc', t) => .ok (t.setCurrent (.serviceTransmit loc'))
  | .ok (none, t) => .ok (t.finish (okResponse 0))

/-- `serviceTransmit` (R153 to R156). -/
def execServiceTransmit (s : State) : Host.Outcome State Fault Refusal :=
  match s.current with
  | .serviceTransmit loc => ofResult (serviceTransmitStep loc s)
  | _ => startOn .serviceTransmit s <| whenReady s <| ofResult (serviceTransmitStep .start s)

end Sys2Proof.Machine
end

