-- ==== Sys2Proof/Machine/Init.lean ====
section
/-! DEFINITION. The command `init` (spec/42_init.md). -/

namespace Sys2Proof.Machine

/-- The setup micro-step (R142), as one transition: copy the capability set, initialise both FIFOs, clear `ovf`, set
the chunk size to its default. -/
def initSetup (rxSize txSize : Half) (s : State) : State :=
  { rbInit .tx txSize (rbInit .rx rxSize { s with be := CapabilitySet.supplied }) with
    ovf := 0
    echoCfg := Config.echoDefault }

/-- The backend micro-step (R141, R144): `be.init(baud)` and the write of `status`; its answer is the result. -/
def initBackend (baud : Word) (s : State) : State :=
  ({ (beInit baud s).2 with status := if (beInit baud s).1 then .ok else .failed }).finish
    (okResponse (boolVal (beInit baud s).1))

/-- `init` (R141 to R145): rejected operands write nothing; accepted ones run the setup, then the backend micro-step. The spec
gives a rejected `init` no micro-step; that taking and answering it is one turn of its port is the model's own (DESIGN CHOICE,
log 25).
While `status` is OK it is `Undefined(ReInit)` (R145, V6; log 13). -/
def execInit (be rxs txs : Bool) (baud : Word) (rxSize txSize : Half) (s : State) :
    Host.Outcome State Fault Refusal :=
  if s.current = .init be rxs txs baud rxSize txSize then .next (initBackend baud s)
  else
    startOn (.init be rxs txs baud rxSize txSize) s <|
      if s.status = .ok then .fault .reInit
      else if initAccepts be rxs txs rxSize txSize then
        .next ((initSetup rxSize txSize s).setCurrent (.init be rxs txs baud rxSize txSize))
      else .next (s.finish (okResponse (boolVal false)))

end Sys2Proof.Machine
end

