-- ==== Sys2Proof/Machine/WriteRead.lean ====
section
/-! DEFINITION. The commands `write`, `read`, `rxAvailableCount` and `txQueuedCount` (spec/44_write_read.md). -/

namespace Sys2Proof.Machine

/-- One micro-step of the command `write` with `i` bytes enqueued, standing at `loc` (R160). Since `|data| = length`,
the loop test `i < length` is whether `data` has a byte at index `i`. -/
def writeCommandStep (data : List Byte) (length : Half) (i : Nat) (loc : WriteLoc) (s : State) :
    Except Fault State :=
  match writeStep data[i]? i loc s with
  | .error e => .error e
  | .ok (.running i' loc', t) => .ok (t.setCurrent (.write data length i' loc'))
  | .ok (.returned i', t) => .ok (t.finish (okResponse (BitVec.ofNat 32 i')))

/-- `write` (R160, R161). A term with `|data| ≠ length` is ill-formed (D36; log 15). -/
def execWrite (data : List Byte) (length : Half) (s : State) : Host.Outcome State Fault Refusal :=
  match s.current with
  | .write data' length' i loc =>
    if data' = data ∧ length' = length then ofResult (writeCommandStep data length i loc s)
    else .refused .portBusy
  | _ =>
    startOn (.write data length) s <|
      if (Instr.write data length).wellFormed then
        whenReady s <| ofResult (writeCommandStep data length 0 .pushing s)
      else .refused .illFormedWrite

/-- One pop micro-step of the command `read` that has taken `out` (R162): it returns with the pop that fails or that takes
the last byte asked for (R267). -/
def readCommandStep (maxLen : Half) (out : List Byte) (s : State) : Except Fault State :=
  match pop .rx s with
  | .error e => .error e
  | .ok (none, t) => .ok (t.finish (readResponse out))
  | .ok (some b, t) =>
    if out.length + 1 < maxLen.toNat then .ok (t.setCurrent (.read maxLen (out ++ [b])))
    else .ok (t.finish (readResponse (out ++ [b])))

/-- `read` (R162, R163). `read 0` attempts no pop (R163 (d)), so the spec gives it no micro-step (R267); that taking and
answering it is one turn of its port is the model's own (DESIGN CHOICE, log 25). -/
def execRead (maxLen : Half) (s : State) : Host.Outcome State Fault Refusal :=
  match s.current with
  | .read maxLen' out =>
    if maxLen' = maxLen then ofResult (readCommandStep maxLen out s) else .refused .portBusy
  | _ =>
    startOn (.read maxLen) s <| whenReady s <|
      if maxLen = 0 then .next (s.finish (readResponse []))
      else ofResult (readCommandStep maxLen [] s)

/-- `rxAvailableCount` (R164). -/
def execRxAvailableCount (s : State) : Host.Outcome State Fault Refusal :=
  startOn .rxAvailableCount s <| whenReady s <|
    .next (s.finish (okResponse (zext32 (availableCount .rx s))))

/-- `txQueuedCount` (R165). -/
def execTxQueuedCount (s : State) : Host.Outcome State Fault Refusal :=
  startOn .txQueuedCount s <| whenReady s <|
    .next (s.finish (okResponse (zext32 (availableCount .tx s))))

end Sys2Proof.Machine
end

