-- ==== Sys2Proof/Machine/Dispatch.lean ====
section
/-! DEFINITION. One arm per command: the next micro-step of that command at the port whose turn it is. -/

namespace Sys2Proof.Machine

/-- The next micro-step of the command `i` at the port whose turn it is: its first when the port is idle, the one
after those already taken when `i` is in flight there (spec/20_memory.md R66, spec/10_state.md R38). -/
def exec (i : Instr) (s : State) : Host.Outcome State Fault Refusal :=
  match i with
  | .init be rxs txs baud rxSize txSize => Sys2Proof.Machine.execInit be rxs txs baud rxSize txSize s
  | .ingestReceivedByte byte => Sys2Proof.Machine.execIngestReceivedByte byte s
  | .serviceTransmit => Sys2Proof.Machine.execServiceTransmit s
  | .write data length => Sys2Proof.Machine.execWrite data length s
  | .read maxLen => Sys2Proof.Machine.execRead maxLen s
  | .rxAvailableCount => Sys2Proof.Machine.execRxAvailableCount s
  | .txQueuedCount => Sys2Proof.Machine.execTxQueuedCount s
  | .echoPump => Sys2Proof.Machine.execEchoPump s
  | .overflowCount => Sys2Proof.Machine.execOverflowCount s
  | .overflowClear => Sys2Proof.Machine.execOverflowClear s
  | .setEchoChunkSize n => Sys2Proof.Machine.execSetEchoChunkSize n s
  | .getEchoChunkSize => Sys2Proof.Machine.execGetEchoChunkSize s

end Sys2Proof.Machine
end

