-- ==== Sys2Proof/Machine/Step.lean ====
section
/-! DEFINITION. One transition of the block (spec/20_memory.md R66): the port that takes the turn makes its next
micro-step, or takes the next command of its channel and makes that command's first micro-step. -/

namespace Sys2Proof.Machine

/-- The micro-step of the port whose turn it is. A port with a command in flight goes on with it; an idle port takes the
next command of its channel (R38, R90), answers it if it does not decode (R104), and does nothing if none is there. -/
def portStep (s : State) : Host.Outcome State Fault Refusal :=
  match s.current.instr with
  | some i => exec i s
  | none =>
    match s.fetched with
    | .wait => .next s
    | .bad e rest => .next (s.answerError e rest)
    | .command i rest => exec i (s.consume rest)

/-- One step: draw the port that takes the turn, then make its micro-step. -/
def step (s : State) : Host.Outcome State Fault Refusal := portStep s.takeTurn

/-- The port at which a command whose header bits are `w` is presented: I for `ingestReceivedByte`, which only port I
takes, and L for every other (R102). -/
def portFor (w : Nat) : Port := if opField (BitVec.ofNat 32 w) = 0x02 then .I else .L

/-- The state in which the very next step takes the command whose bits are `w`: the next turn goes to a port that takes
the command, that port is idle, and the command's words come first on its channel (log 10). -/
def State.withFetchWord (s : State) (nbits w : Nat) : State :=
  State.setCommands
    (State.setSeq { s with order := portFor (w % 2 ^ nbits) :: s.order } (portFor (w % 2 ^ nbits)) .idle)
    (portFor (w % 2 ^ nbits))
    (commandWords nbits w ++ s.commands (portFor (w % 2 ^ nbits)))

end Sys2Proof.Machine
end

