-- ==== Sys2Proof/Safety.lean ====
section
/-! DEFINITION. What claims about the block speak of: the contents of a FIFO (spec/00_scope.md R18), the transmit sink
(spec/41_backend_port.md R133) and the byte between the two (spec/10_state.md R38), a command run to its return on a
port whose turn it stays, and the invariant of every reachable state (spec/10_state.md R35, R36, R38). -/

namespace Sys2Proof.Machine

/-! ## Observables -/

/-- The contents of a FIFO, oldest first (R18): what the storage holds at `(f.rd + j) mod f.cap` for `j < f.cnt`. -/
def State.contents (s : State) (f : FifoId) : List (Option Byte) :=
  (List.range (s.fifo f).cnt.toNat).map fun j =>
    s.byteAt (s.fifo f).mem (((s.fifo f).rd.toNat + j) % (s.fifo f).cap.toNat)

/-- The byte an event hands to the backend, if it hands one. -/
def Event.sent : Event → Option Byte
  | .txWrite b => some b
  | .init _ _ => none
  | .txReady _ => none

/-- The transmit sink: the bytes of the `TxWrite` events of a trace (R133). -/
def sink (trace : List Event) : List Byte := trace.filterMap Event.sent

/-- The byte a `serviceTransmit` loop holds between its pop and its `txWrite` (R38). -/
def TxLoc.held : TxLoc → List Byte
  | .put b => [b]
  | .start => []
  | .ask => []
  | .pop => []

/-- The byte held by the flush of a `write` body. -/
def WriteLoc.held : WriteLoc → List Byte
  | .flushing loc => loc.held
  | .pushing => []

/-- The byte held by a port's command. -/
def Seq.held : Seq → List Byte
  | .serviceTransmit loc => loc.held
  | .write _ _ _ loc => loc.held
  | .echoPump (.writing _ _ _ _ loc) => loc.held
  | .echoPump .ask => []
  | .echoPump (.counted _) => []
  | .echoPump (.reading _ _ _) => []
  | .idle => []
  | .init _ _ _ _ _ _ => []
  | .read _ _ => []

/-- Every byte on the transmit side, in the order it entered: sent, held, queued (R155). -/
def State.txStream (s : State) : List (Option Byte) :=
  ((sink s.trace ++ s.seqI.held ++ s.seqL.held).map some) ++ s.contents .tx

/-! ## Running one command -/

/-- The port `p` has the turn and is idle, and `status` is OK: it can start any command it takes. -/
structure State.readyAt (s : State) (p : Port) : Prop where
  turn : s.turn = p
  idle : s.seqOf p = .idle
  ok : s.status = .ok

/-- The command `i` at the port whose turn it is, run with no micro-step of the other port between its own (R70): the
state in which it has returned, if it returns within `n` micro-steps. -/
def drive : Nat → Instr → State → Option State
  | 0, _, _ => none
  | n + 1, i, s =>
    match exec i s with
    | .next t => if t.current = .idle then some t else drive n i t
    | .fault _ => none
    | .refused _ => none

/-! ## The invariant -/

/-- What holds of a FIFO once `RB.init` has run: the bounds of R35, the relation of R36, and that every offset of its
contents holds a byte (R127). -/
structure Fifo.Inv (q : Fifo) (m : Memory) : Prop where
  capPos : 0 < q.cap.toNat
  wrLt : q.wr.toNat < q.cap.toNat
  rdLt : q.rd.toNat < q.cap.toNat
  cntLe : q.cnt.toNat ≤ q.cap.toNat
  wrEq : q.wr.toNat = (q.rd.toNat + q.cnt.toNat) % q.cap.toNat
  written : ∀ j, j < q.cnt.toNat → (m.read ((q.rd.toNat + j) % q.cap.toNat)).isSome

/-- The first `n` bytes of the staging buffer were written in this iteration. -/
def staged (m : Memory) (n : Nat) : Prop := ∀ j, j < n → (m.read j).isSome

/-- What port L's sequencer may hold, and what it then says of the rest of the state (R38). -/
def legalL (s : State) : Seq → Prop
  | .idle => s.echoTmp = []
  | .init be rxs txs _ rxSize txSize =>
      initAccepts be rxs txs rxSize txSize = true ∧ s.status ≠ .ok ∧ s.echoTmp = []
  | .serviceTransmit loc => s.status = .ok ∧ loc ≠ .start ∧ s.echoTmp = []
  | .write data length i _ =>
      s.status = .ok ∧ data.length = length.toNat ∧ i ≤ data.length ∧ s.echoTmp = []
  | .read maxLen out => s.status = .ok ∧ 0 < out.length ∧ out.length < maxLen.toNat ∧ s.echoTmp = []
  | .echoPump .ask => s.status = .ok ∧ s.echoTmp = []
  | .echoPump (.counted n) => s.status = .ok ∧ 0 < n.toNat ∧ n.toNat ≤ s.rx.cnt.toNat ∧ s.echoTmp = []
  | .echoPump (.reading n k i) =>
      s.status = .ok ∧ 0 < i ∧ i < k ∧ k ≤ n.toNat ∧ k ≤ s.echoMax.toNat ∧ k - i ≤ s.rx.cnt.toNat ∧
        staged s.echoTmp i
  | .echoPump (.writing n k r i _) =>
      s.status = .ok ∧ r = k ∧ 0 < r ∧ i ≤ r ∧ k ≤ n.toNat ∧ k ≤ s.echoMax.toNat ∧ staged s.echoTmp r

/-- What port I's sequencer may hold between two micro-steps: of the commands port I takes, only `serviceTransmit` has
more than one (R102). -/
def legalI (s : State) : Seq → Prop
  | .serviceTransmit loc => s.status = .ok ∧ loc ≠ .start
  | .idle => True
  | .init _ _ _ _ _ _ => False
  | .write _ _ _ _ => False
  | .read _ _ => False
  | .echoPump _ => False

/-- A setup micro-step has run since hardware reset: an `init` has set `status`, or is in flight. -/
def State.setUp (s : State) : Prop := s.status ≠ .never ∨ s.seqL ≠ .idle

/-- The invariant of every reachable state. -/
structure State.Inv (s : State) : Prop where
  /-- Every memory is in canonical form. -/
  rxmemWf : s.rxmem.wf
  txmemWf : s.txmem.wf
  echoTmpWf : s.echoTmp.wf
  /-- Each FIFO is bound to its own region (R46, R61). -/
  rxBound : s.rx.mem = .rxmem
  txBound : s.tx.mem = .txmem
  /-- `ECHO_DEFAULT ≤ ECHO_MAX` (R9). -/
  echoMaxLe : Config.echoDefault.toNat ≤ s.echoMax.toNat
  /-- Both FIFOs meet R35, R36 and R127 once `RB.init` has run. -/
  rxInv : s.setUp → s.rx.Inv s.rxmem
  txInv : s.setUp → s.tx.Inv s.txmem
  /-- The block holds its copy of the capability set (R43, R136). -/
  beCopied : s.setUp → s.be = CapabilitySet.supplied
  /-- The sequencers (R38). -/
  legalPortL : legalL s s.seqL
  legalPortI : legalI s s.seqI
  /-- At most one `serviceTransmit` activity exists (R156). -/
  oneActivity : ¬ (s.seqI.active = true ∧ s.seqL.active = true)

end Sys2Proof.Machine
end

