-- ==== Sys2Proof/Certificates/Slice0/Obligations.lean ====
section
/-! DEFINITION. The statements about UartCore that the provers are given, drawn from the numbered rules of spec/.
`t = { s with f := t.f, … }` says that every field of `t` but those listed is that of `s`. -/

open Sys2Proof Sys2Proof.Machine

/-! ## The word level (spec/30_encoding.md) -/

/-- R107: decoding the words of a well-formed command gives the command, whatever follows them on the channel. -/
def Obligations.DecodeInvertsEncode : Prop :=
  ∀ (i : Instr) (rest : List Word), i.wellFormed = true → decode (encode i ++ rest) = .command i rest

/-- R106, R107: what decodes to a command is that command's one spelling, so every bit of it was read. -/
def Obligations.EncodeInvertsDecode : Prop :=
  ∀ (ws : List Word) (i : Instr) (rest : List Word), decode ws = .command i rest →
    i.wellFormed = true ∧ ws = encode i ++ rest

/-- R97: the length of a command is 3 words for `init`, `1 + ceil(imm16 / 4)` for `write`, and 1 for every other
opcode, assigned or not; the decoder takes that many words, whatever they hold, and then checks them. -/
def Obligations.CommandLengthFollowsHeader : Prop :=
  ∀ cw : Word,
    (opField cw = 0x01 → 1 + wordsAfter cw = 3) ∧
    (opField cw = 0x04 → 1 + wordsAfter cw = 1 + ((immField cw).toNat + 3) / 4) ∧
    (opField cw ≠ 0x01 → opField cw ≠ 0x04 → 1 + wordsAfter cw = 1) ∧
    (∀ after rest : List Word, after.length = wordsAfter cw →
      (∃ i, decode (cw :: (after ++ rest)) = .command i rest) ∨ (∃ e, decode (cw :: (after ++ rest)) = .bad e rest))

/-- A channel that holds no word, or not yet all the words its first header says, holds no command: the port waits. The
spec hands over whole commands (R90), so this is the model's own choice (log 8). -/
def Obligations.IncompleteCommandWaits : Prop :=
  decode [] = .wait ∧
  ∀ (cw : Word) (after : List Word), after.length < wordsAfter cw → decode (cw :: after) = .wait

/-- R92: format N. A header of one of the seven format N opcodes decodes to its command, which has no operand, when
`cw[23:0]` is 0, and to the error 2 otherwise. -/
def Obligations.FormatNHasNoOperand : Prop :=
  ∀ (cw : Word) (rest : List Word) (op : BitVec 8) (i : Instr),
    (op, i) ∈ ([(0x03, .serviceTransmit), (0x06, .rxAvailableCount), (0x07, .txQueuedCount), (0x08, .echoPump),
      (0x09, .overflowCount), (0x0A, .overflowClear), (0x0C, .getEchoChunkSize)] : List (BitVec 8 × Instr)) →
    opField cw = op →
    (cw.extractLsb' 0 24 = 0 → decode (cw :: rest) = .command i rest) ∧
    (cw.extractLsb' 0 24 ≠ 0 → decode (cw :: rest) = .bad .reservedNonzero rest)

/-- R93: format B. `cw[23:8]` must be 0 and the byte is `cw[7:0]`, used as is. -/
def Obligations.FormatBCarriesTheByte : Prop :=
  ∀ (cw : Word) (rest : List Word), opField cw = 0x02 →
    (cw.extractLsb' 8 16 = 0 → decode (cw :: rest) = .command (.ingestReceivedByte (cw.extractLsb' 0 8)) rest) ∧
    (cw.extractLsb' 8 16 ≠ 0 → decode (cw :: rest) = .bad .reservedNonzero rest)

/-- R94: format H. `cw[23:16]` must be 0 and `n = cw[15:0]` is used as is; every value of it is legal. -/
def Obligations.FormatHCarriesTheHalf : Prop :=
  ∀ (cw : Word) (rest : List Word),
    (opField cw = 0x05 →
      (cw.extractLsb' 16 8 = 0 → decode (cw :: rest) = .command (.read (immField cw)) rest) ∧
      (cw.extractLsb' 16 8 ≠ 0 → decode (cw :: rest) = .bad .reservedNonzero rest)) ∧
    (opField cw = 0x0B →
      (cw.extractLsb' 16 8 = 0 → decode (cw :: rest) = .command (.setEchoChunkSize (immField cw)) rest) ∧
      (cw.extractLsb' 16 8 ≠ 0 → decode (cw :: rest) = .bad .reservedNonzero rest))

/-- R96: format I. `cw[15:0]` and `cw[23:19]` must be 0; the presence flags are bits 16 to 18, the baud rate is word 1,
`rxSize` and `txSize` the halves of word 2. -/
def Obligations.FormatICarriesTheInitOperands : Prop :=
  ∀ (cw w1 w2 : Word) (rest : List Word), opField cw = 0x01 →
    (cw.extractLsb' 0 16 = 0 → cw.extractLsb' 19 5 = 0 →
      decode (cw :: w1 :: w2 :: rest) =
        .command (.init (cw.getLsbD 16) (cw.getLsbD 17) (cw.getLsbD 18) w1 (w2.extractLsb' 16 16)
          (w2.extractLsb' 0 16)) rest) ∧
    (cw.extractLsb' 0 16 ≠ 0 ∨ cw.extractLsb' 19 5 ≠ 0 →
      decode (cw :: w1 :: w2 :: rest) = .bad .reservedNonzero rest)

/-- R99: byte `k` of a sequence is in payload word `floor(k / 4)`, lane `k mod 4`; a sequence of `n` bytes takes
`ceil(n / 4)` words; the lanes at and beyond the sequence's end are 0; and the rule's own example. -/
def Obligations.PayloadIsLittleEndian : Prop :=
  (∀ (bytes : List Byte) (k : Nat), lane ((packBytes bytes).getD (k / 4) 0) (k % 4) = bytes.getD k 0) ∧
  (∀ bytes : List Byte, (packBytes bytes).length = (bytes.length + 3) / 4) ∧
  packBytes [0x10, 0x20, 0x30, 0x40, 0x50] = [0x40302010, 0x00000050]

/-- R106: an unassigned opcode is the error 1, and one word is consumed, whatever the word's other bits. -/
def Obligations.UnassignedOpcodeIsIllegal : Prop :=
  ∀ (cw : Word) (rest : List Word), (opField cw = 0 ∨ 0x0C < (opField cw).toNat) →
    decode (cw :: rest) = .bad .illegalOpcode rest

/-- R95, R99 (V12): format W. `cw[23:16]` must be 0, `length = cw[15:0]`, and the `ceil(length / 4)` words after the header
hold the bytes, byte `k` in lane `k mod 4` of word `floor(k / 4)`; the lanes from `length` on must be 0. Otherwise it is the
error 2, and all the words are consumed. -/
def Obligations.FormatWCarriesTheBytes : Prop :=
  ∀ (cw : Word) (payload rest : List Word), opField cw = 0x04 →
    payload.length = ((immField cw).toNat + 3) / 4 →
    (cw.extractLsb' 16 8 = 0 →
      (∀ k, (immField cw).toNat ≤ k → lane (payload.getD (k / 4) 0) (k % 4) = 0) →
      ∃ data, decode (cw :: (payload ++ rest)) = .command (.write data (immField cw)) rest ∧
        data.length = (immField cw).toNat ∧
        ∀ k, k < (immField cw).toNat → data.getD k 0 = lane (payload.getD (k / 4) 0) (k % 4)) ∧
    (cw.extractLsb' 16 8 = 0 →
      (∃ k, (immField cw).toNat ≤ k ∧ lane (payload.getD (k / 4) 0) (k % 4) ≠ 0) →
      decode (cw :: (payload ++ rest)) = .bad .reservedNonzero rest) ∧
    (cw.extractLsb' 16 8 ≠ 0 → decode (cw :: (payload ++ rest)) = .bad .reservedNonzero rest)

/-- Words written out from the encodings decode to the commands they stand for (95_test_vectors.md, 2.1). -/
def Obligations.SampleWordsDecode : Prop :=
  decode [0x01070000, 0x0001C200, 0x00040008] = .command (.init true true true 115200 4 8) [] ∧
  decode [0x0200005A] = .command (.ingestReceivedByte 0x5A) [] ∧
  decode [0x03000000] = .command .serviceTransmit [] ∧
  decode [0x04000005, 0x40302010, 0x00000050] = .command (.write [0x10, 0x20, 0x30, 0x40, 0x50] 5) [] ∧
  decode [0x05000008] = .command (.read 8) [] ∧
  decode [0x08000000] = .command .echoPump [] ∧
  decode [0x0B000010] = .command (.setEchoChunkSize 16) []

/-! ## Steps, ports and the start of a command -/

/-- R66, R38, R90: when the port that takes the turn is idle and the words on its channel are those of a well-formed
command, the step is that command's micro-step, at the state whose channel has lost those words. -/
def Obligations.StepRunsTheDecodedCommand : Prop :=
  ∀ (s : State) (i : Instr) (rest : List Word), i.wellFormed = true → s.takeTurn.current = .idle →
    s.takeTurn.commands s.takeTurn.turn = encode i ++ rest →
    step s = exec i (s.takeTurn.setCommands s.takeTurn.turn rest)

/-- R38, R66: a port with a command in flight goes on with that command; one with nothing in flight and no command on
its channel does nothing. The turn is the head of the order to come. -/
def Obligations.StepResumesOrIdles : Prop :=
  (∀ (s : State) (p : Port) (ps : List Port) (i : Instr), s.order = p :: ps → (s.seqOf p).instr = some i →
    step s = exec i { s with turn := p, order := ps }) ∧
  (∀ (s : State) (p : Port) (ps : List Port), s.order = p :: ps → s.seqOf p = .idle → s.commands p = [] →
    step s = .next { s with turn := p, order := ps })

/-- R104: a command that does not decode is answered with `err = 1` and its code, which is 1 for an illegal opcode and 2 for
a reserved field that is not 0 (decoding gives no other error); the answer has no payload, the words are consumed, and nothing
else changes. -/
def Obligations.UndecodableCommandIsAnswered : Prop :=
  ∀ (s : State) (p : Port) (ps : List Port) (e : CmdError) (rest : List Word),
    s.order = p :: ps → s.seqOf p = .idle → decode (s.commands p) = .bad e rest →
    ∃ t v, step s = .next t ∧
      ((e = .illegalOpcode ∧ v = 1) ∨ (e = .reservedNonzero ∧ v = 2)) ∧
      t.responses p = s.responses p ++ [{ err := true, val := v, payload := [] }] ∧
      t.commands p = rest ∧
      t.responses (otherPort p) = s.responses (otherPort p) ∧
      t.commands (otherPort p) = s.commands (otherPort p) ∧
      t = { s with turn := p, order := ps, cmdI := t.cmdI, cmdL := t.cmdL, respI := t.respI, respL := t.respL }

/-- R102, R104, R105: a port that does not take a command answers it with code 3, whatever `status` is, and changes
nothing else; port I takes exactly six commands and port L all but one. -/
def Obligations.WrongPortIsAnswered : Prop :=
  (∀ i : Instr, takenOn .L i = true ↔ i.mnemonic ≠ "ingestReceivedByte") ∧
  (∀ i : Instr, takenOn .I i = true ↔ i.mnemonic ∈ ["ingestReceivedByte", "serviceTransmit", "rxAvailableCount",
    "txQueuedCount", "overflowCount", "getEchoChunkSize"]) ∧
  (∀ (i : Instr) (s : State), s.current = .idle → takenOn s.turn i = false →
    ∃ t, exec i s = .next t ∧
      t.responses s.turn = s.responses s.turn ++ [{ err := true, val := 3, payload := [] }] ∧
      t.responses (otherPort s.turn) = s.responses (otherPort s.turn) ∧
      t = { s with respI := t.respI, respL := t.respL })

/-- R203: a well-formed command other than `init` that starts, at a port that takes it, while `status` is not OK is
`Undefined(UseBeforeInit)`, the first clause. `init` that starts while `status` is OK is `Undefined(ReInit)`; R145 says that
a model refuses it and V6 lets it fault or refuse. That it is a FAULT, the second clause, is the model's own choice (DESIGN
CHOICE, log 13). -/
def Obligations.UndefinedStartsFault : Prop :=
  (∀ (i : Instr) (s : State), i.wellFormed = true → i.mnemonic ≠ "init" → s.current = .idle →
    takenOn s.turn i = true → s.status ≠ .ok → exec i s = .fault .useBeforeInit) ∧
  (∀ (be rxs txs : Bool) (baud : Word) (rxSize txSize : Half) (s : State), s.readyAt .L →
    exec (.init be rxs txs baud rxSize txSize) s = .fault .reInit)

/-- R156: a `serviceTransmit` activity that would start while the other port is in one is
`Undefined(TxConsumerOverlap)`: as the command, as the `write` of no bytes whose first micro-step is its flush (R161 (d)), as
the flush that ends any other `write`, and as a flush within an `echoPump`. -/
def Obligations.SecondTransmitActivityFaults : Prop :=
  (∀ (s : State) (p : Port), s.readyAt p → (s.seqOf (otherPort p)).active = true →
    exec .serviceTransmit s = .fault .txConsumerOverlap) ∧
  (∀ s : State, s.readyAt .L → s.seqI.active = true → exec (.write [] 0) s = .fault .txConsumerOverlap) ∧
  (∀ (s : State) (data : List Byte) (length : Half) (i : Nat), s.turn = .L → s.seqI.active = true →
    (s.seqL = .write data length i (.flushing .start) ∨ (s.seqL = .write data length i .pushing ∧ data.length ≤ i)) →
    exec (.write data length) s = .fault .txConsumerOverlap) ∧
  (∀ (s : State) (n : Half) (k r i : Nat), s.turn = .L → s.seqI.active = true →
    (s.seqL = .echoPump (.writing n k r i (.flushing .start)) ∨
      (s.seqL = .echoPump (.writing n k r i .pushing) ∧ r ≤ i)) →
    exec .echoPump s = .fault .txConsumerOverlap)

/-- R38, R66, R213: a micro-step of one port leaves the other port's sequencer and channels alone, and presents no
command to its own. -/
def Obligations.MicroStepLeavesTheOtherPortAlone : Prop :=
  ∀ (i : Instr) (s t : State), exec i s = .next t →
    t.turn = s.turn ∧
    t.seqOf (otherPort s.turn) = s.seqOf (otherPort s.turn) ∧
    t.responses (otherPort s.turn) = s.responses (otherPort s.turn) ∧
    t.cmdI = s.cmdI ∧ t.cmdL = s.cmdL ∧ t.order = s.order

/-- R90, R103: a micro-step delivers a response exactly when it leaves its port idle, and then one; an in-flight command
has delivered none. -/
def Obligations.OneResponsePerReturn : Prop :=
  ∀ (i : Instr) (s t : State), exec i s = .next t →
    if t.current = .idle then ∃ r, t.responses s.turn = s.responses s.turn ++ [r]
    else t.responses s.turn = s.responses s.turn ∧ t.current.instr = some i

/-- R44, R137 (c): which command may write which register, the backend trace and the storage. -/
def Obligations.RegistersHaveTheirWriters : Prop :=
  ∀ (i : Instr) (s t : State), exec i s = .next t →
    (i.mnemonic ≠ "init" → t.rx.cap = s.rx.cap ∧ t.tx.cap = s.tx.cap ∧ t.rx.mem = s.rx.mem ∧ t.tx.mem = s.tx.mem ∧
      t.status = s.status ∧ t.be = s.be) ∧
    (i.mnemonic ∉ ["init", "ingestReceivedByte", "read", "echoPump"] → t.rx.cnt = s.rx.cnt) ∧
    (i.mnemonic ∉ ["init", "write", "echoPump", "serviceTransmit"] → t.tx.cnt = s.tx.cnt) ∧
    (i.mnemonic ∉ ["init", "ingestReceivedByte"] → t.rx.wr = s.rx.wr) ∧
    (i.mnemonic ∉ ["init", "read", "echoPump"] → t.rx.rd = s.rx.rd) ∧
    (i.mnemonic ∉ ["init", "write", "echoPump"] → t.tx.wr = s.tx.wr) ∧
    (i.mnemonic ∉ ["init", "write", "echoPump", "serviceTransmit"] → t.tx.rd = s.tx.rd) ∧
    (i.mnemonic ∉ ["init", "overflowClear", "ingestReceivedByte"] → t.ovf = s.ovf) ∧
    (i.mnemonic ∉ ["init", "setEchoChunkSize"] → t.echoCfg = s.echoCfg) ∧
    (i.mnemonic ≠ "echoPump" → t.echoTmp = s.echoTmp) ∧
    (i.mnemonic ∉ ["init", "serviceTransmit", "write", "echoPump"] →
      t.trace = s.trace ∧ t.answers = s.answers ∧ t.draws = s.draws) ∧
    (i.mnemonic ∉ ["ingestReceivedByte", "write", "echoPump"] → ∀ r a, t.byteAt r a = s.byteAt r a) ∧
    t.echoMax = s.echoMax

/-! ## Memory and the RingBuffer micro-operations (spec/20_memory.md, spec/40_ringbuffer.md) -/

/-- R15, R65: within the region neither primitive faults. `MemRead` gives the byte last written at its offset, or, where
nothing was written, the free value of V2; after a `MemWrite` its offset reads as the byte, every other byte of either region
is as before, nothing but the storage differs, and the canonical form of the memories is kept. -/
def Obligations.MemoryReadsBackWhatWasWritten : Prop :=
  ∀ (f : FifoId) (i : Nat) (s : State), i < (s.fifo f).cap.toNat →
    (∀ b, s.byteAt (s.fifo f).mem i = some b → memRead f i s = .ok b) ∧
    (s.byteAt (s.fifo f).mem i = none → memRead f i s = .ok (Config.unwrittenByte (s.fifo f).mem i)) ∧
    (∀ b, ∃ t, memWrite f i b s = .ok t ∧ memRead f i t = .ok b ∧
      t.byteAt (s.fifo f).mem i = some b ∧
      (∀ r a, ¬ (r = (s.fifo f).mem ∧ a = i) → t.byteAt r a = s.byteAt r a) ∧
      (s.rxmem.wf → t.rxmem.wf) ∧ (s.txmem.wf → t.txmem.wf) ∧
      t = { s with rxmem := t.rxmem, txmem := t.txmem })

/-- R121: `RB.init` binds the FIFO's region, sets the capacity and empties the FIFO; it neither reads nor writes the
storage, nor anything of the other FIFO. -/
def Obligations.RingBufferInitEmpties : Prop :=
  ∀ (size : Half) (s : State),
    rbInit .rx size s = { s with rx := { mem := .rxmem, cap := size, wr := 0, rd := 0, cnt := 0 } } ∧
    rbInit .tx size s = { s with tx := { mem := .txmem, cap := size, wr := 0, rd := 0, cnt := 0 } } ∧
    (∀ f, (rbInit f size s).contents f = []) ∧
    (∀ f, ((rbInit f size s).fifo f).empty = true ∧ (size ≠ 0 → ((rbInit f size s).fifo f).full = false))

/-- R122, R123: the two counts, and that together they make the capacity while `cnt ≤ cap`. -/
def Obligations.CountsAddUpToCapacity : Prop :=
  ∀ (f : FifoId) (s : State), availableCount f s = (s.fifo f).cnt ∧
    freeSpace f s = (s.fifo f).cap - (s.fifo f).cnt ∧
    ((s.fifo f).cnt.toNat ≤ (s.fifo f).cap.toNat →
      (freeSpace f s).toNat = (s.fifo f).cap.toNat - (s.fifo f).cnt.toNat ∧
      (availableCount f s).toNat + (freeSpace f s).toNat = (s.fifo f).cap.toNat)

/-- R124: a push fails, with no mutation, exactly when `cnt = cap`; otherwise, the write index being in range, it stores the
byte there, advances the index modulo the capacity and counts up, and writes nothing else. -/
def Obligations.PushStoresAtTheWriteIndex : Prop :=
  ∀ (f : FifoId) (b : Byte) (s : State),
    ((s.fifo f).cnt = (s.fifo f).cap → push f b s = .ok (false, s)) ∧
    ((s.fifo f).cnt ≠ (s.fifo f).cap → (s.fifo f).wr.toNat < (s.fifo f).cap.toNat →
      ∃ t, push f b s = .ok (true, t) ∧
        t.byteAt (s.fifo f).mem (s.fifo f).wr.toNat = some b ∧
        (∀ r a, ¬ (r = (s.fifo f).mem ∧ a = (s.fifo f).wr.toNat) → t.byteAt r a = s.byteAt r a) ∧
        (t.fifo f).wr.toNat = ((s.fifo f).wr.toNat + 1) % (s.fifo f).cap.toNat ∧
        (t.fifo f).cnt = (s.fifo f).cnt + 1 ∧
        t.fifo f = { s.fifo f with wr := (t.fifo f).wr, cnt := (t.fifo f).cnt } ∧
        t = State.setFifo { s with rxmem := t.rxmem, txmem := t.txmem } f (t.fifo f))

/-- R125: a pop fails, with no mutation, exactly when `cnt = 0`; otherwise, the read index being in range, it returns the byte
stored there (whatever it is, R15), advances the index modulo the capacity and counts down, and writes nothing else. -/
def Obligations.PopTakesTheReadIndex : Prop :=
  ∀ (f : FifoId) (s : State),
    ((s.fifo f).cnt = 0 → pop f s = .ok (none, s)) ∧
    (∀ b, (s.fifo f).cnt ≠ 0 → (s.fifo f).rd.toNat < (s.fifo f).cap.toNat →
      s.storedByte (s.fifo f).mem (s.fifo f).rd.toNat = b →
      ∃ q, pop f s = .ok (some b, s.setFifo f q) ∧
        q.rd.toNat = ((s.fifo f).rd.toNat + 1) % (s.fifo f).cap.toNat ∧
        q.cnt = (s.fifo f).cnt - 1 ∧
        q = { s.fifo f with rd := q.rd, cnt := q.cnt })

/-- R128: over a FIFO that meets its invariant, a push that succeeds appends its byte to the contents, a push that fails
leaves them alone, and a pop takes their oldest byte; both keep the invariant. So bytes leave in the order they entered. -/
def Obligations.FifoIsABoundedQueue : Prop :=
  ∀ (f : FifoId) (s : State), (s.fifo f).Inv (s.region (s.fifo f).mem) →
    (s.contents f).length = (s.fifo f).cnt.toNat ∧
    (∀ b, ∃ r t, push f b s = .ok (r, t) ∧ (t.fifo f).Inv (t.region (t.fifo f).mem) ∧
      (r = true ↔ (s.contents f).length < (s.fifo f).cap.toNat) ∧
      t.contents f = if r then s.contents f ++ [some b] else s.contents f) ∧
    (∃ o t, pop f s = .ok (o, t) ∧ (t.fifo f).Inv (t.region (t.fifo f).mem) ∧
      s.contents f = (match o with | some b => some b :: t.contents f | none => []) ∧
      (o = none ↔ s.contents f = []))

/-- R129: when `0 < cnt < cap`, a push and a pop of one FIFO commute: the same state and the same byte in both orders. At
`cnt = 0` the pop fails if it comes first and takes the pushed byte if it comes second; at `cnt = cap` the push fails if it
comes first and succeeds if it comes second. -/
def Obligations.PushAndPopCommute : Prop :=
  ∀ (f : FifoId) (b : Byte) (s : State), (s.fifo f).Inv (s.region (s.fifo f).mem) →
    (0 < (s.fifo f).cnt.toNat → (s.fifo f).cnt.toNat < (s.fifo f).cap.toNat →
      ∃ c u v t, push f b s = .ok (true, u) ∧ pop f u = .ok (some c, t) ∧
        pop f s = .ok (some c, v) ∧ push f b v = .ok (true, t)) ∧
    ((s.fifo f).cnt.toNat = 0 →
      pop f s = .ok (none, s) ∧ ∃ u t, push f b s = .ok (true, u) ∧ pop f u = .ok (some b, t)) ∧
    ((s.fifo f).cnt.toNat = (s.fifo f).cap.toNat →
      push f b s = .ok (false, s) ∧ ∃ c v t, pop f s = .ok (some c, v) ∧ push f b v = .ok (true, t))

/-! ## `init` (spec/42_init.md) -/

/-- R143: when a reference is absent or a size is zero, `init` returns false and writes nothing: the response is delivered,
and no field but the response channel differs. From hardware reset the block is as after hardware reset. The spec gives a
rejected `init` no micro-step; that it is taken and answered in one turn of port L, so that `exec` answers one next state, is the
model's own choice (DESIGN CHOICE, log 25). -/
def Obligations.RejectedInitWritesNothing : Prop :=
  ∀ (be rxs txs : Bool) (baud : Word) (rxSize txSize : Half) (s : State),
    s.turn = .L → s.seqL = .idle → s.status ≠ .ok →
    (be = false ∨ rxs = false ∨ txs = false ∨ rxSize = 0 ∨ txSize = 0) →
    exec (.init be rxs txs baud rxSize txSize) s =
      .next { s with respL := s.respL ++ [{ err := false, val := 0, payload := [] }] }

/-- R142, R50: the setup micro-step, as one transition: the five writes, and nothing else but the sequencer. -/
def Obligations.InitSetupWritesFirstValues : Prop :=
  ∀ (baud : Word) (rxSize txSize : Half) (s : State),
    s.turn = .L → s.seqL = .idle → s.status ≠ .ok → rxSize ≠ 0 → txSize ≠ 0 →
    exec (.init true true true baud rxSize txSize) s = .next { s with
      be := CapabilitySet.supplied
      rx := { mem := .rxmem, cap := rxSize, wr := 0, rd := 0, cnt := 0 }
      tx := { mem := .txmem, cap := txSize, wr := 0, rd := 0, cnt := 0 }
      ovf := 0
      echoCfg := 32
      seqL := .init true true true baud rxSize txSize }

/-- R131, R141, R144: the backend micro-step of an `init` in flight: the backend's answer is recorded with the baud rate, sets
`status`, and is the result; nothing the setup wrote is undone. The answer is the next listed one, or a free value. -/
def Obligations.InitReturnsTheBackendAnswer : Prop :=
  ∀ (be rxs txs : Bool) (baud : Word) (rxSize txSize : Half) (s : State),
    s.turn = .L → s.seqL = .init be rxs txs baud rxSize txSize →
    ∃ (r : Bool) (t : State), exec (.init be rxs txs baud rxSize txSize) s = .next t ∧
      t = { s with
        trace := s.trace ++ [.init baud r]
        status := if r then .ok else .failed
        seqL := .idle
        respL := s.respL ++ [{ err := false, val := if r then 1 else 0, payload := [] }]
        answers := t.answers
        draws := t.draws } ∧
      (∀ a rest, s.answers = a :: rest → r = a ∧ t.answers = rest ∧ t.draws = s.draws) ∧
      (s.answers = [] → r = Config.backendAnswer s.be.init s.draws ∧ t.answers = [] ∧ t.draws = s.draws + 1)

/-! ## `ingestReceivedByte` and `serviceTransmit` (spec/43_ingest_service.md) -/

/-- R151: with room in `rx`, the whole command is one micro-step that stores the byte at the write index, advances it and
counts up; it answers 0 and changes nothing else. -/
def Obligations.IngestStoresTheByte : Prop :=
  ∀ (b : Byte) (s : State), s.readyAt .I → s.rx.cnt ≠ s.rx.cap → s.rx.wr.toNat < s.rx.cap.toNat →
    ∃ t, exec (.ingestReceivedByte b) s = .next t ∧
      t.byteAt s.rx.mem s.rx.wr.toNat = some b ∧
      (∀ r a, ¬ (r = s.rx.mem ∧ a = s.rx.wr.toNat) → t.byteAt r a = s.byteAt r a) ∧
      t.rx.wr.toNat = (s.rx.wr.toNat + 1) % s.rx.cap.toNat ∧
      t.rx.cnt = s.rx.cnt + 1 ∧
      t = { s with
        rx := { s.rx with wr := t.rx.wr, cnt := t.rx.cnt }
        rxmem := t.rxmem
        txmem := t.txmem
        respI := s.respI ++ [{ err := false, val := 0, payload := [] }] }

/-- R151, R152: with `rx` full, the arriving byte is the one lost: only `ovf` changes, by one, saturating at
4294967295. -/
def Obligations.IngestDropsTheNewestByte : Prop :=
  ∀ (b : Byte) (s : State), s.readyAt .I → s.rx.cnt = s.rx.cap →
    ∃ t, exec (.ingestReceivedByte b) s = .next t ∧
      t.ovf.toNat = min (s.ovf.toNat + 1) 4294967295 ∧
      t = { s with ovf := t.ovf, respI := s.respI ++ [{ err := false, val := 0, payload := [] }] }

/-- R132, R153, R154: `serviceTransmit` asks `txReady` first, at its start and at the head of every later iteration: on a
false it has returned, having popped nothing since its last `txWrite`; on a true it pops next. -/
def Obligations.ServiceTransmitAsksFirst : Prop :=
  ∀ (s : State) (p : Port),
    (s.readyAt p ∧ (s.seqOf (otherPort p)).active = false) ∨ (s.turn = p ∧ s.seqOf p = .serviceTransmit .ask) →
    ∃ (r : Bool) (t : State), exec .serviceTransmit s = .next t ∧
      t.trace = s.trace ++ [.txReady r] ∧
      t.seqOf p = (if r then .serviceTransmit .pop else .idle) ∧
      t.responses p = (if r then s.responses p else s.responses p ++ [{ err := false, val := 0, payload := [] }]) ∧
      (∀ a rest, s.answers = a :: rest → r = a ∧ t.answers = rest ∧ t.draws = s.draws) ∧
      (s.answers = [] → r = Config.backendAnswer s.be.txReady s.draws ∧ t.answers = [] ∧ t.draws = s.draws + 1) ∧
      t.seqOf (otherPort p) = s.seqOf (otherPort p) ∧ t.responses (otherPort p) = s.responses (otherPort p) ∧
      t = { s with
        trace := t.trace, answers := t.answers, draws := t.draws,
        seqI := t.seqI, seqL := t.seqL, respI := t.respI, respL := t.respL }

/-- R153, R154: after a true answer the loop pops `tx`: from an empty `tx` it returns; otherwise the byte is held, and the
micro-step after hands exactly that byte to `txWrite` and then asks again. -/
def Obligations.ServiceTransmitForwardsThePoppedByte : Prop :=
  (∀ (s : State) (p : Port), s.turn = p → s.seqOf p = .serviceTransmit .pop → s.tx.cnt = 0 →
    exec .serviceTransmit s = .next (s.finish { err := false, val := 0, payload := [] })) ∧
  (∀ (s : State) (p : Port) (b : Byte), s.turn = p → s.seqOf p = .serviceTransmit .pop → s.tx.cnt ≠ 0 →
    s.tx.rd.toNat < s.tx.cap.toNat → s.storedByte s.tx.mem s.tx.rd.toNat = b →
    ∃ t, exec .serviceTransmit s = .next t ∧ t.seqOf p = .serviceTransmit (.put b) ∧
      t.seqOf (otherPort p) = s.seqOf (otherPort p) ∧
      t.tx.rd.toNat = (s.tx.rd.toNat + 1) % s.tx.cap.toNat ∧ t.tx.cnt = s.tx.cnt - 1 ∧
      t = { s with tx := { s.tx with rd := t.tx.rd, cnt := t.tx.cnt }, seqI := t.seqI, seqL := t.seqL }) ∧
  (∀ (s : State) (p : Port) (b : Byte), s.turn = p → s.seqOf p = .serviceTransmit (.put b) →
    exec .serviceTransmit s =
      .next (State.setSeq { s with trace := s.trace ++ [.txWrite b] } p (.serviceTransmit .ask)))

/-- R155, R262, R267: with the other port in no activity and a backend that answers true throughout, `serviceTransmit`
sends the `k` bytes queued, in order, each once, empties `tx`, and returns after exactly `3k + 2` micro-steps. -/
def Obligations.ServiceTransmitDrainsInOrder : Prop :=
  ∀ (s : State) (p : Port) (rest : List Bool), s.Inv → s.readyAt p → (s.seqOf (otherPort p)).active = false →
    s.answers = List.replicate (s.tx.cnt.toNat + 1) true ++ rest →
    drive (3 * s.tx.cnt.toNat + 1) .serviceTransmit s = none ∧
    ∃ t bytes, drive (3 * s.tx.cnt.toNat + 2) .serviceTransmit s = some t ∧
      bytes.map some = s.contents .tx ∧ sink t.trace = sink s.trace ++ bytes ∧
      t.tx.cnt = 0 ∧ t.answers = rest ∧
      t.responses p = s.responses p ++ [{ err := false, val := 0, payload := [] }] ∧
      t.responses (otherPort p) = s.responses (otherPort p) ∧
      t = { s with
        tx := { s.tx with rd := t.tx.rd, cnt := t.tx.cnt },
        trace := t.trace, answers := t.answers, respI := t.respI, respL := t.respL }

/-- R154 (DOC's rate-limited drain): a backend that answers true and then false takes exactly the oldest byte, and the
queued count falls by exactly 1. -/
def Obligations.RateLimitedDrainSendsOneByte : Prop :=
  ∀ (s : State) (p : Port) (rest : List Bool), s.Inv → s.readyAt p → (s.seqOf (otherPort p)).active = false →
    s.tx.cnt ≠ 0 → s.answers = true :: false :: rest →
    ∃ t b, drive 4 .serviceTransmit s = some t ∧ t.tx.cnt = s.tx.cnt - 1 ∧
      s.contents .tx = some b :: t.contents .tx ∧
      t.trace = s.trace ++ [.txReady true, .txWrite b, .txReady false] ∧ t.answers = rest

/-! ## `write` and `read` (spec/44_write_read.md) -/

/-- R160, R161 (b), (c), (g): a `write` starts by pushing its first byte and goes on by pushing the byte after those already
enqueued, whatever port I did to `tx` in between: the byte is stored when `tx` has room, else the pushing is over and the flush
is due. -/
def Obligations.WriteStartsByPushing : Prop :=
  ∀ (data : List Byte) (length : Half) (i : Nat) (b : Byte) (s : State), s.turn = .L →
    (s.readyAt .L ∧ i = 0 ∧ data.length = length.toNat) ∨ s.seqL = .write data length i .pushing →
    data[i]? = some b →
    (s.tx.cnt = s.tx.cap → exec (.write data length) s =
      .next { s with seqL := .write data length i (.flushing .start) }) ∧
    (s.tx.cnt ≠ s.tx.cap → s.tx.wr.toNat < s.tx.cap.toNat →
      ∃ t, exec (.write data length) s = .next t ∧
        t.byteAt s.tx.mem s.tx.wr.toNat = some b ∧
        (∀ r a, ¬ (r = s.tx.mem ∧ a = s.tx.wr.toNat) → t.byteAt r a = s.byteAt r a) ∧
        t.tx.wr.toNat = (s.tx.wr.toNat + 1) % s.tx.cap.toNat ∧ t.tx.cnt = s.tx.cnt + 1 ∧
        t = { s with
          tx := { s.tx with wr := t.tx.wr, cnt := t.tx.cnt }
          rxmem := t.rxmem
          txmem := t.txmem
          seqL := .write data length (i + 1) .pushing })

/-- R160, R161 (a), (d) to (f), R153: the flush runs always: after a failed push, after the last push, and for a `write` of no
bytes, the next micro-step asks `txReady`. From there the flush is the `serviceTransmit` loop: it asks, pops, and hands exactly
the popped byte to `txWrite`, and asks again. At a false answer to any question, and at a pop that finds `tx` empty, the command
returns `i`, the count that was enqueued before the flush began, whatever the flush has sent. -/
def Obligations.WriteAlwaysFlushes : Prop :=
  ∀ (data : List Byte) (length : Half) (i : Nat) (s : State), s.turn = .L →
    ((s.readyAt .L ∧ s.seqI.active = false ∧ data = [] ∧ length = 0 ∧ i = 0) ∨
        s.seqL = .write data length i (.flushing .ask) ∨
        (s.seqI.active = false ∧ (s.seqL = .write data length i (.flushing .start) ∨
          (s.seqL = .write data length i .pushing ∧ data.length ≤ i))) →
      ∃ (r : Bool) (t : State), exec (.write data length) s = .next t ∧ t.trace = s.trace ++ [.txReady r] ∧
        t.seqL = (if r then .write data length i (.flushing .pop) else .idle) ∧
        t.respL = (if r then s.respL
          else s.respL ++ [{ err := false, val := BitVec.ofNat 32 i, payload := [] }]) ∧
        (∀ a rest, s.answers = a :: rest → r = a ∧ t.answers = rest ∧ t.draws = s.draws) ∧
        (s.answers = [] → r = Config.backendAnswer s.be.txReady s.draws ∧ t.answers = [] ∧ t.draws = s.draws + 1) ∧
        t = { s with
          trace := t.trace, answers := t.answers, draws := t.draws, seqL := t.seqL, respL := t.respL }) ∧
    (s.seqL = .write data length i (.flushing .pop) → s.tx.cnt = 0 →
      exec (.write data length) s = .next { s with
        seqL := .idle, respL := s.respL ++ [{ err := false, val := BitVec.ofNat 32 i, payload := [] }] }) ∧
    (∀ b, s.seqL = .write data length i (.flushing .pop) → s.tx.cnt ≠ 0 →
      s.tx.rd.toNat < s.tx.cap.toNat → s.storedByte s.tx.mem s.tx.rd.toNat = b →
      ∃ t, exec (.write data length) s = .next t ∧ t.seqL = .write data length i (.flushing (.put b)) ∧
        t.tx.rd.toNat = (s.tx.rd.toNat + 1) % s.tx.cap.toNat ∧ t.tx.cnt = s.tx.cnt - 1 ∧
        t = { s with tx := { s.tx with rd := t.tx.rd, cnt := t.tx.cnt }, seqL := t.seqL }) ∧
    (∀ b, s.seqL = .write data length i (.flushing (.put b)) →
      exec (.write data length) s = .next { s with
        trace := s.trace ++ [.txWrite b], seqL := .write data length i (.flushing .ask) })

/-- R160, R161 (a) to (e): with port I in no activity and a backend that is not ready, `write` enqueues the first
`min(length, free space)` bytes in order, returns that count, asks the backend once, and changes nothing of `rx`. -/
def Obligations.WriteReturnsTheShortCount : Prop :=
  ∀ (data : List Byte) (length : Half) (s : State) (rest : List Bool), s.Inv → s.readyAt .L →
    s.seqI.active = false → data.length = length.toNat → s.answers = false :: rest →
    ∃ t, drive (length.toNat + 2) (.write data length) s = some t ∧
      t.contents .tx = s.contents .tx ++ (data.take (s.tx.cap.toNat - s.tx.cnt.toNat)).map some ∧
      t.respL = s.respL ++ [Response.mk false
        (BitVec.ofNat 32 (min length.toNat (s.tx.cap.toNat - s.tx.cnt.toNat))) []] ∧
      t = { s with
        tx := { s.tx with wr := t.tx.wr, cnt := t.tx.cnt }
        txmem := t.txmem
        respL := t.respL
        trace := s.trace ++ [.txReady false]
        answers := rest }

/-- R161 (h), R155: with port I in no activity, room in `tx` for all the bytes and a backend that answers true throughout, a
`write` returns `length`, sends what was queued and then its own bytes, in order, each once, and leaves `tx` empty. -/
def Obligations.WriteDeliversEverything : Prop :=
  ∀ (data : List Byte) (length : Half) (s : State) (rest : List Bool), s.Inv → s.readyAt .L →
    s.seqI.active = false → data.length = length.toNat → s.tx.cnt.toNat + length.toNat ≤ s.tx.cap.toNat →
    s.answers = List.replicate (s.tx.cnt.toNat + length.toNat + 1) true ++ rest →
    ∃ t, drive (length.toNat + 3 * (s.tx.cnt.toNat + length.toNat) + 2) (.write data length) s = some t ∧
      (sink t.trace).map some = (sink s.trace).map some ++ s.contents .tx ++ data.map some ∧
      t.tx.cnt = 0 ∧
      t.respL = s.respL ++ [{ err := false, val := length.zeroExtend 32, payload := [] }] ∧
      t = { s with
        tx := { s.tx with wr := t.tx.wr, rd := t.tx.rd, cnt := t.tx.cnt }
        txmem := t.txmem
        respL := t.respL
        trace := t.trace
        answers := rest }

/-- R162: one pop micro-step of a `read` of at least one byte, at its start and in flight: it returns with the pop that
fails or that takes the last byte asked for, and otherwise goes on with one byte more. -/
def Obligations.ReadPopsOneByte : Prop :=
  ∀ (maxLen : Half) (out : List Byte) (s : State), s.turn = .L →
    (s.seqL = .read maxLen out ∨ (s.seqL = .idle ∧ s.status = .ok ∧ out = [] ∧ maxLen ≠ 0)) →
    (s.rx.cnt = 0 → exec (.read maxLen) s =
      .next { s with
        seqL := .idle
        respL := s.respL ++ [Response.mk false (BitVec.ofNat 32 out.length) (packBytes out)] }) ∧
    (∀ b, s.rx.cnt ≠ 0 → s.rx.rd.toNat < s.rx.cap.toNat → s.storedByte s.rx.mem s.rx.rd.toNat = b →
      ∃ t, exec (.read maxLen) s = .next t ∧
        t.rx.rd.toNat = (s.rx.rd.toNat + 1) % s.rx.cap.toNat ∧ t.rx.cnt = s.rx.cnt - 1 ∧
        t.seqL = (if out.length + 1 < maxLen.toNat then .read maxLen (out ++ [b]) else .idle) ∧
        t.respL = (if out.length + 1 < maxLen.toNat then s.respL
          else s.respL ++ [Response.mk false (BitVec.ofNat 32 (out ++ [b]).length) (packBytes (out ++ [b]))]) ∧
        t = { s with rx := { s.rx with rd := t.rx.rd, cnt := t.rx.cnt }, seqL := t.seqL, respL := t.respL })

/-- R163 (d): `read 0` attempts no pop: it returns 0 with no bytes and changes nothing. The spec gives it no micro-step (R267);
that it is taken and answered in one turn of port L, so that `exec` answers one next state, is the model's own choice (DESIGN
CHOICE, log 25). -/
def Obligations.ReadOfNothingChangesNothing : Prop :=
  ∀ s : State, s.readyAt .L →
    exec (.read 0) s = .next { s with respL := s.respL ++ [{ err := false, val := 0, payload := [] }] }

/-- R162, R163 (a) to (c), (g): with port I silent, `read` returns the oldest `min(maxLen, cnt)` bytes, oldest first, within
`maxLen + 1` micro-steps, and leaves the rest queued; `ovf`, the storage and all of `tx` are untouched. R267 bounds it by
`maxLen`; the one more is for `read 0`, whose one turn is the model's own choice (DESIGN CHOICE, log 25). -/
def Obligations.ReadReturnsTheOldestBytes : Prop :=
  ∀ (maxLen : Half) (s : State), s.Inv → s.readyAt .L →
    ∃ t bytes, drive (maxLen.toNat + 1) (.read maxLen) s = some t ∧
      bytes.map some = (s.contents .rx).take maxLen.toNat ∧
      t.contents .rx = (s.contents .rx).drop maxLen.toNat ∧
      t = { s with
        rx := { s.rx with rd := t.rx.rd, cnt := t.rx.cnt }
        respL := s.respL ++ [{ err := false, val := BitVec.ofNat 32 bytes.length, payload := packBytes bytes }] }

/-! ## Accessors, diagnostics and tuning (spec/44_write_read.md, spec/46_diag_tuning.md) -/

/-- R164, R165, R180, R183: each accessor answers its register, zero-extended, on either port, in one micro-step that
changes nothing but its own response channel. -/
def Obligations.AccessorsAnswerTheirRegister : Prop :=
  ∀ (s : State) (p : Port), s.readyAt p → ∀ (i : Instr) (v : Word),
    (i, v) ∈ ([(.rxAvailableCount, s.rx.cnt.zeroExtend 32), (.txQueuedCount, s.tx.cnt.zeroExtend 32),
      (.overflowCount, s.ovf), (.getEchoChunkSize, s.echoCfg.zeroExtend 32)] : List (Instr × Word)) →
    exec i s = .next (s.respond p { err := false, val := v, payload := [] })

/-- R181: `overflowClear` sets `ovf` to 0 and changes nothing else of the block; a second one leaves it 0. -/
def Obligations.OverflowClearZeroesTheCounter : Prop :=
  ∀ s : State, s.readyAt .L →
    exec .overflowClear s =
      .next { s with ovf := 0, respL := s.respL ++ [{ err := false, val := 0, payload := [] }] }

/-- R182: `setEchoChunkSize` stores its operand unchanged, whatever it is, and changes nothing else of the block. -/
def Obligations.SetEchoChunkSizeStoresTheOperand : Prop :=
  ∀ (n : Half) (s : State), s.readyAt .L →
    exec (.setEchoChunkSize n) s =
      .next { s with echoCfg := n, respL := s.respL ++ [{ err := false, val := 0, payload := [] }] }

/-- R40: the overflow counter only increases except via an explicit clear (or a construction): a micro-step of any other
command leaves it as it was, or adds one below the maximum. -/
def Obligations.OverflowOnlyGrows : Prop :=
  ∀ (i : Instr) (s t : State), exec i s = .next t → i.mnemonic ≠ "init" → i.mnemonic ≠ "overflowClear" →
    s.ovf.toNat ≤ t.ovf.toNat ∧ t.ovf.toNat ≤ s.ovf.toNat + 1

/-! ## `echoPump` (spec/45_echopump.md) -/

/-- R171: the effective chunk is the default 32 for 0, the configured value otherwise, and at most `ECHO_MAX`; where
`ECHO_MAX` is within its bounds it is at least 1. -/
def Obligations.EffectiveChunkIsBounded : Prop :=
  ∀ v echoMax : Half,
    effectiveChunk v echoMax ≤ echoMax.toNat ∧
    (v = 0 → 32 ≤ echoMax.toNat → effectiveChunk v echoMax = 32) ∧
    (v ≠ 0 → v.toNat ≤ echoMax.toNat → effectiveChunk v echoMax = v.toNat) ∧
    (v ≠ 0 → echoMax.toNat ≤ v.toNat → effectiveChunk v echoMax = echoMax.toNat) ∧
    (0 < echoMax.toNat → 0 < effectiveChunk v echoMax)

/-- R170, R174: an `echoPump`, at its start and at the head of every later iteration, asks `rx` for its count: it returns
when that is 0, and otherwise goes on with it. R45 and V3 leave the contents of `echo_tmp` open there; that they are all
dropped on the return, `echoTmp := []`, is the model's own choice (DESIGN CHOICE, log 4). -/
def Obligations.EchoPumpAsksForTheCount : Prop :=
  ∀ s : State, (s.readyAt .L ∨ (s.turn = .L ∧ s.seqL = .echoPump .ask)) →
    (s.rx.cnt = 0 → exec .echoPump s = .next { s with
      echoTmp := [], seqL := .idle, respL := s.respL ++ [{ err := false, val := 0, payload := [] }] }) ∧
    (s.rx.cnt ≠ 0 → exec .echoPump s = .next { s with seqL := .echoPump (.counted s.rx.cnt) })

/-- R170, R171: a pop micro-step of an iteration's inner `read`: the chunk is `min(n, effective_chunk)` of the count just
taken, the popped byte goes to the next place of the staging buffer, and after `k` bytes the inner `write` is due. R173: a pop
that fails ends the inner `read`: with no byte taken the pump returns, otherwise the bytes taken are written; that `echo_tmp`
is dropped on that return, `echoTmp := []`, is the model's own choice (DESIGN CHOICE, log 4). -/
def Obligations.EchoPumpStagesTheChunk : Prop :=
  ∀ (n : Half) (k i : Nat) (b : Byte) (s : State), s.turn = .L →
    ((s.seqL = .echoPump (.counted n) ∧ i = 0 ∧ k = min n.toNat (effectiveChunk s.echoCfg s.echoMax) ∧ 0 < k) ∨
      s.seqL = .echoPump (.reading n k i)) →
    (s.rx.cnt ≠ 0 → s.rx.rd.toNat < s.rx.cap.toNat → s.storedByte s.rx.mem s.rx.rd.toNat = b →
      i < s.echoMax.toNat →
      ∃ t, exec .echoPump s = .next t ∧
        t.rx.rd.toNat = (s.rx.rd.toNat + 1) % s.rx.cap.toNat ∧ t.rx.cnt = s.rx.cnt - 1 ∧
        t.echoTmp.read i = some b ∧ (∀ j, j ≠ i → t.echoTmp.read j = s.echoTmp.read j) ∧
        t.seqL = .echoPump (if i + 1 < k then .reading n k (i + 1) else .writing n k (i + 1) 0 .pushing) ∧
        t = { s with rx := { s.rx with rd := t.rx.rd, cnt := t.rx.cnt }, echoTmp := t.echoTmp, seqL := t.seqL }) ∧
    (s.rx.cnt = 0 → i = 0 → exec .echoPump s = .next { s with
      echoTmp := [], seqL := .idle, respL := s.respL ++ [{ err := false, val := 0, payload := [] }] }) ∧
    (s.rx.cnt = 0 → i ≠ 0 → exec .echoPump s = .next { s with seqL := .echoPump (.writing n k i 0 .pushing) })

/-- R170, R172: the inner `write` pushes the staged bytes in order; at the first push that fails, the flush is due, as it is
when all `r` bytes are pushed. The flush returns at the first false answer, from wherever it asks, and at a pop that finds `tx`
empty; the loop then goes on at its head, with nothing recorded of the bytes not taken. R45 and V3 leave the contents of
`echo_tmp` open from there on; that they are dropped, `echoTmp := []`, is the model's own choice (DESIGN CHOICE, log 4). -/
def Obligations.EchoPumpDropsWhatDoesNotFit : Prop :=
  ∀ (n : Half) (k r i : Nat) (b : Byte) (s : State), s.turn = .L →
    (s.seqL = .echoPump (.writing n k r i .pushing) → i < r → i < s.echoMax.toNat → s.stagedByte i = b →
      (s.tx.cnt = s.tx.cap →
        exec .echoPump s = .next { s with seqL := .echoPump (.writing n k r i (.flushing .start)) }) ∧
      (s.tx.cnt ≠ s.tx.cap → s.tx.wr.toNat < s.tx.cap.toNat →
        ∃ t, exec .echoPump s = .next t ∧
          t.byteAt s.tx.mem s.tx.wr.toNat = some b ∧
          (∀ q a, ¬ (q = s.tx.mem ∧ a = s.tx.wr.toNat) → t.byteAt q a = s.byteAt q a) ∧
          t.tx.wr.toNat = (s.tx.wr.toNat + 1) % s.tx.cap.toNat ∧ t.tx.cnt = s.tx.cnt + 1 ∧
          t = { s with
            tx := { s.tx with wr := t.tx.wr, cnt := t.tx.cnt }
            rxmem := t.rxmem
            txmem := t.txmem
            seqL := .echoPump (.writing n k r (i + 1) .pushing) })) ∧
    (∀ rest, (s.seqL = .echoPump (.writing n k r i (.flushing .ask)) ∨
        (s.seqI.active = false ∧ (s.seqL = .echoPump (.writing n k r i (.flushing .start)) ∨
          (s.seqL = .echoPump (.writing n k r i .pushing) ∧ r ≤ i)))) →
      s.answers = false :: rest →
      exec .echoPump s = .next { s with
        answers := rest, trace := s.trace ++ [.txReady false], echoTmp := [], seqL := .echoPump .ask }) ∧
    (s.seqL = .echoPump (.writing n k r i (.flushing .pop)) → s.tx.cnt = 0 →
      exec .echoPump s = .next { s with echoTmp := [], seqL := .echoPump .ask })

/-- R170, R153, R132: the flush of an inner `write`, wherever it asks `txReady`: a true answer leads to a pop of `tx`, a false
one ends the iteration. The byte popped is held, and the micro-step after hands exactly that byte to `txWrite` and leads to the
next question, so a ready backend is sent the queued bytes one by one. That `echo_tmp` is dropped when the iteration ends, and
kept through the flush, is the model's own choice (DESIGN CHOICE, log 4). -/
def Obligations.EchoPumpFlushForwards : Prop :=
  ∀ (n : Half) (k r i : Nat) (s : State), s.turn = .L →
    ((s.seqL = .echoPump (.writing n k r i (.flushing .ask)) ∨
        (s.seqI.active = false ∧ (s.seqL = .echoPump (.writing n k r i (.flushing .start)) ∨
          (s.seqL = .echoPump (.writing n k r i .pushing) ∧ r ≤ i)))) →
      ∃ (a : Bool) (t : State), exec .echoPump s = .next t ∧ t.trace = s.trace ++ [.txReady a] ∧
        t.seqL = .echoPump (if a then .writing n k r i (.flushing .pop) else .ask) ∧
        t.echoTmp = (if a then s.echoTmp else []) ∧
        (∀ a' rest, s.answers = a' :: rest → a = a' ∧ t.answers = rest ∧ t.draws = s.draws) ∧
        (s.answers = [] → a = Config.backendAnswer s.be.txReady s.draws ∧ t.answers = [] ∧ t.draws = s.draws + 1) ∧
        t = { s with
          trace := t.trace, answers := t.answers, draws := t.draws, echoTmp := t.echoTmp, seqL := t.seqL }) ∧
    (∀ b, s.seqL = .echoPump (.writing n k r i (.flushing .pop)) → s.tx.cnt ≠ 0 →
      s.tx.rd.toNat < s.tx.cap.toNat → s.storedByte s.tx.mem s.tx.rd.toNat = b →
      ∃ t, exec .echoPump s = .next t ∧ t.seqL = .echoPump (.writing n k r i (.flushing (.put b))) ∧
        t.tx.rd.toNat = (s.tx.rd.toNat + 1) % s.tx.cap.toNat ∧ t.tx.cnt = s.tx.cnt - 1 ∧
        t = { s with tx := { s.tx with rd := t.tx.rd, cnt := t.tx.cnt }, seqL := t.seqL }) ∧
    (∀ b, s.seqL = .echoPump (.writing n k r i (.flushing (.put b))) →
      exec .echoPump s = .next { s with
        trace := s.trace ++ [.txWrite b], seqL := .echoPump (.writing n k r i (.flushing .ask)) })

/-- R172, R174, R175: with port I in no activity and a backend that is never ready, an `echoPump` returns with `rx` empty; the
bytes of `rx` are appended to `tx`, in order, as far as `tx` has room, and the rest are lost with `ovf` unchanged. That
`echo_tmp` is as before is the model's own choice (DESIGN CHOICE, log 4): R45 and V3 leave its contents open between pumps. -/
def Obligations.EchoPumpMovesWhatFits : Prop :=
  ∀ (s : State) (rest : List Bool), s.Inv → s.readyAt .L → s.seqI.active = false →
    s.answers = List.replicate s.rx.cnt.toNat false ++ rest →
    ∃ n t, drive n .echoPump s = some t ∧
      t.rx.cnt = 0 ∧
      t.contents .tx = s.contents .tx ++ (s.contents .rx).take (s.tx.cap.toNat - s.tx.cnt.toNat) ∧
      t.respL = s.respL ++ [{ err := false, val := 0, payload := [] }] ∧
      sink t.trace = sink s.trace ∧
      t = { s with
        rx := { s.rx with rd := t.rx.rd, cnt := t.rx.cnt },
        tx := { s.tx with wr := t.tx.wr, cnt := t.tx.cnt },
        txmem := t.txmem, respL := t.respL, trace := t.trace, answers := t.answers }

/-! ## The whole machine -/

/-- R49, R250: after hardware reset `status` is NEVER and both sequencers are idle. That nothing is presented then, so that a
step does nothing but give a port the turn, is the model's own (log 7, log 10). -/
def Obligations.ResetIsNeverInitialised : Prop :=
  State.reset.status = .never ∧ State.reset.seqI = .idle ∧ State.reset.seqL = .idle ∧
  ∃ t, step State.reset = .next t ∧ t = { State.reset with turn := t.turn, draws := t.draws }

/-- The invariant of R35, R36 and R38 holds at hardware reset. That each FIFO is bound to its own region there, and that
`ECHO_MAX` is 64, are the model's own choices (log 2, log 11). -/
def Obligations.ResetMeetsTheInvariant : Prop := State.reset.Inv

/-- R35, R36, R127, R156: every step keeps the invariant, from every state that meets it, for every order of the ports'
turns and every answer of the backend. -/
def Obligations.StepKeepsTheInvariant : Prop :=
  ∀ s t : State, s.Inv → step s = .next t → t.Inv

/-- R15, R127, R200, R203: from every state that meets the invariant, a step goes on, or is one of the three undefined
conditions; it is never refused, and no access to storage or staging faults. -/
def Obligations.OnlyUndefinedConditionsStop : Prop :=
  ∀ s : State, s.Inv →
    (∃ t, step s = .next t) ∨ step s = .fault .useBeforeInit ∨ step s = .fault .reInit ∨
      step s = .fault .txConsumerOverlap

/-- R155, R265: while `status` is OK, no step loses, repeats or reorders a byte of the transmit side: what was sent, then
held, then queued only ever grows at its end, by at most the one byte that the step pushed. -/
def Obligations.TransmitSideKeepsEveryByte : Prop :=
  ∀ s t : State, s.Inv → s.status = .ok → step s = .next t →
    ∃ pushed : List Byte, pushed.length ≤ 1 ∧ t.txStream = s.txStream ++ pushed.map some

/-- R68 (b): between two pops of port L, `rx` can only grow: a micro-step of port I never lowers `rx`'s count. -/
def Obligations.PortINeverTakesFromRx : Prop :=
  ∀ (i : Instr) (s t : State), s.Inv → s.turn = .I → s.status = .ok → exec i s = .next t →
    ∃ arrived : List Byte, t.contents .rx = s.contents .rx ++ arrived.map some
end

