-- ==== Sys2Proof/Laws/Decode.lean ====
section
/-! SUPPORT. Laws of the word level's small operations: the fields of a header, the lanes of a payload word, and the count
of words at hand. -/

namespace Sys2Proof

/-! ## Headers -/

theorem opField_headerOf (op flags : BitVec 8) (imm : Half) : opField (headerOf op flags imm) = op := by
  ext i hi
  rw [← BitVec.getLsbD_eq_getElem, ← BitVec.getLsbD_eq_getElem, opField, BitVec.getLsbD_extractLsb', headerOf]
  erw [BitVec.getLsbD_append, BitVec.getLsbD_append]
  interval_cases i <;> simp

theorem immField_headerOf (op flags : BitVec 8) (imm : Half) : immField (headerOf op flags imm) = imm := by
  ext i hi
  rw [← BitVec.getLsbD_eq_getElem, ← BitVec.getLsbD_eq_getElem, immField, BitVec.getLsbD_extractLsb', headerOf]
  erw [BitVec.getLsbD_append, BitVec.getLsbD_append]
  simp [hi]

theorem flags_headerOf (op flags : BitVec 8) (imm : Half) : (headerOf op flags imm).extractLsb' 16 8 = flags := by
  ext i hi
  rw [← BitVec.getLsbD_eq_getElem, ← BitVec.getLsbD_eq_getElem, BitVec.getLsbD_extractLsb', headerOf]
  erw [BitVec.getLsbD_append, BitVec.getLsbD_append]
  simp [hi]

/-- A word is the header of its own fields. -/
theorem headerOf_fields (cw : Word) : headerOf (opField cw) (cw.extractLsb' 16 8) (immField cw) = cw := by
  ext i hi
  rw [← BitVec.getLsbD_eq_getElem, ← BitVec.getLsbD_eq_getElem, headerOf]
  erw [BitVec.getLsbD_append, BitVec.getLsbD_append]
  simp only [opField, immField, BitVec.getLsbD_extractLsb']
  by_cases h : i < 16
  · simp [h]
  · by_cases h2 : i - 16 < 8
    · have : 16 + (i - 16) = i := by omega
      simp [h, h2, this]
    · have : 24 + (i - 16 - 8) = i := by omega
      have h3: i - 16 - 8 < 8 := by omega
      simp [h, h2, this, h3]

theorem low24_headerOf (op : BitVec 8) : (headerOf op 0 0).extractLsb' 0 24 = 0 := by
  ext i hi
  rw [← BitVec.getLsbD_eq_getElem, ← BitVec.getLsbD_eq_getElem, BitVec.getLsbD_extractLsb', headerOf]
  erw [BitVec.getLsbD_append, BitVec.getLsbD_append]
  by_cases h : i < 16
  · simp [h, hi]
  · have : i - 16 < 8 := by omega
    simp [h, hi, this]

theorem mid16_headerOf (op : BitVec 8) (b : Byte) : (headerOf op 0 (b.zeroExtend 16)).extractLsb' 8 16 = 0 := by
  ext i hi
  rw [← BitVec.getLsbD_eq_getElem, ← BitVec.getLsbD_eq_getElem, BitVec.getLsbD_extractLsb', headerOf]
  erw [BitVec.getLsbD_append, BitVec.getLsbD_append]
  interval_cases i <;> simp

theorem low8_headerOf (op : BitVec 8) (b : Byte) : (headerOf op 0 (b.zeroExtend 16)).extractLsb' 0 8 = b := by
  ext i hi
  rw [← BitVec.getLsbD_eq_getElem, ← BitVec.getLsbD_eq_getElem, BitVec.getLsbD_extractLsb', headerOf]
  erw [BitVec.getLsbD_append, BitVec.getLsbD_append]
  interval_cases i <;> simp

/-- What decodes behind a must-be-zero field decodes because the field is 0. -/
theorem ifZero_ok {n : Nat} (field : BitVec n) (d : Except CmdError Instr) (i : Instr) (h : ifZero field d = .ok i) :
    field = 0 ∧ d = .ok i := by
  unfold ifZero at h
  split at h
  · exact ⟨by assumption, h⟩
  · simp at h

/-! ## Payload words -/

theorem lane_wordOfLanes (b0 b1 b2 b3 : Byte) :
    lane (wordOfLanes b0 b1 b2 b3) 0 = b0 ∧ lane (wordOfLanes b0 b1 b2 b3) 1 = b1 ∧
    lane (wordOfLanes b0 b1 b2 b3) 2 = b2 ∧ lane (wordOfLanes b0 b1 b2 b3) 3 = b3 := by
  refine ⟨?_, ?_, ?_, ?_⟩ <;>
  · ext i hi
    rw [← BitVec.getLsbD_eq_getElem, ← BitVec.getLsbD_eq_getElem, lane, BitVec.getLsbD_extractLsb', wordOfLanes]
    erw [BitVec.getLsbD_append, BitVec.getLsbD_append, BitVec.getLsbD_append]
    interval_cases i <;> simp

theorem wordOfLanes_lane (w : Word) : wordOfLanes (lane w 0) (lane w 1) (lane w 2) (lane w 3) = w := by
  ext i hi
  rw [← BitVec.getLsbD_eq_getElem, ← BitVec.getLsbD_eq_getElem, wordOfLanes]
  erw [BitVec.getLsbD_append, BitVec.getLsbD_append, BitVec.getLsbD_append]
  simp only [lane, BitVec.getLsbD_extractLsb']
  interval_cases i <;> simp

theorem unpackWords_length (ws : List Word) : (unpackWords ws).length = 4 * ws.length := by
  induction ws with
  | nil => rfl
  | cons w ws ih => simp [unpackWords, ih]; omega

/-- Packing and unpacking gives the bytes back, and then zeros. -/
theorem unpackWords_packBytes : ∀ bytes : List Byte, ∃ z, unpackWords (packBytes bytes) = bytes ++ z ∧ ∀ b ∈ z, b = 0
  | [] => ⟨[], rfl, by simp⟩
  | [a] => ⟨[0,0,0], by simp [packBytes, unpackWords, lane_wordOfLanes], by simp⟩
  | [a,b] => ⟨[0,0], by simp [packBytes, unpackWords, lane_wordOfLanes], by simp⟩
  | [a,b,c] => ⟨[0], by simp [packBytes, unpackWords, lane_wordOfLanes], by simp⟩
  | a :: b :: c :: d :: rest => by
    obtain ⟨z, h, hz⟩ := unpackWords_packBytes rest
    exact ⟨z, by simp [packBytes, unpackWords, lane_wordOfLanes, h], hz⟩

/-- Payload words whose unused lanes are 0 are the packing of their bytes. -/
theorem packBytes_unpackWords : ∀ (ws : List Word) (n : Nat), ws.length = (n + 3) / 4 →
    (∀ b ∈ (unpackWords ws).drop n, b = 0) → packBytes ((unpackWords ws).take n) = ws
  | [], n, hl, _ => by
    simp [unpackWords, packBytes]
  | w :: ws, n, hl, hz => by
    simp at hl
    rcases n with _ | _ | _ | _ | n
    · simp at hl
    · have : ws = [] := by simpa using hl
      subst this
      simp [unpackWords] at hz
      obtain ⟨h1, h2, h3⟩ := hz
      have := wordOfLanes_lane w
      rw [h1, h2, h3] at this
      simp [unpackWords, packBytes, this]
    · have : ws = [] := by simpa using hl
      subst this
      simp [unpackWords] at hz
      obtain ⟨h1, h2⟩ := hz
      have := wordOfLanes_lane w
      rw [h1, h2] at this
      simp [unpackWords, packBytes, this]
    · have : ws = [] := by simpa using hl
      subst this
      simp [unpackWords] at hz
      have := wordOfLanes_lane w
      rw [hz] at this
      simp [unpackWords, packBytes, this]
    · have ih := packBytes_unpackWords ws n (by omega) (by simpa [unpackWords] using hz)
      simp [unpackWords, packBytes, ih, wordOfLanes_lane]

/-! ## Words at hand -/

theorem hasAtLeast_iff {α : Type} (n : Nat) (l : List α) : hasAtLeast n l = true ↔ n ≤ l.length := by
  induction n generalizing l with
  | zero => simp [hasAtLeast]
  | succ n ih =>
    cases l with
    | nil => simp [hasAtLeast]
    | cons a l => simp [hasAtLeast, ih]

/-! ## The errors of decoding -/

theorem ifZero_error {n : Nat} (field : BitVec n) (d : Except CmdError Instr) (e : CmdError)
    (h : ifZero field d = .error e) : e = .reservedNonzero ∨ d = .error e := by
  unfold ifZero at h
  split at h
  · exact .inr h
  · exact .inl (by cases h; rfl)

/-- Decoding gives two errors only: the port is not looked at here (R104, R105). -/
theorem decode_bad (ws rest : List Word) (e : CmdError) (h : decode ws = .bad e rest) :
    e = .illegalOpcode ∨ e = .reservedNonzero := by
  have hz : ∀ {n : Nat} {field : BitVec n} {d : Except CmdError Instr}, ifZero field d = .error e →
      (d = .error e → e = .reservedNonzero) → e = .reservedNonzero := fun hf hd =>
    (ifZero_error _ _ _ hf).elim id hd
  unfold decode at h
  split at h
  · simp at h
  split at h
  · split at h
    · simp at h
    · rename_i hd
      simp only [Fetched.bad.injEq] at h
      obtain ⟨rfl, -⟩ := h
      unfold decodeHeader at hd
      split at hd
      all_goals first
        | exact .inr (hz hd fun hd => hz hd (by simp))
        | exact .inr (hz hd (by simp))
        | skip
      · refine .inr (hz hd fun hd => ?_)
        unfold decodeWrite at hd
        simp only at hd
        split at hd
        · simp at hd
        · cases hd; rfl
      · cases hd; exact .inl rfl
  · simp at h

end Sys2Proof
end

