-- ==== Sys2Proof/Laws/State.lean ====
section
/-! SUPPORT. One lemma per field per update of `State`, so that no proof unfolds a record update: an update leaves
every field alone but those it names, and what it writes is what is read back. -/

namespace Sys2Proof.Machine

/-! ## `setSeq` -/

@[simp] theorem State.setSeq_rx (s : State) (p : Port) (q : Seq) : (s.setSeq p q).rx = s.rx := by cases p <;> rfl
@[simp] theorem State.setSeq_tx (s : State) (p : Port) (q : Seq) : (s.setSeq p q).tx = s.tx := by cases p <;> rfl
@[simp] theorem State.setSeq_rxmem (s : State) (p : Port) (q : Seq) : (s.setSeq p q).rxmem = s.rxmem := by cases p <;> rfl
@[simp] theorem State.setSeq_txmem (s : State) (p : Port) (q : Seq) : (s.setSeq p q).txmem = s.txmem := by cases p <;> rfl
@[simp] theorem State.setSeq_ovf (s : State) (p : Port) (q : Seq) : (s.setSeq p q).ovf = s.ovf := by cases p <;> rfl
@[simp] theorem State.setSeq_echoCfg (s : State) (p : Port) (q : Seq) : (s.setSeq p q).echoCfg = s.echoCfg := by cases p <;> rfl
@[simp] theorem State.setSeq_be (s : State) (p : Port) (q : Seq) : (s.setSeq p q).be = s.be := by cases p <;> rfl
@[simp] theorem State.setSeq_status (s : State) (p : Port) (q : Seq) : (s.setSeq p q).status = s.status := by cases p <;> rfl
@[simp] theorem State.setSeq_echoTmp (s : State) (p : Port) (q : Seq) : (s.setSeq p q).echoTmp = s.echoTmp := by cases p <;> rfl
@[simp] theorem State.setSeq_cmdI (s : State) (p : Port) (q : Seq) : (s.setSeq p q).cmdI = s.cmdI := by cases p <;> rfl
@[simp] theorem State.setSeq_cmdL (s : State) (p : Port) (q : Seq) : (s.setSeq p q).cmdL = s.cmdL := by cases p <;> rfl
@[simp] theorem State.setSeq_respI (s : State) (p : Port) (q : Seq) : (s.setSeq p q).respI = s.respI := by cases p <;> rfl
@[simp] theorem State.setSeq_respL (s : State) (p : Port) (q : Seq) : (s.setSeq p q).respL = s.respL := by cases p <;> rfl
@[simp] theorem State.setSeq_trace (s : State) (p : Port) (q : Seq) : (s.setSeq p q).trace = s.trace := by cases p <;> rfl
@[simp] theorem State.setSeq_turn (s : State) (p : Port) (q : Seq) : (s.setSeq p q).turn = s.turn := by cases p <;> rfl
@[simp] theorem State.setSeq_order (s : State) (p : Port) (q : Seq) : (s.setSeq p q).order = s.order := by cases p <;> rfl
@[simp] theorem State.setSeq_answers (s : State) (p : Port) (q : Seq) : (s.setSeq p q).answers = s.answers := by cases p <;> rfl
@[simp] theorem State.setSeq_draws (s : State) (p : Port) (q : Seq) : (s.setSeq p q).draws = s.draws := by cases p <;> rfl
@[simp] theorem State.setSeq_echoMax (s : State) (p : Port) (q : Seq) : (s.setSeq p q).echoMax = s.echoMax := by cases p <;> rfl

/-! ## `setCommands` -/

@[simp] theorem State.setCommands_rx (s : State) (p : Port) (ws : List Word) : (s.setCommands p ws).rx = s.rx := by cases p <;> rfl
@[simp] theorem State.setCommands_tx (s : State) (p : Port) (ws : List Word) : (s.setCommands p ws).tx = s.tx := by cases p <;> rfl
@[simp] theorem State.setCommands_rxmem (s : State) (p : Port) (ws : List Word) : (s.setCommands p ws).rxmem = s.rxmem := by cases p <;> rfl
@[simp] theorem State.setCommands_txmem (s : State) (p : Port) (ws : List Word) : (s.setCommands p ws).txmem = s.txmem := by cases p <;> rfl
@[simp] theorem State.setCommands_ovf (s : State) (p : Port) (ws : List Word) : (s.setCommands p ws).ovf = s.ovf := by cases p <;> rfl
@[simp] theorem State.setCommands_echoCfg (s : State) (p : Port) (ws : List Word) : (s.setCommands p ws).echoCfg = s.echoCfg := by cases p <;> rfl
@[simp] theorem State.setCommands_be (s : State) (p : Port) (ws : List Word) : (s.setCommands p ws).be = s.be := by cases p <;> rfl
@[simp] theorem State.setCommands_status (s : State) (p : Port) (ws : List Word) : (s.setCommands p ws).status = s.status := by cases p <;> rfl
@[simp] theorem State.setCommands_echoTmp (s : State) (p : Port) (ws : List Word) : (s.setCommands p ws).echoTmp = s.echoTmp := by cases p <;> rfl
@[simp] theorem State.setCommands_seqI (s : State) (p : Port) (ws : List Word) : (s.setCommands p ws).seqI = s.seqI := by cases p <;> rfl
@[simp] theorem State.setCommands_seqL (s : State) (p : Port) (ws : List Word) : (s.setCommands p ws).seqL = s.seqL := by cases p <;> rfl
@[simp] theorem State.setCommands_respI (s : State) (p : Port) (ws : List Word) : (s.setCommands p ws).respI = s.respI := by cases p <;> rfl
@[simp] theorem State.setCommands_respL (s : State) (p : Port) (ws : List Word) : (s.setCommands p ws).respL = s.respL := by cases p <;> rfl
@[simp] theorem State.setCommands_trace (s : State) (p : Port) (ws : List Word) : (s.setCommands p ws).trace = s.trace := by cases p <;> rfl
@[simp] theorem State.setCommands_turn (s : State) (p : Port) (ws : List Word) : (s.setCommands p ws).turn = s.turn := by cases p <;> rfl
@[simp] theorem State.setCommands_order (s : State) (p : Port) (ws : List Word) : (s.setCommands p ws).order = s.order := by cases p <;> rfl
@[simp] theorem State.setCommands_answers (s : State) (p : Port) (ws : List Word) : (s.setCommands p ws).answers = s.answers := by cases p <;> rfl
@[simp] theorem State.setCommands_draws (s : State) (p : Port) (ws : List Word) : (s.setCommands p ws).draws = s.draws := by cases p <;> rfl
@[simp] theorem State.setCommands_echoMax (s : State) (p : Port) (ws : List Word) : (s.setCommands p ws).echoMax = s.echoMax := by cases p <;> rfl

/-! ## `respond` -/

@[simp] theorem State.respond_rx (s : State) (p : Port) (r : Response) : (s.respond p r).rx = s.rx := by cases p <;> rfl
@[simp] theorem State.respond_tx (s : State) (p : Port) (r : Response) : (s.respond p r).tx = s.tx := by cases p <;> rfl
@[simp] theorem State.respond_rxmem (s : State) (p : Port) (r : Response) : (s.respond p r).rxmem = s.rxmem := by cases p <;> rfl
@[simp] theorem State.respond_txmem (s : State) (p : Port) (r : Response) : (s.respond p r).txmem = s.txmem := by cases p <;> rfl
@[simp] theorem State.respond_ovf (s : State) (p : Port) (r : Response) : (s.respond p r).ovf = s.ovf := by cases p <;> rfl
@[simp] theorem State.respond_echoCfg (s : State) (p : Port) (r : Response) : (s.respond p r).echoCfg = s.echoCfg := by cases p <;> rfl
@[simp] theorem State.respond_be (s : State) (p : Port) (r : Response) : (s.respond p r).be = s.be := by cases p <;> rfl
@[simp] theorem State.respond_status (s : State) (p : Port) (r : Response) : (s.respond p r).status = s.status := by cases p <;> rfl
@[simp] theorem State.respond_echoTmp (s : State) (p : Port) (r : Response) : (s.respond p r).echoTmp = s.echoTmp := by cases p <;> rfl
@[simp] theorem State.respond_seqI (s : State) (p : Port) (r : Response) : (s.respond p r).seqI = s.seqI := by cases p <;> rfl
@[simp] theorem State.respond_seqL (s : State) (p : Port) (r : Response) : (s.respond p r).seqL = s.seqL := by cases p <;> rfl
@[simp] theorem State.respond_cmdI (s : State) (p : Port) (r : Response) : (s.respond p r).cmdI = s.cmdI := by cases p <;> rfl
@[simp] theorem State.respond_cmdL (s : State) (p : Port) (r : Response) : (s.respond p r).cmdL = s.cmdL := by cases p <;> rfl
@[simp] theorem State.respond_trace (s : State) (p : Port) (r : Response) : (s.respond p r).trace = s.trace := by cases p <;> rfl
@[simp] theorem State.respond_turn (s : State) (p : Port) (r : Response) : (s.respond p r).turn = s.turn := by cases p <;> rfl
@[simp] theorem State.respond_order (s : State) (p : Port) (r : Response) : (s.respond p r).order = s.order := by cases p <;> rfl
@[simp] theorem State.respond_answers (s : State) (p : Port) (r : Response) : (s.respond p r).answers = s.answers := by cases p <;> rfl
@[simp] theorem State.respond_draws (s : State) (p : Port) (r : Response) : (s.respond p r).draws = s.draws := by cases p <;> rfl
@[simp] theorem State.respond_echoMax (s : State) (p : Port) (r : Response) : (s.respond p r).echoMax = s.echoMax := by cases p <;> rfl

/-! ## `setRegion` -/

@[simp] theorem State.setRegion_rx (s : State) (r : Region) (m : Memory) : (s.setRegion r m).rx = s.rx := by cases r <;> rfl
@[simp] theorem State.setRegion_tx (s : State) (r : Region) (m : Memory) : (s.setRegion r m).tx = s.tx := by cases r <;> rfl
@[simp] theorem State.setRegion_ovf (s : State) (r : Region) (m : Memory) : (s.setRegion r m).ovf = s.ovf := by cases r <;> rfl
@[simp] theorem State.setRegion_echoCfg (s : State) (r : Region) (m : Memory) : (s.setRegion r m).echoCfg = s.echoCfg := by cases r <;> rfl
@[simp] theorem State.setRegion_be (s : State) (r : Region) (m : Memory) : (s.setRegion r m).be = s.be := by cases r <;> rfl
@[simp] theorem State.setRegion_status (s : State) (r : Region) (m : Memory) : (s.setRegion r m).status = s.status := by cases r <;> rfl
@[simp] theorem State.setRegion_echoTmp (s : State) (r : Region) (m : Memory) : (s.setRegion r m).echoTmp = s.echoTmp := by cases r <;> rfl
@[simp] theorem State.setRegion_seqI (s : State) (r : Region) (m : Memory) : (s.setRegion r m).seqI = s.seqI := by cases r <;> rfl
@[simp] theorem State.setRegion_seqL (s : State) (r : Region) (m : Memory) : (s.setRegion r m).seqL = s.seqL := by cases r <;> rfl
@[simp] theorem State.setRegion_cmdI (s : State) (r : Region) (m : Memory) : (s.setRegion r m).cmdI = s.cmdI := by cases r <;> rfl
@[simp] theorem State.setRegion_cmdL (s : State) (r : Region) (m : Memory) : (s.setRegion r m).cmdL = s.cmdL := by cases r <;> rfl
@[simp] theorem State.setRegion_respI (s : State) (r : Region) (m : Memory) : (s.setRegion r m).respI = s.respI := by cases r <;> rfl
@[simp] theorem State.setRegion_respL (s : State) (r : Region) (m : Memory) : (s.setRegion r m).respL = s.respL := by cases r <;> rfl
@[simp] theorem State.setRegion_trace (s : State) (r : Region) (m : Memory) : (s.setRegion r m).trace = s.trace := by cases r <;> rfl
@[simp] theorem State.setRegion_turn (s : State) (r : Region) (m : Memory) : (s.setRegion r m).turn = s.turn := by cases r <;> rfl
@[simp] theorem State.setRegion_order (s : State) (r : Region) (m : Memory) : (s.setRegion r m).order = s.order := by cases r <;> rfl
@[simp] theorem State.setRegion_answers (s : State) (r : Region) (m : Memory) : (s.setRegion r m).answers = s.answers := by cases r <;> rfl
@[simp] theorem State.setRegion_draws (s : State) (r : Region) (m : Memory) : (s.setRegion r m).draws = s.draws := by cases r <;> rfl
@[simp] theorem State.setRegion_echoMax (s : State) (r : Region) (m : Memory) : (s.setRegion r m).echoMax = s.echoMax := by cases r <;> rfl

/-! ## `setFifo` -/

@[simp] theorem State.setFifo_rxmem (s : State) (f : FifoId) (q : Fifo) : (s.setFifo f q).rxmem = s.rxmem := by cases f <;> rfl
@[simp] theorem State.setFifo_txmem (s : State) (f : FifoId) (q : Fifo) : (s.setFifo f q).txmem = s.txmem := by cases f <;> rfl
@[simp] theorem State.setFifo_ovf (s : State) (f : FifoId) (q : Fifo) : (s.setFifo f q).ovf = s.ovf := by cases f <;> rfl
@[simp] theorem State.setFifo_echoCfg (s : State) (f : FifoId) (q : Fifo) : (s.setFifo f q).echoCfg = s.echoCfg := by cases f <;> rfl
@[simp] theorem State.setFifo_be (s : State) (f : FifoId) (q : Fifo) : (s.setFifo f q).be = s.be := by cases f <;> rfl
@[simp] theorem State.setFifo_status (s : State) (f : FifoId) (q : Fifo) : (s.setFifo f q).status = s.status := by cases f <;> rfl
@[simp] theorem State.setFifo_echoTmp (s : State) (f : FifoId) (q : Fifo) : (s.setFifo f q).echoTmp = s.echoTmp := by cases f <;> rfl
@[simp] theorem State.setFifo_seqI (s : State) (f : FifoId) (q : Fifo) : (s.setFifo f q).seqI = s.seqI := by cases f <;> rfl
@[simp] theorem State.setFifo_seqL (s : State) (f : FifoId) (q : Fifo) : (s.setFifo f q).seqL = s.seqL := by cases f <;> rfl
@[simp] theorem State.setFifo_cmdI (s : State) (f : FifoId) (q : Fifo) : (s.setFifo f q).cmdI = s.cmdI := by cases f <;> rfl
@[simp] theorem State.setFifo_cmdL (s : State) (f : FifoId) (q : Fifo) : (s.setFifo f q).cmdL = s.cmdL := by cases f <;> rfl
@[simp] theorem State.setFifo_respI (s : State) (f : FifoId) (q : Fifo) : (s.setFifo f q).respI = s.respI := by cases f <;> rfl
@[simp] theorem State.setFifo_respL (s : State) (f : FifoId) (q : Fifo) : (s.setFifo f q).respL = s.respL := by cases f <;> rfl
@[simp] theorem State.setFifo_trace (s : State) (f : FifoId) (q : Fifo) : (s.setFifo f q).trace = s.trace := by cases f <;> rfl
@[simp] theorem State.setFifo_turn (s : State) (f : FifoId) (q : Fifo) : (s.setFifo f q).turn = s.turn := by cases f <;> rfl
@[simp] theorem State.setFifo_order (s : State) (f : FifoId) (q : Fifo) : (s.setFifo f q).order = s.order := by cases f <;> rfl
@[simp] theorem State.setFifo_answers (s : State) (f : FifoId) (q : Fifo) : (s.setFifo f q).answers = s.answers := by cases f <;> rfl
@[simp] theorem State.setFifo_draws (s : State) (f : FifoId) (q : Fifo) : (s.setFifo f q).draws = s.draws := by cases f <;> rfl
@[simp] theorem State.setFifo_echoMax (s : State) (f : FifoId) (q : Fifo) : (s.setFifo f q).echoMax = s.echoMax := by cases f <;> rfl

/-! ## `record` -/

@[simp] theorem State.record_rx (s : State) (e : Event) : (s.record e).rx = s.rx := rfl
@[simp] theorem State.record_tx (s : State) (e : Event) : (s.record e).tx = s.tx := rfl
@[simp] theorem State.record_rxmem (s : State) (e : Event) : (s.record e).rxmem = s.rxmem := rfl
@[simp] theorem State.record_txmem (s : State) (e : Event) : (s.record e).txmem = s.txmem := rfl
@[simp] theorem State.record_ovf (s : State) (e : Event) : (s.record e).ovf = s.ovf := rfl
@[simp] theorem State.record_echoCfg (s : State) (e : Event) : (s.record e).echoCfg = s.echoCfg := rfl
@[simp] theorem State.record_be (s : State) (e : Event) : (s.record e).be = s.be := rfl
@[simp] theorem State.record_status (s : State) (e : Event) : (s.record e).status = s.status := rfl
@[simp] theorem State.record_echoTmp (s : State) (e : Event) : (s.record e).echoTmp = s.echoTmp := rfl
@[simp] theorem State.record_seqI (s : State) (e : Event) : (s.record e).seqI = s.seqI := rfl
@[simp] theorem State.record_seqL (s : State) (e : Event) : (s.record e).seqL = s.seqL := rfl
@[simp] theorem State.record_cmdI (s : State) (e : Event) : (s.record e).cmdI = s.cmdI := rfl
@[simp] theorem State.record_cmdL (s : State) (e : Event) : (s.record e).cmdL = s.cmdL := rfl
@[simp] theorem State.record_respI (s : State) (e : Event) : (s.record e).respI = s.respI := rfl
@[simp] theorem State.record_respL (s : State) (e : Event) : (s.record e).respL = s.respL := rfl
@[simp] theorem State.record_turn (s : State) (e : Event) : (s.record e).turn = s.turn := rfl
@[simp] theorem State.record_order (s : State) (e : Event) : (s.record e).order = s.order := rfl
@[simp] theorem State.record_answers (s : State) (e : Event) : (s.record e).answers = s.answers := rfl
@[simp] theorem State.record_draws (s : State) (e : Event) : (s.record e).draws = s.draws := rfl
@[simp] theorem State.record_echoMax (s : State) (e : Event) : (s.record e).echoMax = s.echoMax := rfl

/-! ## `dropStaging` -/

@[simp] theorem State.dropStaging_rx (s : State) : (s.dropStaging).rx = s.rx := rfl
@[simp] theorem State.dropStaging_tx (s : State) : (s.dropStaging).tx = s.tx := rfl
@[simp] theorem State.dropStaging_rxmem (s : State) : (s.dropStaging).rxmem = s.rxmem := rfl
@[simp] theorem State.dropStaging_txmem (s : State) : (s.dropStaging).txmem = s.txmem := rfl
@[simp] theorem State.dropStaging_ovf (s : State) : (s.dropStaging).ovf = s.ovf := rfl
@[simp] theorem State.dropStaging_echoCfg (s : State) : (s.dropStaging).echoCfg = s.echoCfg := rfl
@[simp] theorem State.dropStaging_be (s : State) : (s.dropStaging).be = s.be := rfl
@[simp] theorem State.dropStaging_status (s : State) : (s.dropStaging).status = s.status := rfl
@[simp] theorem State.dropStaging_seqI (s : State) : (s.dropStaging).seqI = s.seqI := rfl
@[simp] theorem State.dropStaging_seqL (s : State) : (s.dropStaging).seqL = s.seqL := rfl
@[simp] theorem State.dropStaging_cmdI (s : State) : (s.dropStaging).cmdI = s.cmdI := rfl
@[simp] theorem State.dropStaging_cmdL (s : State) : (s.dropStaging).cmdL = s.cmdL := rfl
@[simp] theorem State.dropStaging_respI (s : State) : (s.dropStaging).respI = s.respI := rfl
@[simp] theorem State.dropStaging_respL (s : State) : (s.dropStaging).respL = s.respL := rfl
@[simp] theorem State.dropStaging_trace (s : State) : (s.dropStaging).trace = s.trace := rfl
@[simp] theorem State.dropStaging_turn (s : State) : (s.dropStaging).turn = s.turn := rfl
@[simp] theorem State.dropStaging_order (s : State) : (s.dropStaging).order = s.order := rfl
@[simp] theorem State.dropStaging_answers (s : State) : (s.dropStaging).answers = s.answers := rfl
@[simp] theorem State.dropStaging_draws (s : State) : (s.dropStaging).draws = s.draws := rfl
@[simp] theorem State.dropStaging_echoMax (s : State) : (s.dropStaging).echoMax = s.echoMax := rfl

/-! ## What an update writes -/

@[simp] theorem State.setSeq_I_seqI (s : State) (q : Seq) : (s.setSeq .I q).seqI = q := rfl
@[simp] theorem State.setSeq_L_seqL (s : State) (q : Seq) : (s.setSeq .L q).seqL = q := rfl
@[simp] theorem State.setSeq_I_seqL (s : State) (q : Seq) : (s.setSeq .I q).seqL = s.seqL := rfl
@[simp] theorem State.setSeq_L_seqI (s : State) (q : Seq) : (s.setSeq .L q).seqI = s.seqI := rfl
@[simp] theorem State.setCommands_I_cmdI (s : State) (ws : List Word) : (s.setCommands .I ws).cmdI = ws := rfl
@[simp] theorem State.setCommands_L_cmdL (s : State) (ws : List Word) : (s.setCommands .L ws).cmdL = ws := rfl
@[simp] theorem State.setCommands_I_cmdL (s : State) (ws : List Word) : (s.setCommands .I ws).cmdL = s.cmdL := rfl
@[simp] theorem State.setCommands_L_cmdI (s : State) (ws : List Word) : (s.setCommands .L ws).cmdI = s.cmdI := rfl
@[simp] theorem State.respond_I_respI (s : State) (r : Response) : (s.respond .I r).respI = s.respI ++ [r] := rfl
@[simp] theorem State.respond_L_respL (s : State) (r : Response) : (s.respond .L r).respL = s.respL ++ [r] := rfl
@[simp] theorem State.respond_I_respL (s : State) (r : Response) : (s.respond .I r).respL = s.respL := rfl
@[simp] theorem State.respond_L_respI (s : State) (r : Response) : (s.respond .L r).respI = s.respI := rfl
@[simp] theorem State.setRegion_rxmem_rxmem (s : State) (m : Memory) : (s.setRegion .rxmem m).rxmem = m := rfl
@[simp] theorem State.setRegion_txmem_txmem (s : State) (m : Memory) : (s.setRegion .txmem m).txmem = m := rfl
@[simp] theorem State.setRegion_rxmem_txmem (s : State) (m : Memory) : (s.setRegion .rxmem m).txmem = s.txmem := rfl
@[simp] theorem State.setRegion_txmem_rxmem (s : State) (m : Memory) : (s.setRegion .txmem m).rxmem = s.rxmem := rfl
@[simp] theorem State.setFifo_rx_rx (s : State) (q : Fifo) : (s.setFifo .rx q).rx = q := rfl
@[simp] theorem State.setFifo_tx_tx (s : State) (q : Fifo) : (s.setFifo .tx q).tx = q := rfl
@[simp] theorem State.setFifo_rx_tx (s : State) (q : Fifo) : (s.setFifo .rx q).tx = s.tx := rfl
@[simp] theorem State.setFifo_tx_rx (s : State) (q : Fifo) : (s.setFifo .tx q).rx = s.rx := rfl
@[simp] theorem State.record_trace (s : State) (e : Event) : (s.record e).trace = s.trace ++ [e] := rfl
@[simp] theorem State.dropStaging_echoTmp (s : State) : s.dropStaging.echoTmp = [] := rfl

/-! ## Views through a port, a region or a FIFO -/

@[simp] theorem State.seqOf_I (s : State) : s.seqOf .I = s.seqI := rfl
@[simp] theorem State.seqOf_L (s : State) : s.seqOf .L = s.seqL := rfl
@[simp] theorem State.commands_I (s : State) : s.commands .I = s.cmdI := rfl
@[simp] theorem State.commands_L (s : State) : s.commands .L = s.cmdL := rfl
@[simp] theorem State.responses_I (s : State) : s.responses .I = s.respI := rfl
@[simp] theorem State.responses_L (s : State) : s.responses .L = s.respL := rfl
@[simp] theorem State.region_rxmem (s : State) : s.region .rxmem = s.rxmem := rfl
@[simp] theorem State.region_txmem (s : State) : s.region .txmem = s.txmem := rfl
@[simp] theorem State.fifo_rx (s : State) : s.fifo .rx = s.rx := rfl
@[simp] theorem State.fifo_tx (s : State) : s.fifo .tx = s.tx := rfl

@[simp] theorem State.seqOf_setSeq_same (s : State) (p : Port) (q : Seq) : (s.setSeq p q).seqOf p = q := by
  cases p <;> rfl

@[simp] theorem State.seqOf_setSeq_other (s : State) (p : Port) (q : Seq) :
    (s.setSeq p q).seqOf (otherPort p) = s.seqOf (otherPort p) := by
  cases p <;> rfl

@[simp] theorem State.seqOf_respond (s : State) (p p' : Port) (r : Response) :
    (s.respond p r).seqOf p' = s.seqOf p' := by
  cases p <;> cases p' <;> rfl

@[simp] theorem State.current_setCurrent (s : State) (q : Seq) : (s.setCurrent q).current = q := by
  simp [State.current, State.setCurrent]

@[simp] theorem State.current_finish (s : State) (r : Response) : (s.finish r).current = .idle := by
  simp [State.finish]

@[simp] theorem State.fifo_setFifo_same (s : State) (f : FifoId) (q : Fifo) : (s.setFifo f q).fifo f = q := by
  cases f <;> rfl

@[simp] theorem State.region_setRegion_same (s : State) (r : Region) (m : Memory) : (s.setRegion r m).region r = m := by
  cases r <;> rfl

@[simp] theorem State.region_setRegion_ne (s : State) (r r' : Region) (m : Memory) (h : r' ≠ r) :
    (s.setRegion r m).region r' = s.region r' := by
  cases r <;> cases r' <;> first | rfl | exact absurd rfl h

@[simp] theorem State.fifo_setRegion (s : State) (r : Region) (m : Memory) (f : FifoId) :
    (s.setRegion r m).fifo f = s.fifo f := by
  cases f <;> simp

@[simp] theorem State.region_setFifo (s : State) (f : FifoId) (q : Fifo) (r : Region) :
    (s.setFifo f q).region r = s.region r := by
  cases r <;> simp

/-! ## `setCurrent` and `finish`, the ends of every micro-step -/

@[simp] theorem State.setCurrent_rx (s : State) (q : Seq) : (s.setCurrent q).rx = s.rx := by simp [State.setCurrent]
@[simp] theorem State.setCurrent_tx (s : State) (q : Seq) : (s.setCurrent q).tx = s.tx := by simp [State.setCurrent]
@[simp] theorem State.setCurrent_rxmem (s : State) (q : Seq) : (s.setCurrent q).rxmem = s.rxmem := by simp [State.setCurrent]
@[simp] theorem State.setCurrent_txmem (s : State) (q : Seq) : (s.setCurrent q).txmem = s.txmem := by simp [State.setCurrent]
@[simp] theorem State.setCurrent_ovf (s : State) (q : Seq) : (s.setCurrent q).ovf = s.ovf := by simp [State.setCurrent]
@[simp] theorem State.setCurrent_echoCfg (s : State) (q : Seq) : (s.setCurrent q).echoCfg = s.echoCfg := by simp [State.setCurrent]
@[simp] theorem State.setCurrent_be (s : State) (q : Seq) : (s.setCurrent q).be = s.be := by simp [State.setCurrent]
@[simp] theorem State.setCurrent_status (s : State) (q : Seq) : (s.setCurrent q).status = s.status := by simp [State.setCurrent]
@[simp] theorem State.setCurrent_echoTmp (s : State) (q : Seq) : (s.setCurrent q).echoTmp = s.echoTmp := by simp [State.setCurrent]
@[simp] theorem State.setCurrent_cmdI (s : State) (q : Seq) : (s.setCurrent q).cmdI = s.cmdI := by simp [State.setCurrent]
@[simp] theorem State.setCurrent_cmdL (s : State) (q : Seq) : (s.setCurrent q).cmdL = s.cmdL := by simp [State.setCurrent]
@[simp] theorem State.setCurrent_respI (s : State) (q : Seq) : (s.setCurrent q).respI = s.respI := by simp [State.setCurrent]
@[simp] theorem State.setCurrent_respL (s : State) (q : Seq) : (s.setCurrent q).respL = s.respL := by simp [State.setCurrent]
@[simp] theorem State.setCurrent_trace (s : State) (q : Seq) : (s.setCurrent q).trace = s.trace := by simp [State.setCurrent]
@[simp] theorem State.setCurrent_turn (s : State) (q : Seq) : (s.setCurrent q).turn = s.turn := by simp [State.setCurrent]
@[simp] theorem State.setCurrent_order (s : State) (q : Seq) : (s.setCurrent q).order = s.order := by simp [State.setCurrent]
@[simp] theorem State.setCurrent_answers (s : State) (q : Seq) : (s.setCurrent q).answers = s.answers := by simp [State.setCurrent]
@[simp] theorem State.setCurrent_draws (s : State) (q : Seq) : (s.setCurrent q).draws = s.draws := by simp [State.setCurrent]
@[simp] theorem State.setCurrent_echoMax (s : State) (q : Seq) : (s.setCurrent q).echoMax = s.echoMax := by simp [State.setCurrent]

@[simp] theorem State.finish_rx (s : State) (r : Response) : (s.finish r).rx = s.rx := by simp [State.finish]
@[simp] theorem State.finish_tx (s : State) (r : Response) : (s.finish r).tx = s.tx := by simp [State.finish]
@[simp] theorem State.finish_rxmem (s : State) (r : Response) : (s.finish r).rxmem = s.rxmem := by simp [State.finish]
@[simp] theorem State.finish_txmem (s : State) (r : Response) : (s.finish r).txmem = s.txmem := by simp [State.finish]
@[simp] theorem State.finish_ovf (s : State) (r : Response) : (s.finish r).ovf = s.ovf := by simp [State.finish]
@[simp] theorem State.finish_echoCfg (s : State) (r : Response) : (s.finish r).echoCfg = s.echoCfg := by simp [State.finish]
@[simp] theorem State.finish_be (s : State) (r : Response) : (s.finish r).be = s.be := by simp [State.finish]
@[simp] theorem State.finish_status (s : State) (r : Response) : (s.finish r).status = s.status := by simp [State.finish]
@[simp] theorem State.finish_echoTmp (s : State) (r : Response) : (s.finish r).echoTmp = s.echoTmp := by simp [State.finish]
@[simp] theorem State.finish_cmdI (s : State) (r : Response) : (s.finish r).cmdI = s.cmdI := by simp [State.finish]
@[simp] theorem State.finish_cmdL (s : State) (r : Response) : (s.finish r).cmdL = s.cmdL := by simp [State.finish]
@[simp] theorem State.finish_trace (s : State) (r : Response) : (s.finish r).trace = s.trace := by simp [State.finish]
@[simp] theorem State.finish_turn (s : State) (r : Response) : (s.finish r).turn = s.turn := by simp [State.finish]
@[simp] theorem State.finish_order (s : State) (r : Response) : (s.finish r).order = s.order := by simp [State.finish]
@[simp] theorem State.finish_answers (s : State) (r : Response) : (s.finish r).answers = s.answers := by simp [State.finish]
@[simp] theorem State.finish_draws (s : State) (r : Response) : (s.finish r).draws = s.draws := by simp [State.finish]
@[simp] theorem State.finish_echoMax (s : State) (r : Response) : (s.finish r).echoMax = s.echoMax := by simp [State.finish]

end Sys2Proof.Machine
end

