-- ==== Sys2Proof/Laws/Memory.lean ====
section
/-! SUPPORT. The laws of a memory: read after write, and that every operation keeps the canonical form. -/

namespace Sys2Proof.Machine

theorem Memory.read_write_same (m : Memory) (a : Nat) (b : Byte) : (m.write a b).read a = some b := by
  induction m with
  | nil => simp [Memory.write, Memory.read]
  | cons c m ih =>
    obtain ⟨k, v⟩ := c
    simp only [Memory.write]
    split
    · simp [Memory.read]
    · split
      · simp [Memory.read]
      · rename_i h1 h2
        simp [Memory.read, ih, Ne.symm h2]

theorem Memory.read_write_ne (m : Memory) (a a' : Nat) (b : Byte) (h : a' ≠ a) :
    (m.write a b).read a' = m.read a' := by
  induction m with
  | nil => simp [Memory.write, Memory.read, Ne.symm h]
  | cons c m ih =>
    obtain ⟨k, v⟩ := c
    simp only [Memory.write]
    split
    · simp [Memory.read, Ne.symm h]
    · split
      · rename_i h1 h2
        subst h2
        simp [Memory.read, Ne.symm h]
      · simp [Memory.read, ih]

theorem Memory.read_write (m : Memory) (a a' : Nat) (b : Byte) :
    (m.write a b).read a' = if a' = a then some b else m.read a' := by
  split
  · rename_i h; rw [h, Memory.read_write_same]
  · rename_i h; exact Memory.read_write_ne m a a' b h

theorem Memory.mem_write_keys (m : Memory) (a : Nat) (b : Byte) (k : Nat) :
    k ∈ (m.write a b).map Prod.fst ↔ k = a ∨ k ∈ m.map Prod.fst := by
  induction m with
  | nil => simp [Memory.write]
  | cons c m ih =>
    obtain ⟨k', v⟩ := c
    simp only [Memory.write]
    split
    · simp
    · split
      · rename_i h1 h2; simp [h2]
      · simp only [List.map_cons, List.mem_cons, ih]
        tauto

/-- A write keeps the canonical form. -/
theorem Memory.write_wf (m : Memory) (a : Nat) (b : Byte) (h : m.wf) : (m.write a b).wf := by
  induction m with
  | nil => simp [Memory.write, Memory.wf]
  | cons c m ih =>
    obtain ⟨k, v⟩ := c
    simp only [Memory.wf, List.map_cons, List.pairwise_cons] at h
    simp only [Memory.write]
    split
    · rename_i hlt
      simp only [Memory.wf, List.map_cons, List.pairwise_cons, List.mem_cons]
      refine ⟨?_, h.1, h.2⟩
      rintro x (rfl | hx)
      · exact hlt
      · exact Nat.lt_trans hlt (h.1 x hx)
    · split
      · rename_i h1 h2
        subst h2
        simp only [Memory.wf, List.map_cons, List.pairwise_cons]
        exact h
      · rename_i h1 h2
        simp only [Memory.wf, List.map_cons, List.pairwise_cons]
        refine ⟨fun x hx => ?_, ih h.2⟩
        rcases (Memory.mem_write_keys m a b x).1 hx with rfl | hx
        · omega
        · exact h.1 x hx

theorem Memory.nil_wf : Memory.wf [] := List.Pairwise.nil

/-- An offset below every listed one was not written. -/
theorem Memory.read_none_of_lt (m : Memory) (a : Nat) (h : ∀ k ∈ m.map Prod.fst, a < k) : m.read a = none := by
  induction m with
  | nil => rfl
  | cons c m ih =>
    obtain ⟨k, v⟩ := c
    have hk : a < k := h k (by simp)
    simp only [Memory.read]
    rw [if_neg (by omega)]
    exact ih fun k' hk' => h k' (by simp at hk' ⊢; tauto)

@[simp] theorem State.byteAt_setFifo (s : State) (f : FifoId) (q : Fifo) (r : Region) (a : Nat) :
    (s.setFifo f q).byteAt r a = s.byteAt r a := by
  simp [State.byteAt]

@[simp] theorem State.byteAt_setSeq (s : State) (p : Port) (q : Seq) (r : Region) (a : Nat) :
    (s.setSeq p q).byteAt r a = s.byteAt r a := by
  cases r <;> simp [State.byteAt]

@[simp] theorem State.byteAt_setCurrent (s : State) (q : Seq) (r : Region) (a : Nat) :
    (s.setCurrent q).byteAt r a = s.byteAt r a := by
  simp [State.setCurrent]

@[simp] theorem State.byteAt_finish (s : State) (p : Response) (r : Region) (a : Nat) :
    (s.finish p).byteAt r a = s.byteAt r a := by
  cases r <;> simp [State.byteAt]

/-- A byte that was written is the one `MemRead` finds (R15). -/
theorem State.storedByte_of_byteAt (s : State) (r : Region) (a : Nat) (b : Byte) (h : s.byteAt r a = some b) :
    s.storedByte r a = b := by
  simp [State.storedByte, h]

/-- Where nothing was written `MemRead` finds the free value (V2; log 3). -/
theorem State.storedByte_of_none (s : State) (r : Region) (a : Nat) (h : s.byteAt r a = none) :
    s.storedByte r a = Config.unwrittenByte r a := by
  simp [State.storedByte, h]

@[simp] theorem State.storedByte_setFifo (s : State) (f : FifoId) (q : Fifo) (r : Region) (a : Nat) :
    (s.setFifo f q).storedByte r a = s.storedByte r a := by
  simp [State.storedByte]

@[simp] theorem State.storedByte_setSeq (s : State) (p : Port) (q : Seq) (r : Region) (a : Nat) :
    (s.setSeq p q).storedByte r a = s.storedByte r a := by
  simp [State.storedByte]

@[simp] theorem State.storedByte_setCurrent (s : State) (q : Seq) (r : Region) (a : Nat) :
    (s.setCurrent q).storedByte r a = s.storedByte r a := by
  simp [State.storedByte]

@[simp] theorem State.storedByte_finish (s : State) (p : Response) (r : Region) (a : Nat) :
    (s.finish p).storedByte r a = s.storedByte r a := by
  simp [State.storedByte]

/-- A byte that the iteration wrote is the one the staging buffer holds (R45). -/
theorem State.stagedByte_of_read (s : State) (i : Nat) (b : Byte) (h : s.echoTmp.read i = some b) :
    s.stagedByte i = b := by
  simp [State.stagedByte, h]

/-- What a byte of storage reads as after a region was written at one offset. -/
theorem State.byteAt_setRegion_write (s : State) (r r' : Region) (a a' : Nat) (b : Byte) :
    (s.setRegion r ((s.region r).write a b)).byteAt r' a' =
      if r' = r ∧ a' = a then some b else s.byteAt r' a' := by
  by_cases hr : r' = r
  · subst hr
    simp [State.byteAt, Memory.read_write]
  · simp [State.byteAt, hr]

end Sys2Proof.Machine
end

