-- ==== Sys2Proof/Laws/Ops.lean ====
section
/-! SUPPORT. What each shared operation can do, said once: the provers cite these instead of unfolding the operations. -/

namespace Sys2Proof.Machine

/-! ## Storage accesses -/

theorem memRead_ok_iff (f : FifoId) (i : Nat) (s : State) (b : Byte) :
    memRead f i s = .ok b ↔ i < (s.fifo f).cap.toNat ∧ s.storedByte (s.fifo f).mem i = b := by
  unfold memRead
  split <;> rename_i h <;> simp [h]

theorem memWrite_ok_iff (f : FifoId) (i : Nat) (b : Byte) (s t : State) :
    memWrite f i b s = .ok t ↔
      i < (s.fifo f).cap.toNat ∧ t = s.setRegion (s.fifo f).mem ((s.region (s.fifo f).mem).write i b) := by
  unfold memWrite
  split
  · rename_i h; simp [h, eq_comm]
  · rename_i h; simp [h]

theorem stagingRead_ok_iff (i : Nat) (s : State) (b : Byte) :
    stagingRead i s = .ok b ↔ i < s.echoMax.toNat ∧ s.stagedByte i = b := by
  unfold stagingRead
  split <;> rename_i h <;> simp [h]

theorem stagingWrite_ok_iff (i : Nat) (b : Byte) (s t : State) :
    stagingWrite i b s = .ok t ↔
      i < s.echoMax.toNat ∧ t = { s with echoTmp := s.echoTmp.write i b } := by
  unfold stagingWrite
  split
  · rename_i h; simp [h, eq_comm]
  · rename_i h; simp [h]

/-! ## `push` and `pop` -/

/-- The registers of a FIFO after a successful push (R124). -/
def pushedFifo (q : Fifo) : Fifo := { q with wr := advance q.wr q.cap, cnt := q.cnt + 1 }

/-- The registers of a FIFO after a successful pop (R125). -/
def poppedFifo (q : Fifo) : Fifo := { q with rd := advance q.rd q.cap, cnt := q.cnt - 1 }

/-- A push to a full FIFO fails and changes nothing (R124). -/
theorem push_full (f : FifoId) (b : Byte) (s : State) (h : (s.fifo f).full = true) : push f b s = .ok (false, s) := by
  simp [push, h]

/-- A push to a FIFO with room stores the byte at the write index (R124). -/
theorem push_room (f : FifoId) (b : Byte) (s : State) (h : (s.fifo f).full = false)
    (hw : (s.fifo f).wr.toNat < (s.fifo f).cap.toNat) :
    push f b s = .ok (true,
      (s.setRegion (s.fifo f).mem ((s.region (s.fifo f).mem).write (s.fifo f).wr.toNat b)).setFifo f
        (pushedFifo (s.fifo f))) := by
  simp [push, h, memWrite, hw, pushedFifo]

/-- Everything a push that answers can do (R124). -/
theorem push_ok (f : FifoId) (b : Byte) (s t : State) (r : Bool) (h : push f b s = .ok (r, t)) :
    (r = false ∧ (s.fifo f).full = true ∧ t = s) ∨
    (r = true ∧ (s.fifo f).full = false ∧ (s.fifo f).wr.toNat < (s.fifo f).cap.toNat ∧
      t = (s.setRegion (s.fifo f).mem ((s.region (s.fifo f).mem).write (s.fifo f).wr.toNat b)).setFifo f
        (pushedFifo (s.fifo f))) := by
  cases hf : (s.fifo f).full with
  | true => rw [push_full f b s hf] at h; simp at h; simp [h]
  | false =>
    by_cases hw : (s.fifo f).wr.toNat < (s.fifo f).cap.toNat
    · rw [push_room f b s hf hw] at h
      simp only [Except.ok.injEq, Prod.mk.injEq] at h
      obtain ⟨rfl, rfl⟩ := h
      simp [hw]
    · simp [push, hf, memWrite, hw] at h

/-- A push faults only where the write index is outside the region (R15). -/
theorem push_error (f : FifoId) (b : Byte) (s : State) (e : Fault) (h : push f b s = .error e) :
    e = .storageOutOfRange ∧ (s.fifo f).full = false ∧ (s.fifo f).cap.toNat ≤ (s.fifo f).wr.toNat := by
  cases hf : (s.fifo f).full with
  | true => rw [push_full f b s hf] at h; simp at h
  | false =>
    by_cases hw : (s.fifo f).wr.toNat < (s.fifo f).cap.toNat
    · rw [push_room f b s hf hw] at h; simp at h
    · simp [push, hf, memWrite, hw] at h
      exact ⟨h.symm, rfl, by omega⟩

/-- A pop from an empty FIFO fails and changes nothing (R125). -/
theorem pop_empty (f : FifoId) (s : State) (h : (s.fifo f).empty = true) : pop f s = .ok (none, s) := by
  simp [pop, h]

/-- A pop from a FIFO with contents takes the byte at the read index (R125). -/
theorem pop_some (f : FifoId) (s : State) (b : Byte) (h : (s.fifo f).empty = false)
    (hr : (s.fifo f).rd.toNat < (s.fifo f).cap.toNat)
    (hb : s.storedByte (s.fifo f).mem (s.fifo f).rd.toNat = b) :
    pop f s = .ok (some b, s.setFifo f (poppedFifo (s.fifo f))) := by
  have hm : memRead f (s.fifo f).rd.toNat s = .ok b := (memRead_ok_iff ..).2 ⟨hr, hb⟩
  simp [pop, h, hm, poppedFifo]

/-- Everything a pop that answers can do (R125). -/
theorem pop_ok (f : FifoId) (s t : State) (o : Option Byte) (h : pop f s = .ok (o, t)) :
    (o = none ∧ (s.fifo f).empty = true ∧ t = s) ∨
    (∃ b, o = some b ∧ (s.fifo f).empty = false ∧ (s.fifo f).rd.toNat < (s.fifo f).cap.toNat ∧
      s.storedByte (s.fifo f).mem (s.fifo f).rd.toNat = b ∧ t = s.setFifo f (poppedFifo (s.fifo f))) := by
  cases he : (s.fifo f).empty with
  | true => rw [pop_empty f s he] at h; simp at h; simp [h]
  | false =>
    cases hm : memRead f (s.fifo f).rd.toNat s with
    | error e => simp [pop, he, hm] at h
    | ok b =>
      obtain ⟨h1, h2⟩ := (memRead_ok_iff ..).1 hm
      rw [pop_some f s b he h1 h2] at h
      simp only [Except.ok.injEq, Prod.mk.injEq] at h
      obtain ⟨rfl, rfl⟩ := h
      exact .inr ⟨b, rfl, rfl, h1, h2, rfl⟩

/-- A pop faults only where the read index is outside the region (R15). -/
theorem pop_error (f : FifoId) (s : State) (e : Fault) (h : pop f s = .error e) :
    e = .storageOutOfRange ∧ (s.fifo f).empty = false ∧ (s.fifo f).cap.toNat ≤ (s.fifo f).rd.toNat := by
  cases he : (s.fifo f).empty with
  | true => rw [pop_empty f s he] at h; simp at h
  | false =>
    by_cases hr : (s.fifo f).rd.toNat < (s.fifo f).cap.toNat
    · rw [pop_some f s _ he hr rfl] at h; simp at h
    · simp [pop, he, memRead, hr] at h
      exact ⟨h.symm, rfl, by omega⟩

/-! ## Backend calls -/

/-- The state after a draw: only the answers to come and the draw counter can differ. -/
theorem drawAnswer_state (a : BackendId) (s : State) :
    ∃ as d, (drawAnswer a s).2 = { s with answers := as, draws := d } := by
  unfold drawAnswer
  split
  · exact ⟨_, s.draws, rfl⟩
  · exact ⟨s.answers, _, rfl⟩

/-- A listed answer is the one drawn. -/
theorem drawAnswer_listed (a : BackendId) (s : State) (r : Bool) (rest : List Bool) (h : s.answers = r :: rest) :
    drawAnswer a s = (r, { s with answers := rest }) := by
  simp [drawAnswer, h]

/-- Everything `be.txReady` can do (R132): it draws an answer and records it. -/
theorem beTxReady_state (s : State) :
    ∃ as d, (beTxReady s).2 =
      { s with answers := as, draws := d, trace := s.trace ++ [.txReady (beTxReady s).1] } := by
  obtain ⟨as, d, h⟩ := drawAnswer_state s.be.txReady s
  exact ⟨as, d, by simp [beTxReady, h, State.record]⟩

theorem beTxReady_listed (s : State) (r : Bool) (rest : List Bool) (h : s.answers = r :: rest) :
    beTxReady s = (r, { s with answers := rest, trace := s.trace ++ [.txReady r] }) := by
  simp [beTxReady, drawAnswer_listed _ s r rest h, State.record]

/-- Everything `be.init` can do (R131): it draws an answer and records it with the baud rate. -/
theorem beInit_state (baud : Word) (s : State) :
    ∃ as d, (beInit baud s).2 =
      { s with answers := as, draws := d, trace := s.trace ++ [.init baud (beInit baud s).1] } := by
  obtain ⟨as, d, h⟩ := drawAnswer_state s.be.init s
  exact ⟨as, d, by simp [beInit, h, State.record]⟩

theorem beInit_listed (baud : Word) (s : State) (r : Bool) (rest : List Bool) (h : s.answers = r :: rest) :
    beInit baud s = (r, { s with answers := rest, trace := s.trace ++ [.init baud r] }) := by
  simp [beInit, drawAnswer_listed _ s r rest h, State.record]

/-! ## The loops -/

/-- A micro-step of the loop that asks `txReady`. -/
theorem serviceStep_asks (loc : TxLoc) (s : State) (h : loc = .ask ∨
    (loc = .start ∧ (s.seqOf (otherPort s.turn)).active = false)) :
    serviceStep loc s = .ok (if (beTxReady s).1 then some .pop else none, (beTxReady s).2) := by
  rcases h with rfl | ⟨rfl, h⟩
  · rfl
  · simp [serviceStep, h]

/-- Everything a micro-step of the `serviceTransmit` loop that answers can do (R153). -/
theorem serviceStep_ok (loc : TxLoc) (s t : State) (o : Option TxLoc) (h : serviceStep loc s = .ok (o, t)) :
    ((loc = .ask ∨ (loc = .start ∧ (s.seqOf (otherPort s.turn)).active = false)) ∧
      o = (if (beTxReady s).1 then some .pop else none) ∧ t = (beTxReady s).2) ∨
    (loc = .pop ∧ (s.tx.empty = true ∧ o = none ∧ t = s ∨
      ∃ b, pop .tx s = .ok (some b, t) ∧ o = some (.put b))) ∨
    (∃ b, loc = .put b ∧ o = some .ask ∧ t = s.record (.txWrite b)) := by
  cases loc with
  | start =>
    cases ha : (s.seqOf (otherPort s.turn)).active with
    | true => simp [serviceStep, ha] at h
    | false =>
      rw [serviceStep_asks .start s (.inr ⟨rfl, ha⟩)] at h
      simp only [Except.ok.injEq, Prod.mk.injEq] at h
      exact .inl ⟨.inr ⟨rfl, rfl⟩, h.1.symm, h.2.symm⟩
  | ask =>
    rw [serviceStep_asks .ask s (.inl rfl)] at h
    simp only [Except.ok.injEq, Prod.mk.injEq] at h
    exact .inl ⟨.inl rfl, h.1.symm, h.2.symm⟩
  | pop =>
    refine .inr (.inl ⟨rfl, ?_⟩)
    simp only [serviceStep] at h
    split at h
    · simp at h
    · rename_i t' hp
      simp only [Except.ok.injEq, Prod.mk.injEq] at h
      obtain ⟨rfl, rfl⟩ := h
      rcases pop_ok .tx s t' none hp with ⟨-, he, rfl⟩ | ⟨b, hb, -⟩
      · exact .inl ⟨he, rfl, rfl⟩
      · simp at hb
    · rename_i b t' hp
      simp only [Except.ok.injEq, Prod.mk.injEq] at h
      obtain ⟨rfl, rfl⟩ := h
      exact .inr ⟨b, hp, rfl⟩
  | put b =>
    simp only [serviceStep, Except.ok.injEq, Prod.mk.injEq] at h
    exact .inr (.inr ⟨b, rfl, h.1.symm, h.2.symm⟩)

/-- Everything a micro-step of a flush that answers can do (R160). -/
theorem flushStep_ok (i : Nat) (loc : TxLoc) (s t : State) (o : WriteOut) (h : flushStep i loc s = .ok (o, t)) :
    ∃ o', serviceStep loc s = .ok (o', t) ∧
      ((∃ loc', o' = some loc' ∧ o = .running i (.flushing loc')) ∨ (o' = none ∧ o = .returned i)) := by
  unfold flushStep at h
  split at h
  · simp at h
  · rename_i loc' t' hs
    simp only [Except.ok.injEq, Prod.mk.injEq] at h
    obtain ⟨rfl, rfl⟩ := h
    exact ⟨_, hs, .inl ⟨loc', rfl, rfl⟩⟩
  · rename_i t' hs
    simp only [Except.ok.injEq, Prod.mk.injEq] at h
    obtain ⟨rfl, rfl⟩ := h
    exact ⟨_, hs, .inr ⟨rfl, rfl⟩⟩

/-- Everything a micro-step of a `write` body that answers can do (R160). -/
theorem writeStep_ok (next : Option Byte) (i : Nat) (loc : WriteLoc) (s t : State) (o : WriteOut)
    (h : writeStep next i loc s = .ok (o, t)) :
    (∃ l, loc = .flushing l ∧ flushStep i l s = .ok (o, t)) ∨
    (loc = .pushing ∧ next = none ∧ flushStep i .start s = .ok (o, t)) ∨
    (loc = .pushing ∧ ∃ b r, next = some b ∧ push .tx b s = .ok (r, t) ∧
      o = if r then .running (i + 1) .pushing else .running i (.flushing .start)) := by
  cases loc with
  | flushing l => exact .inl ⟨l, rfl, h⟩
  | pushing =>
    cases next with
    | none => exact .inr (.inl ⟨rfl, rfl, h⟩)
    | some b =>
      refine .inr (.inr ⟨rfl, b, ?_⟩)
      simp only [writeStep] at h
      split at h
      · simp at h
      all_goals
        rename_i t' hp
        simp only [Except.ok.injEq, Prod.mk.injEq] at h
        obtain ⟨rfl, rfl⟩ := h
        exact ⟨_, rfl, hp, rfl⟩

/-! ## Starting a command -/

theorem startOn_idle (i : Instr) (s : State) (body : Host.Outcome State Fault Refusal) (h : s.current = .idle)
    (hp : takenOn s.turn i = true) : startOn i s body = body := by
  simp [startOn, h, hp]

theorem startOn_wrongPort (i : Instr) (s : State) (body : Host.Outcome State Fault Refusal) (h : s.current = .idle)
    (hp : takenOn s.turn i = false) : startOn i s body = .next (s.finish (errResponse .wrongPort)) := by
  simp [startOn, h, hp]

theorem whenReady_ok (s : State) (body : Host.Outcome State Fault Refusal) (h : s.status = .ok) :
    whenReady s body = body := by
  simp [whenReady, h]

theorem whenReady_not (s : State) (body : Host.Outcome State Fault Refusal) (h : s.status ≠ .ok) :
    whenReady s body = .fault .useBeforeInit := by
  simp [whenReady, h]

/-- Everything the start of a command that answers a next state can be (R104, R105). -/
theorem startOn_next (i : Instr) (s t : State) (body : Host.Outcome State Fault Refusal)
    (h : startOn i s body = .next t) :
    s.current = .idle ∧
    ((takenOn s.turn i = true ∧ body = .next t) ∨
     (takenOn s.turn i = false ∧ t = s.finish (errResponse .wrongPort))) := by
  unfold startOn at h
  split at h
  · simp at h
  · rename_i hi
    refine ⟨by simpa using hi, ?_⟩
    split at h
    · rename_i hp; exact .inl ⟨hp, h⟩
    · rename_i hp
      simp only [Host.Outcome.next.injEq] at h
      exact .inr ⟨by simpa using hp, h.symm⟩

theorem whenReady_next (s t : State) (body : Host.Outcome State Fault Refusal) (h : whenReady s body = .next t) :
    s.status = .ok ∧ body = .next t := by
  unfold whenReady at h
  split at h
  · exact ⟨by assumption, h⟩
  · simp at h

theorem ofResult_next (r : Except Fault State) (t : State) : ofResult r = .next t ↔ r = .ok t := by
  cases r <;> simp [ofResult]

/-- A start that meets every check runs the command's own body. -/
theorem start_ready (i : Instr) (s : State) (p : Port) (body : Host.Outcome State Fault Refusal) (h : s.readyAt p)
    (hp : takenOn p i = true) : startOn i s (whenReady s body) = body := by
  have hc : s.current = .idle := by rw [State.current, h.turn, h.idle]
  rw [startOn_idle i s _ hc (by rw [h.turn, hp]), whenReady_ok s _ h.ok]

end Sys2Proof.Machine
end

