-- ==== Sys2Proof/Laws/Fifo.lean ====
section
/-! SUPPORT. The arithmetic of a FIFO's registers that the queue statements rest on, and the pop of a FIFO that meets its
invariant. -/

namespace Sys2Proof.Machine

theorem advance_toNat (i cap : Half) (h : 0 < cap.toNat) : (advance i cap).toNat = (i.toNat + 1) % cap.toNat := by
  have hc := cap.isLt
  have hm : (i.toNat + 1) % cap.toNat < 2 ^ 16 := Nat.lt_trans (Nat.mod_lt _ h) (by omega)
  simp [advance]
  omega

theorem Fifo.full_iff (q : Fifo) : q.full = true ↔ q.cnt.toNat = q.cap.toNat := by
  simp only [Fifo.full, beq_iff_eq]
  exact ⟨fun h => by rw [h], fun h => BitVec.eq_of_toNat_eq h⟩

theorem Fifo.empty_iff (q : Fifo) : q.empty = true ↔ q.cnt.toNat = 0 := by
  simp only [Fifo.empty, beq_iff_eq]
  exact ⟨fun h => by rw [h]; rfl, fun h => BitVec.eq_of_toNat_eq h⟩

/-- Two places of the contents, both within the capacity, are two offsets. -/
theorem ring_index_ne {r c j cap : Nat} (hj : j < c) (hc : c < cap) : (r + j) % cap ≠ (r + c) % cap := by
  intro h
  have h1 : j % cap = c % cap := Nat.ModEq.add_left_cancel' r (show r + j ≡ r + c [MOD cap] from h)
  rw [Nat.mod_eq_of_lt (by omega), Nat.mod_eq_of_lt hc] at h1
  omega

/-- R127: over a FIFO that meets its invariant the oldest offset was written, so the byte a pop finds there is that one and
never the free value. -/
theorem Fifo.Inv.oldest {f : FifoId} {s : State} (h : (s.fifo f).Inv (s.region (s.fifo f).mem))
    (he : (s.fifo f).empty = false) :
    s.byteAt (s.fifo f).mem (s.fifo f).rd.toNat = some (s.storedByte (s.fifo f).mem (s.fifo f).rd.toNat) := by
  have hc : 0 < (s.fifo f).cnt.toNat :=
    Nat.pos_of_ne_zero fun h0 => by rw [(Fifo.empty_iff _).2 h0] at he; cases he
  have hw := h.written 0 hc
  rw [Nat.add_zero, Nat.mod_eq_of_lt h.rdLt] at hw
  obtain ⟨b, hb⟩ := Option.isSome_iff_exists.1 hw
  rw [State.storedByte_of_byteAt s _ _ b hb]
  exact hb

/-- A pop of a FIFO that meets its invariant and is not empty takes the byte that the oldest offset was written with. -/
theorem pop_oldest {f : FifoId} {s : State} (h : (s.fifo f).Inv (s.region (s.fifo f).mem))
    (he : (s.fifo f).empty = false) :
    ∃ b, s.byteAt (s.fifo f).mem (s.fifo f).rd.toNat = some b ∧
      pop f s = .ok (some b, s.setFifo f (poppedFifo (s.fifo f))) :=
  ⟨_, h.oldest he, pop_some f s _ he h.rdLt rfl⟩

end Sys2Proof.Machine
end

