-- ==== Sys2Proof/Laws/PerInstr.lean ====
section
/-! SUPPORT. A statement about every command as syntax: the header of its words selects its own row of
spec/opcode_table.json, `(cw & mask) = match` (spec/30_encoding.md R100). -/

namespace Sys2Proof.Laws

/-- The `mask` of a command's row. -/
def rowMask : Instr → Word
  | .init _ _ _ _ _ _ => 0xFFF8FFFF
  | .ingestReceivedByte _ => 0xFFFFFF00
  | .serviceTransmit => 0xFFFFFFFF
  | .write _ _ => 0xFFFF0000
  | .read _ => 0xFFFF0000
  | .rxAvailableCount => 0xFFFFFFFF
  | .txQueuedCount => 0xFFFFFFFF
  | .echoPump => 0xFFFFFFFF
  | .overflowCount => 0xFFFFFFFF
  | .overflowClear => 0xFFFFFFFF
  | .setEchoChunkSize _ => 0xFFFF0000
  | .getEchoChunkSize => 0xFFFFFFFF

/-- The `match` of a command's row. -/
def rowMatch : Instr → Word
  | .init _ _ _ _ _ _ => 0x01000000
  | .ingestReceivedByte _ => 0x02000000
  | .serviceTransmit => 0x03000000
  | .write _ _ => 0x04000000
  | .read _ => 0x05000000
  | .rxAvailableCount => 0x06000000
  | .txQueuedCount => 0x07000000
  | .echoPump => 0x08000000
  | .overflowCount => 0x09000000
  | .overflowClear => 0x0A000000
  | .setEchoChunkSize _ => 0x0B000000
  | .getEchoChunkSize => 0x0C000000

/-- The header of a command's words selects the command's row. -/
def HeaderMatchesRow.Statement (i : Instr) : Prop :=
  ∃ cw after, encode i = cw :: after ∧ cw &&& rowMask i = rowMatch i

/-- A header with zero flags keeps only its opcode under the mask of formats W and H. -/
theorem headerOf_and_upper (op : BitVec 8) (imm : Half) :
    headerOf op 0 imm &&& 0xFFFF0000 = headerOf op 0 0 := by
  ext i hi
  rw [← BitVec.getLsbD_eq_getElem, ← BitVec.getLsbD_eq_getElem, BitVec.getLsbD_and, headerOf, headerOf]
  erw [BitVec.getLsbD_append, BitVec.getLsbD_append, BitVec.getLsbD_append, BitVec.getLsbD_append]
  interval_cases i <;> simp

/-- A header that carries a byte keeps only its opcode under the mask of format B. -/
theorem headerOf_and_byte (op : BitVec 8) (b : Byte) :
    headerOf op 0 (b.zeroExtend 16) &&& 0xFFFFFF00 = headerOf op 0 0 := by
  ext i hi
  rw [← BitVec.getLsbD_eq_getElem, ← BitVec.getLsbD_eq_getElem, BitVec.getLsbD_and, headerOf, headerOf]
  erw [BitVec.getLsbD_append, BitVec.getLsbD_append, BitVec.getLsbD_append, BitVec.getLsbD_append]
  interval_cases i <;> simp

theorem HeaderMatchesRow.init (be rxs txs : Bool) (baud : Word) (rxSize txSize : Half) :
    HeaderMatchesRow.Statement (.init be rxs txs baud rxSize txSize) :=
  ⟨_, _, rfl, by
    show headerOf 0x01 (flagBit be 0 ||| flagBit rxs 1 ||| flagBit txs 2) 0 &&& 0xFFF8FFFF = 0x01000000
    cases be <;> cases rxs <;> cases txs <;> decide⟩

theorem HeaderMatchesRow.ingestReceivedByte (byte : Byte) : HeaderMatchesRow.Statement (.ingestReceivedByte byte) :=
  ⟨_, _, rfl, headerOf_and_byte 0x02 byte⟩

theorem HeaderMatchesRow.serviceTransmit : HeaderMatchesRow.Statement .serviceTransmit := ⟨_, _, rfl, by decide⟩

theorem HeaderMatchesRow.write (data : List Byte) (length : Half) : HeaderMatchesRow.Statement (.write data length) :=
  ⟨_, _, rfl, headerOf_and_upper 0x04 length⟩

theorem HeaderMatchesRow.read (maxLen : Half) : HeaderMatchesRow.Statement (.read maxLen) :=
  ⟨_, _, rfl, headerOf_and_upper 0x05 maxLen⟩

theorem HeaderMatchesRow.rxAvailableCount : HeaderMatchesRow.Statement .rxAvailableCount := ⟨_, _, rfl, by decide⟩

theorem HeaderMatchesRow.txQueuedCount : HeaderMatchesRow.Statement .txQueuedCount := ⟨_, _, rfl, by decide⟩

theorem HeaderMatchesRow.echoPump : HeaderMatchesRow.Statement .echoPump := ⟨_, _, rfl, by decide⟩

theorem HeaderMatchesRow.overflowCount : HeaderMatchesRow.Statement .overflowCount := ⟨_, _, rfl, by decide⟩

theorem HeaderMatchesRow.overflowClear : HeaderMatchesRow.Statement .overflowClear := ⟨_, _, rfl, by decide⟩

theorem HeaderMatchesRow.setEchoChunkSize (n : Half) : HeaderMatchesRow.Statement (.setEchoChunkSize n) :=
  ⟨_, _, rfl, headerOf_and_upper 0x0B n⟩

theorem HeaderMatchesRow.getEchoChunkSize : HeaderMatchesRow.Statement .getEchoChunkSize := ⟨_, _, rfl, by decide⟩

end Sys2Proof.Laws
end

