-- ==== Sys2Proof/Laws/Steps.lean ====
section
/-! SUPPORT. What each command's micro-step can do when it answers a next state, said once: an induction or a frame over
`exec` takes one of these per command and unfolds no meaning. -/

namespace Sys2Proof.Machine

/-- A port that does not take a command answers it and is otherwise unchanged (R102, R104). -/
def wrongPortAnswer (i : Instr) (s t : State) : Prop :=
  s.current = .idle ∧ takenOn s.turn i = false ∧ t = s.finish (errResponse .wrongPort)

/-- A command starts at an idle port that takes it, while `status` is OK. -/
def starts (i : Instr) (s : State) : Prop := s.current = .idle ∧ takenOn s.turn i = true ∧ s.status = .ok

theorem startReady_next (i : Instr) (s t : State) (body : Host.Outcome State Fault Refusal)
    (h : startOn i s (whenReady s body) = .next t) :
    wrongPortAnswer i s t ∨ (starts i s ∧ body = .next t) := by
  obtain ⟨hi, ⟨hp, hb⟩ | ⟨hp, ht⟩⟩ := startOn_next i s t _ h
  · obtain ⟨hok, hb⟩ := whenReady_next s t body hb
    exact .inr ⟨⟨hi, hp, hok⟩, hb⟩
  · exact .inl ⟨hi, hp, ht⟩

theorem execInit_next (be rxs txs : Bool) (baud : Word) (a b : Half) (s t : State)
    (h : execInit be rxs txs baud a b s = .next t) :
    wrongPortAnswer (.init be rxs txs baud a b) s t ∨
    (s.current = .init be rxs txs baud a b ∧ t = initBackend baud s) ∨
    (s.current = .idle ∧ takenOn s.turn (.init be rxs txs baud a b) = true ∧ s.status ≠ .ok ∧
      ((initAccepts be rxs txs a b = true ∧ t = (initSetup a b s).setCurrent (.init be rxs txs baud a b)) ∨
       (initAccepts be rxs txs a b = false ∧ t = s.finish (okResponse 0)))) := by
  unfold execInit at h
  split at h
  · rename_i hc
    simp only [Host.Outcome.next.injEq] at h
    exact .inr (.inl ⟨hc, h.symm⟩)
  · obtain ⟨hi, ⟨hp, hb⟩ | ⟨hp, ht⟩⟩ := startOn_next _ s t _ h
    · refine .inr (.inr ⟨hi, hp, ?_⟩)
      split at hb
      · simp at hb
      · rename_i hs
        refine ⟨hs, ?_⟩
        split at hb
        · rename_i ha
          simp only [Host.Outcome.next.injEq] at hb
          exact .inl ⟨ha, hb.symm⟩
        · rename_i ha
          simp only [Host.Outcome.next.injEq] at hb
          exact .inr ⟨by simpa using ha, hb.symm⟩
    · exact .inl ⟨hi, hp, ht⟩

theorem ingest_ok (b : Byte) (s t : State) (h : ingest b s = .ok t) :
    (∃ u, push .rx b s = .ok (true, u) ∧ t = u.finish (okResponse 0)) ∨
    (s.rx.full = true ∧ t = State.finish { s with ovf := satInc s.ovf } (okResponse 0)) := by
  unfold ingest at h
  split at h
  · simp at h
  · rename_i u hp
    simp only [Except.ok.injEq] at h
    exact .inl ⟨u, hp, h.symm⟩
  · rename_i u hp
    simp only [Except.ok.injEq] at h
    rcases push_ok .rx b s u false hp with ⟨-, hf, rfl⟩ | ⟨hf, -⟩
    · exact .inr ⟨hf, h.symm⟩
    · simp at hf

theorem execIngest_next (b : Byte) (s t : State) (h : execIngestReceivedByte b s = .next t) :
    wrongPortAnswer (.ingestReceivedByte b) s t ∨
    (starts (.ingestReceivedByte b) s ∧ ingest b s = .ok t) := by
  rcases startReady_next _ s t _ h with h | ⟨hs, hb⟩
  · exact .inl h
  · exact .inr ⟨hs, (ofResult_next ..).1 hb⟩

theorem serviceTransmitStep_ok (loc : TxLoc) (s t : State) (h : serviceTransmitStep loc s = .ok t) :
    ∃ o u, serviceStep loc s = .ok (o, u) ∧
      t = match o with
        | some loc' => u.setCurrent (.serviceTransmit loc')
        | none => u.finish (okResponse 0) := by
  unfold serviceTransmitStep at h
  split at h
  · simp at h
  all_goals
    rename_i hs
    simp only [Except.ok.injEq] at h
    exact ⟨_, _, hs, h.symm⟩

theorem execServiceTransmit_next (s t : State) (h : execServiceTransmit s = .next t) :
    wrongPortAnswer .serviceTransmit s t ∨
    ∃ loc, (s.current = .serviceTransmit loc ∨ (starts .serviceTransmit s ∧ loc = .start)) ∧
      serviceTransmitStep loc s = .ok t := by
  unfold execServiceTransmit at h
  split at h
  · rename_i loc hc
    exact .inr ⟨loc, .inl hc, (ofResult_next ..).1 h⟩
  · rcases startReady_next _ s t _ h with h | ⟨hs, hb⟩
    · exact .inl h
    · exact .inr ⟨.start, .inr ⟨hs, rfl⟩, (ofResult_next ..).1 hb⟩

theorem writeCommandStep_ok (data : List Byte) (length : Half) (i : Nat) (loc : WriteLoc) (s t : State)
    (h : writeCommandStep data length i loc s = .ok t) :
    ∃ o u, writeStep data[i]? i loc s = .ok (o, u) ∧
      t = match o with
        | .running i' loc' => u.setCurrent (.write data length i' loc')
        | .returned i' => u.finish (okResponse (BitVec.ofNat 32 i')) := by
  unfold writeCommandStep at h
  split at h
  · simp at h
  all_goals
    rename_i hs
    simp only [Except.ok.injEq] at h
    exact ⟨_, _, hs, h.symm⟩

theorem execWrite_next (data : List Byte) (length : Half) (s t : State) (h : execWrite data length s = .next t) :
    wrongPortAnswer (.write data length) s t ∨
    ∃ i loc, (s.current = .write data length i loc ∨
        (starts (.write data length) s ∧ data.length = length.toNat ∧ i = 0 ∧ loc = .pushing)) ∧
      writeCommandStep data length i loc s = .ok t := by
  unfold execWrite at h
  split at h
  · rename_i data' length' i loc hc
    split at h
    · rename_i he
      obtain ⟨rfl, rfl⟩ := he
      exact .inr ⟨i, loc, .inl hc, (ofResult_next ..).1 h⟩
    · simp at h
  · obtain ⟨hi, ⟨hp, hb⟩ | ⟨hp, ht⟩⟩ := startOn_next _ s t _ h
    · split at hb
      · rename_i hw
        obtain ⟨hok, hb⟩ := whenReady_next s t _ hb
        exact .inr ⟨0, .pushing, .inr ⟨⟨hi, hp, hok⟩, by simpa [Instr.wellFormed] using hw, rfl, rfl⟩,
          (ofResult_next ..).1 hb⟩
      · simp at hb
    · exact .inl ⟨hi, hp, ht⟩

theorem readCommandStep_ok (maxLen : Half) (out : List Byte) (s t : State) (h : readCommandStep maxLen out s = .ok t) :
    ∃ o u, pop .rx s = .ok (o, u) ∧
      t = match o with
        | none => u.finish (readResponse out)
        | some b =>
          if out.length + 1 < maxLen.toNat then u.setCurrent (.read maxLen (out ++ [b]))
          else u.finish (readResponse (out ++ [b])) := by
  unfold readCommandStep at h
  split at h
  · simp at h
  · rename_i u hp
    simp only [Except.ok.injEq] at h
    exact ⟨_, u, hp, h.symm⟩
  · rename_i b u hp
    refine ⟨_, u, hp, ?_⟩
    simp only
    split at h <;> rename_i hl <;> simp only [Except.ok.injEq] at h
    · rw [if_pos hl, h]
    · rw [if_neg hl, h]

theorem execRead_next (maxLen : Half) (s t : State) (h : execRead maxLen s = .next t) :
    wrongPortAnswer (.read maxLen) s t ∨
    (starts (.read maxLen) s ∧ maxLen = 0 ∧ t = s.finish (readResponse [])) ∨
    ∃ out, (s.current = .read maxLen out ∨ (starts (.read maxLen) s ∧ maxLen ≠ 0 ∧ out = [])) ∧
      readCommandStep maxLen out s = .ok t := by
  unfold execRead at h
  split at h
  · rename_i maxLen' out hc
    split at h
    · rename_i he
      subst he
      exact .inr (.inr ⟨out, .inl hc, (ofResult_next ..).1 h⟩)
    · simp at h
  · rcases startReady_next _ s t _ h with h | ⟨hs, hb⟩
    · exact .inl h
    · split at hb
      · rename_i h0
        simp only [Host.Outcome.next.injEq] at hb
        exact .inr (.inl ⟨hs, h0, hb.symm⟩)
      · rename_i h0
        exact .inr (.inr ⟨[], .inr ⟨hs, h0, rfl⟩, (ofResult_next ..).1 hb⟩)

/-- Everything an accessor's micro-step can do (R164, R165, R180, R183). -/
theorem accessor_next (i : Instr) (v : Word) (s t : State)
    (h : startOn i s (whenReady s (.next (s.finish (okResponse v)))) = .next t) :
    wrongPortAnswer i s t ∨ (starts i s ∧ t = s.finish (okResponse v)) := by
  rcases startReady_next _ s t _ h with h | ⟨hs, hb⟩
  · exact .inl h
  · simp only [Host.Outcome.next.injEq] at hb
    exact .inr ⟨hs, hb.symm⟩

theorem execOverflowClear_next (s t : State) (h : execOverflowClear s = .next t) :
    wrongPortAnswer .overflowClear s t ∨
    (starts .overflowClear s ∧ t = State.finish { s with ovf := 0 } (okResponse 0)) := by
  rcases startReady_next _ s t _ h with h | ⟨hs, hb⟩
  · exact .inl h
  · simp only [Host.Outcome.next.injEq] at hb
    exact .inr ⟨hs, hb.symm⟩

theorem execSetEchoChunkSize_next (n : Half) (s t : State) (h : execSetEchoChunkSize n s = .next t) :
    wrongPortAnswer (.setEchoChunkSize n) s t ∨
    (starts (.setEchoChunkSize n) s ∧ t = State.finish { s with echoCfg := n } (okResponse 0)) := by
  rcases startReady_next _ s t _ h with h | ⟨hs, hb⟩
  · exact .inl h
  · simp only [Host.Outcome.next.injEq] at hb
    exact .inr ⟨hs, hb.symm⟩

theorem execEchoPump_next (s t : State) (h : execEchoPump s = .next t) :
    wrongPortAnswer .echoPump s t ∨
    ∃ loc, (s.current = .echoPump loc ∨ (starts .echoPump s ∧ loc = .ask)) ∧ echoPumpStep loc s = .ok t := by
  unfold execEchoPump at h
  split at h
  · rename_i loc hc
    exact .inr ⟨loc, .inl hc, (ofResult_next ..).1 h⟩
  · rcases startReady_next _ s t _ h with h | ⟨hs, hb⟩
    · exact .inl h
    · exact .inr ⟨.ask, .inr ⟨hs, rfl⟩, (ofResult_next ..).1 hb⟩

/-- Everything a pop micro-step of the inner `read` of an `echoPump` can do (R170). -/
theorem echoRead_ok (n : Half) (k i : Nat) (s t : State) (h : echoRead n k i s = .ok t) :
    (s.rx.empty = true ∧ t = echoAfterRead n k i s) ∨
    ∃ b u, pop .rx s = .ok (some b, u) ∧ i < s.echoMax.toNat ∧
      t = if i + 1 < k then
          State.setCurrent { u with echoTmp := u.echoTmp.write i b } (.echoPump (.reading n k (i + 1)))
        else echoAfterRead n k (i + 1) { u with echoTmp := u.echoTmp.write i b } := by
  unfold echoRead at h
  split at h
  · simp at h
  · rename_i u hp
    simp only [Except.ok.injEq] at h
    rcases pop_ok .rx s u none hp with ⟨-, he, rfl⟩ | ⟨b, hb, -⟩
    · exact .inl ⟨he, h.symm⟩
    · simp at hb
  · rename_i b u hp
    have hu : u.echoMax = s.echoMax := by
      rcases pop_ok .rx s u (some b) hp with ⟨hb, -⟩ | ⟨b', -, -, -, -, rfl⟩
      · simp at hb
      · simp
    split at h
    · simp at h
    · rename_i v hv
      obtain ⟨hi, rfl⟩ := (stagingWrite_ok_iff ..).1 hv
      rw [hu] at hi
      refine .inr ⟨b, u, hp, hi, ?_⟩
      split at h <;> rename_i hl <;> simp only [Except.ok.injEq] at h
      · rw [if_pos hl, h]
      · rw [if_neg hl, h]

theorem echoNext_ok (r i : Nat) (loc : WriteLoc) (s : State) (o : Option Byte) (h : echoNext r i loc s = .ok o) :
    (o = none ∧ (loc = .pushing → r ≤ i)) ∨
    (loc = .pushing ∧ i < r ∧ ∃ b, o = some b ∧ i < s.echoMax.toNat ∧ s.stagedByte i = b) := by
  unfold echoNext at h
  split at h
  · simp only [Except.ok.injEq] at h
    exact .inl ⟨h.symm, by simp⟩
  · split at h
    · rename_i hr
      split at h
      · simp at h
      · rename_i b hb
        simp only [Except.ok.injEq] at h
        exact .inr ⟨rfl, hr, b, h.symm, (stagingRead_ok_iff ..).1 hb⟩
    · rename_i hr
      simp only [Except.ok.injEq] at h
      exact .inl ⟨h.symm, fun _ => by omega⟩

/-- Everything a micro-step of the inner `write` of an `echoPump` can do (R170, R172). -/
theorem echoWrite_ok (n : Half) (k r i : Nat) (loc : WriteLoc) (s t : State) (h : echoWrite n k r i loc s = .ok t) :
    ∃ next o u, echoNext r i loc s = .ok next ∧ writeStep next i loc s = .ok (o, u) ∧
      t = match o with
        | .running i' loc' => u.setCurrent (.echoPump (.writing n k r i' loc'))
        | .returned _ => u.dropStaging.setCurrent (.echoPump .ask) := by
  unfold echoWrite at h
  split at h
  · simp at h
  · rename_i next hn
    split at h
    · simp at h
    all_goals
      rename_i hs
      simp only [Except.ok.injEq] at h
      exact ⟨next, _, _, hn, hs, h.symm⟩

end Sys2Proof.Machine
end

