-- ==== Sys2Proof/Tests/Slice0.lean ====
section
/-! SUPPORT. Tests of one step or one decoding each, their expected results worked out from spec/95_test_vectors.md and
the rules cited, and for every statement with hypotheses a state and operands that meet all of them. -/

namespace Sys2Proof.Tests

open Sys2Proof.Machine

/-! ## Helpers -/

/-- Whether an outcome is a next state that passes a test. -/
def nextIs (o : Host.Outcome State Fault Refusal) (p : State → Bool) : Bool :=
  match o with
  | .next t => p t
  | .fault _ => false
  | .refused _ => false

/-- Whether an outcome is a given fault. -/
def faultIs (o : Host.Outcome State Fault Refusal) (f : Fault) : Bool :=
  match o with
  | .next _ => false
  | .fault g => g == f
  | .refused _ => false

/-- Whether an outcome is a given refusal. -/
def refusalIs (o : Host.Outcome State Fault Refusal) (r : Refusal) : Bool :=
  match o with
  | .next _ => false
  | .fault _ => false
  | .refused q => q == r

/-- A block after `init`: `rx = 4/3/1/2` with contents `[0x11, 0x12]`, `tx = 4/1/3/2` with contents `[0x23, 0x20]`, which
wrap round the end of TXMEM. Both ports are idle and port L has the turn. -/
def sample : State := { State.reset with
  rx := ⟨.rxmem, 4, 3, 1, 2⟩
  tx := ⟨.txmem, 4, 1, 3, 2⟩
  rxmem := [(0, 0x10), (1, 0x11), (2, 0x12)]
  txmem := [(0, 0x20), (3, 0x23)]
  echoCfg := 32
  be := CapabilitySet.supplied
  status := .ok }

/-- The same with both FIFOs full: `rx = 4/1/1/4`, `tx = 4/3/3/4`. -/
def full : State := { sample with
  rx := ⟨.rxmem, 4, 1, 1, 4⟩
  tx := ⟨.txmem, 4, 3, 3, 4⟩
  rxmem := [(0, 0x10), (1, 0x11), (2, 0x12), (3, 0x13)]
  txmem := [(0, 0x20), (1, 0x21), (2, 0x22), (3, 0x23)] }

/-- The same with both FIFOs empty: `4/2/2/0`. -/
def empty : State := { sample with rx := ⟨.rxmem, 4, 2, 2, 0⟩, tx := ⟨.txmem, 4, 2, 2, 0⟩ }

/-- A state with the turn given to port I. -/
def onI (s : State) : State := { s with turn := .I }

/-! ## Well-formedness (R160, D36): the one check, and terms that it refuses -/

theorem test_write_too_short_is_ill_formed : (Instr.write [0x41] 2).wellFormed = false := by decide
theorem test_write_too_long_is_ill_formed : (Instr.write [0x41, 0x42] 1).wellFormed = false := by decide
theorem test_write_of_nothing_is_well_formed : (Instr.write [] 0).wellFormed = true := by decide
theorem test_ill_formed_write_is_refused :
    refusalIs (exec (.write [0x41] 2) sample) .illFormedWrite = true := by decide

/-! ## Decoding: words written out from the encodings (95_test_vectors.md 2.1) -/

/-- V30.1. -/
theorem test_decode_init :
    decode [0x01070000, 0x0001C200, 0x00040008] = .command (.init true true true 115200 4 8) [] := by decide
/-- V30.2. -/
theorem test_decode_init_absent_storage :
    decode [0x01050000, 0x00002580, 0x00040004] = .command (.init true false true 9600 4 4) [] := by decide
/-- V30.5. -/
theorem test_decode_ingest : decode [0x0200005A] = .command (.ingestReceivedByte 0x5A) [] := by decide
/-- V30.9. -/
theorem test_decode_serviceTransmit : decode [0x03000000] = .command .serviceTransmit [] := by decide
/-- V30.11. -/
theorem test_decode_write : decode [0x04000005, 0x40302010, 0x00000050] =
    .command (.write [0x10, 0x20, 0x30, 0x40, 0x50] 5) [] := by decide
/-- V30.12, and the words after the command. -/
theorem test_decode_write_nothing : decode [0x04000000, 0x03000000] = .command (.write [] 0) [0x03000000] := by decide
/-- V30.16. -/
theorem test_decode_read : decode [0x05000008] = .command (.read 8) [] := by decide
/-- V30.18. -/
theorem test_decode_accessors :
    decode [0x06000000] = .command .rxAvailableCount [] ∧ decode [0x07000000] = .command .txQueuedCount [] ∧
    decode [0x09000000] = .command .overflowCount [] ∧ decode [0x0C000000] = .command .getEchoChunkSize [] := by decide
/-- V30.19. -/
theorem test_decode_loop_commands :
    decode [0x08000000] = .command .echoPump [] ∧ decode [0x0A000000] = .command .overflowClear [] := by decide
/-- V30.20. -/
theorem test_decode_setEchoChunkSize : decode [0x0B000010] = .command (.setEchoChunkSize 16) [] := by decide
/-- V30.3, V30.4, V30.14: three words are consumed. -/
theorem test_decode_reserved_three_words :
    decode [0x01080000, 0x00002580, 0x00040004, 7] = .bad .reservedNonzero [7] ∧
    decode [0x01070001, 0x00002580, 0x00040004, 7] = .bad .reservedNonzero [7] ∧
    decode [0x04000005, 0x40302010, 0x00000150, 7] = .bad .reservedNonzero [7] := by decide
/-- V30.6, V30.8, V30.10, V30.21: one word is consumed. -/
theorem test_decode_reserved_one_word :
    decode [0x02000100, 7] = .bad .reservedNonzero [7] ∧ decode [0x02010000, 7] = .bad .reservedNonzero [7] ∧
    decode [0x03000001, 7] = .bad .reservedNonzero [7] ∧ decode [0x0BFF0010, 7] = .bad .reservedNonzero [7] := by decide
/-- V30.22 to V30.24. -/
theorem test_decode_unassigned :
    decode [0x00000000, 7] = .bad .illegalOpcode [7] ∧ decode [0xFFFFFFFF, 7] = .bad .illegalOpcode [7] ∧
    decode [0x0D000000, 7] = .bad .illegalOpcode [7] := by decide
/-- R99's order of lanes, from the encoder's side (V30.13). -/
theorem test_encode_write : encode (.write [0x41, 0x42] 2) = [0x04000002, 0x00004241] := by decide
/-- R96, from the encoder's side (V30.1). -/
theorem test_encode_init :
    encode (.init true true true 115200 4 8) = [0x01070000, 0x0001C200, 0x00040008] := by decide
/-- V30.26. -/
theorem test_read_response : readResponse [0x33, 0x44, 0x55] = ⟨false, 3, [0x00554433]⟩ := by decide
/-- R90: `err` is bit 32 of a response. -/
theorem test_response_bits : (errResponse .wrongPort).bits = 0x100000003 := by decide
/-- The table's numbering of the bits: V30.11's header with operand words of zeros. -/
theorem test_decodeTableWord_write : decodeTableWord 32 0x04000005 = some (.write [0, 0, 0, 0, 0] 5) := by decide
/-- The second and third word of V30.1 in the bits above the header's. -/
theorem test_decodeTableWord_init :
    decodeTableWord 96 0x000400080001C20001070000 = some (.init true true true 115200 4 8) := by decide

/-! ## Each command, one step -/

/-- V42.1, the setup micro-step, from hardware reset. -/
theorem test_init_setup : nextIs (exec (.init true true true 9600 4 4) State.reset) (fun t =>
    t.rx == ⟨.rxmem, 4, 0, 0, 0⟩ && t.tx == ⟨.txmem, 4, 0, 0, 0⟩ && t.echoCfg == 32 && t.status == .never) = true := by
  decide
/-- V42.5, the backend micro-step. -/
theorem test_init_backend_refuses :
    nextIs (exec (.init true true true 9600 4 4)
      { sample with status := .never, seqL := .init true true true 9600 4 4, answers := [false] }) (fun t =>
    t.status == .failed && t.respL == [⟨false, 0, []⟩] && t.trace == [.init 9600 false]) = true := by decide
/-- V43.2. -/
theorem test_ingest_drops_newest : nextIs (exec (.ingestReceivedByte 0x5A) (onI full)) (fun t =>
    t.ovf == 1 && t.rx == full.rx && t.rxmem == full.rxmem && t.respI == [⟨false, 0, []⟩]) = true := by decide
/-- V40.3: the write index wraps. -/
theorem test_ingest_wraps : nextIs (exec (.ingestReceivedByte 0x5A) (onI sample)) (fun t =>
    t.rx == ⟨.rxmem, 4, 0, 1, 3⟩ && t.byteAt .rxmem 3 == some 0x5A) = true := by decide
/-- V43.6. -/
theorem test_serviceTransmit_not_ready : nextIs (exec .serviceTransmit { sample with answers := [false] }) (fun t =>
    t.tx == sample.tx && t.trace == [.txReady false] && t.respL == [⟨false, 0, []⟩]) = true := by decide
/-- V40.6: a pop whose read index wraps. -/
theorem test_serviceTransmit_pops : nextIs (exec .serviceTransmit
    { sample with seqL := .serviceTransmit .pop }) (fun t =>
    t.tx == ⟨.txmem, 4, 1, 0, 1⟩ && t.seqL == .serviceTransmit (.put 0x23) && t.trace == []) = true := by decide
/-- R15, V2: a pop at an offset that nothing has written takes the free value. -/
theorem test_read_of_unwritten_storage_goes_on :
    (∃ t, exec (.read 1) { sample with rxmem := [] } = .next t ∧
      t.respL = [readResponse [Config.unwrittenByte .rxmem 1]] ∧ t.rx.cnt = 1) := ⟨_, rfl, rfl, rfl⟩
/-- R161 (d), R156: a `write` of no bytes begins with its flush. -/
theorem test_write_nothing_overlaps :
    faultIs (exec (.write [] 0) { sample with seqI := .serviceTransmit .pop }) .txConsumerOverlap = true := by decide
/-- V44.2. -/
theorem test_write_nothing_flushes : nextIs (exec (.write [] 0) { sample with answers := [false] }) (fun t =>
    t.trace == [.txReady false] && t.respL == [⟨false, 0, []⟩] && t.tx == sample.tx) = true := by decide
/-- V40.4, within V44.3: the push that fails. -/
theorem test_write_push_fails : nextIs (exec (.write [9] 1) full) (fun t =>
    t.seqL == .write [9] 1 0 (.flushing .start) && t.tx == full.tx && t.respL == []) = true := by decide
/-- V44.3, its last pop: the short count is returned though the flush has emptied `tx`. -/
theorem test_write_returns_the_short_count : nextIs (exec (.write [9] 1)
    { empty with answers := [true], seqL := .write [9] 1 0 (.flushing .pop) }) (fun t =>
    t.respL == [⟨false, 0, []⟩] && t.seqL == .idle && t.trace == [] && t.answers == [true]) = true := by decide
/-- V44.5. -/
theorem test_read_zero : nextIs (exec (.read 0) sample) (fun t =>
    t.rx == sample.rx && t.respL == [⟨false, 0, []⟩]) = true := by decide
/-- The last pop of V44.6's shape: the second byte of two. -/
theorem test_read_returns : nextIs (exec (.read 2) { sample with seqL := .read 2 [0x77] }) (fun t =>
    t.rx == ⟨.rxmem, 4, 3, 2, 1⟩ && t.respL == [⟨false, 2, [0x00001177]⟩] && t.seqL == .idle) = true := by decide
/-- V44.10. -/
theorem test_rxAvailableCount : nextIs (exec .rxAvailableCount full) (fun t => t.respL == [⟨false, 4, []⟩]) = true := by
  decide
theorem test_txQueuedCount : nextIs (exec .txQueuedCount (onI sample)) (fun t => t.respI == [⟨false, 2, []⟩]) = true := by
  decide
/-- V45.1. -/
theorem test_echoPump_empty : nextIs (exec .echoPump empty) (fun t =>
    t.respL == [⟨false, 0, []⟩] && t.trace == [] && t.seqL == .idle) = true := by decide
/-- R170, R171: a chunk of one byte of two. -/
theorem test_echoPump_chunk : nextIs (exec .echoPump { sample with echoCfg := 1, seqL := .echoPump (.counted 2) }) (fun t =>
    t.seqL == .echoPump (.writing 2 1 1 0 .pushing) && t.echoTmp == [(0, 0x11)] && t.rx.cnt == 1) = true := by decide
/-- V46.3. -/
theorem test_overflowCount : nextIs (exec .overflowCount (onI { sample with ovf := 4294967295 })) (fun t =>
    t.respI == [⟨false, 0xFFFFFFFF, []⟩]) = true := by decide
theorem test_overflowClear : nextIs (exec .overflowClear { sample with ovf := 7 }) (fun t =>
    t.ovf == 0 && t.rx == sample.rx && t.respL == [⟨false, 0, []⟩]) = true := by decide
/-- V46.5. -/
theorem test_setEchoChunkSize : nextIs (exec (.setEchoChunkSize 65535) sample) (fun t => t.echoCfg == 65535) = true := by
  decide
theorem test_getEchoChunkSize : nextIs (exec .getEchoChunkSize { sample with echoCfg := 65535 }) (fun t =>
    t.respL == [⟨false, 65535, []⟩]) = true := by decide

/-! ## Stops and transport answers -/

/-- V42.7, V43.9, V44.11. -/
theorem test_use_before_init :
    faultIs (exec .rxAvailableCount State.reset) .useBeforeInit = true ∧
    faultIs (exec (.write [1] 1) { sample with status := .failed }) .useBeforeInit = true := by decide
/-- V42.8. -/
theorem test_re_init : faultIs (exec (.init true true true 9600 4 4) sample) .reInit = true := by decide
/-- V43.10. -/
theorem test_consumer_overlap :
    faultIs (exec .serviceTransmit { sample with seqI := .serviceTransmit .pop }) .txConsumerOverlap = true := by decide
/-- V30.7: before any `init`, `ingestReceivedByte` on port L answers 3. -/
theorem test_wrong_port : nextIs (exec (.ingestReceivedByte 0x5A) State.reset) (fun t =>
    t.respL == [⟨true, 3, []⟩] && t.status == .never) = true := by decide
/-- A command at a port that has another in flight (R38, R203). -/
theorem test_port_busy :
    refusalIs (exec .overflowCount { sample with seqL := .echoPump .ask }) .portBusy = true := by decide
/-- V30.22: a step answers an illegal opcode with 1 and consumes its word. -/
theorem test_step_answers_illegal_opcode : nextIs (step { State.reset with order := [.I], cmdI := [0, 7] }) (fun t =>
    t.respI == [⟨true, 1, []⟩] && t.cmdI == [7]) = true := by decide
/-- The step after `withFetchWord` runs the command as the first one after reset (V42.1). -/
theorem test_withFetchWord_runs_init : nextIs (step (State.reset.withFetchWord 96 0x000400080001C20001070000)) (fun t =>
    t.seqL == .init true true true 115200 4 8 && t.cmdL == []) = true := by decide
/-- `ingestReceivedByte` is presented at port I, where it is undefined before `init` (R203). -/
theorem test_withFetchWord_runs_ingest :
    faultIs (step (State.reset.withFetchWord 32 0x0200005A)) .useBeforeInit = true := by decide

/-! ## Witnesses: for every statement with hypotheses, a state and operands that meet all of them together -/

theorem sample_readyAt : sample.readyAt .L := ⟨rfl, rfl, rfl⟩
theorem sample_readyAt_I : (onI sample).readyAt .I := ⟨rfl, rfl, rfl⟩
theorem full_readyAt : full.readyAt .L := ⟨rfl, rfl, rfl⟩
theorem full_readyAt_I : (onI full).readyAt .I := ⟨rfl, rfl, rfl⟩
theorem empty_readyAt : empty.readyAt .L := ⟨rfl, rfl, rfl⟩

theorem sample_rx_inv : sample.rx.Inv sample.rxmem :=
  ⟨by decide, by decide, by decide, by decide, by decide, by decide⟩
theorem sample_tx_inv : sample.tx.Inv sample.txmem :=
  ⟨by decide, by decide, by decide, by decide, by decide, by decide⟩
theorem full_rx_inv : full.rx.Inv full.rxmem :=
  ⟨by decide, by decide, by decide, by decide, by decide, by decide⟩
theorem full_tx_inv : full.tx.Inv full.txmem :=
  ⟨by decide, by decide, by decide, by decide, by decide, by decide⟩
theorem empty_rx_inv : empty.rx.Inv empty.rxmem :=
  ⟨by decide, by decide, by decide, by decide, by decide, by decide⟩
theorem empty_tx_inv : empty.tx.Inv empty.txmem :=
  ⟨by decide, by decide, by decide, by decide, by decide, by decide⟩

theorem sample_inv : sample.Inv :=
  ⟨by decide, by decide, by decide, rfl, rfl, by decide, fun _ => sample_rx_inv, fun _ => sample_tx_inv,
    fun _ => rfl, rfl, trivial, by decide⟩
theorem full_inv : full.Inv :=
  ⟨by decide, by decide, by decide, rfl, rfl, by decide, fun _ => full_rx_inv, fun _ => full_tx_inv,
    fun _ => rfl, rfl, trivial, by decide⟩
theorem empty_inv : empty.Inv :=
  ⟨by decide, by decide, by decide, rfl, rfl, by decide, fun _ => empty_rx_inv, fun _ => empty_tx_inv,
    fun _ => rfl, rfl, trivial, by decide⟩

/-- A state that meets the invariant, given answers to come, still meets it. -/
theorem answers_inv (s : State) (as : List Bool) (h : s.Inv) : State.Inv { s with answers := as } :=
  ⟨h.rxmemWf, h.txmemWf, h.echoTmpWf, h.rxBound, h.txBound, h.echoMaxLe, h.rxInv, h.txInv, h.beCopied,
    by have hl := h.legalPortL; revert hl; cases s.seqL <;> exact id, h.legalPortI, h.oneActivity⟩

/-! ### The word level -/

theorem witness_DecodeInvertsEncode :
    (Instr.write [] 0).wellFormed = true ∧ (Instr.write [1, 2, 3, 4, 5] 5).wellFormed = true ∧
    (Instr.init true false true 0 65535 1).wellFormed = true := by decide
theorem witness_EncodeInvertsDecode : decode [0x04000005, 0x40302010, 0x00000050, 7] =
    .command (.write [0x10, 0x20, 0x30, 0x40, 0x50] 5) [7] := by decide
theorem witness_CommandLengthFollowsHeader :
    opField 0x01070000 = 0x01 ∧ (opField 0x04000000 = 0x04 ∧ opField 0x0400FFFF = 0x04) ∧
    (opField 0x00000000 ≠ 0x01 ∧ opField 0x00000000 ≠ 0x04 ∧ opField 0xFF000000 ≠ 0x01 ∧ opField 0xFF000000 ≠ 0x04) := by
  decide
theorem witness_CommandLengthFollowsHeader_words :
    ([7, 7] : List Word).length = wordsAfter 0x01FFFFFF ∧ ([] : List Word).length = wordsAfter 0xFF000000 ∧
    ([7, 7] : List Word).length = wordsAfter 0x04000005 := by decide
theorem witness_IncompleteCommandWaits :
    ([7] : List Word).length < wordsAfter 0x01070000 ∧ ([] : List Word).length < wordsAfter 0x04000001 := by decide
theorem witness_FormatNHasNoOperand :
    (opField 0x03000000 = 0x03 ∧ (0x03000000 : Word).extractLsb' 0 24 = 0) ∧
    (opField 0x0C800000 = 0x0C ∧ (0x0C800000 : Word).extractLsb' 0 24 ≠ 0) := by decide
theorem witness_FormatBCarriesTheByte :
    (opField 0x020000FF = 0x02 ∧ (0x020000FF : Word).extractLsb' 8 16 = 0) ∧
    (opField 0x02000100 = 0x02 ∧ (0x02000100 : Word).extractLsb' 8 16 ≠ 0) := by decide
theorem witness_FormatHCarriesTheHalf :
    (opField 0x0500FFFF = 0x05 ∧ (0x0500FFFF : Word).extractLsb' 16 8 = 0) ∧
    (opField 0x05010000 = 0x05 ∧ (0x05010000 : Word).extractLsb' 16 8 ≠ 0) ∧
    (opField 0x0B000000 = 0x0B ∧ (0x0B000000 : Word).extractLsb' 16 8 = 0) ∧
    (opField 0x0BFF0010 = 0x0B ∧ (0x0BFF0010 : Word).extractLsb' 16 8 ≠ 0) := by decide
theorem witness_FormatICarriesTheInitOperands :
    (opField 0x01070000 = 0x01 ∧ (0x01070000 : Word).extractLsb' 0 16 = 0 ∧ (0x01070000 : Word).extractLsb' 19 5 = 0) ∧
    (opField 0x01080000 = 0x01 ∧ (0x01080000 : Word).extractLsb' 19 5 ≠ 0) ∧
    (opField 0x01070001 = 0x01 ∧ (0x01070001 : Word).extractLsb' 0 16 ≠ 0) := by decide
theorem witness_UnassignedOpcodeIsIllegal :
    opField 0x00FFFFFF = 0 ∧ 0x0C < (opField 0x0D000000).toNat ∧ 0x0C < (opField 0xFFFFFFFF).toNat := by decide
theorem witness_FormatWCarriesTheBytes :
    (opField 0x04000005 = 0x04 ∧ ([0x40302010, 0x00000050] : List Word).length = ((immField 0x04000005).toNat + 3) / 4 ∧
      (0x04000005 : Word).extractLsb' 16 8 = 0) ∧
    (∀ k, (immField 0x04000001).toNat ≤ k → lane (([0x00000050] : List Word).getD (k / 4) 0) (k % 4) = 0) ∧
    ((immField 0x04000005).toNat ≤ 5 ∧ lane (([0x40302010, 0x00000150] : List Word).getD (5 / 4) 0) (5 % 4) ≠ 0) ∧
    (opField 0x04010000 = 0x04 ∧ (0x04010000 : Word).extractLsb' 16 8 ≠ 0 ∧
      ([] : List Word).length = ((immField 0x04010000).toNat + 3) / 4) := by
  refine ⟨by decide, ?_, by decide, by decide⟩
  intro k hk
  rcases k with _ | _ | _ | _ | k
  · exact absurd hk (by decide)
  · decide
  · decide
  · decide
  · have h : (k + 4) / 4 = k / 4 + 1 := by omega
    simp [h, lane]

/-! ### Steps, ports and the start of a command -/

theorem witness_StepRunsTheDecodedCommand :
    (Instr.read 8).wellFormed = true ∧
    State.current (State.takeTurn { sample with order := [.L], cmdL := [0x05000008, 7] }) = .idle ∧
    State.commands (State.takeTurn { sample with order := [.L], cmdL := [0x05000008, 7] })
      (State.takeTurn { sample with order := [.L], cmdL := [0x05000008, 7] }).turn = encode (.read 8) ++ [7] := by decide
theorem witness_StepResumesOrIdles :
    Seq.instr (State.seqOf { sample with order := [.L, .I], seqL := .echoPump .ask } .L) = some .echoPump ∧
    (State.seqOf sample .I = .idle ∧ State.commands sample .I = []) := by decide
theorem witness_UndecodableCommandIsAnswered :
    State.seqOf { sample with order := [.I], cmdI := [0x00000000, 7] } .I = .idle ∧
    decode (State.commands { sample with order := [.I], cmdI := [0x00000000, 7] } .I) = .bad .illegalOpcode [7] ∧
    decode (State.commands { sample with order := [.I], cmdI := [0x03000001, 7] } .I) = .bad .reservedNonzero [7] := by decide
theorem witness_WrongPortIsAnswered :
    (onI sample).current = .idle ∧ takenOn (onI sample).turn .echoPump = false ∧
    sample.current = .idle ∧ takenOn sample.turn (.ingestReceivedByte 0) = false := by decide
theorem witness_UndefinedStartsFault :
    ((Instr.read 1).wellFormed = true ∧ (Instr.read 1).mnemonic ≠ "init" ∧ State.reset.current = .idle ∧
      takenOn State.reset.turn (.read 1) = true ∧ State.reset.status ≠ .ok) ∧ sample.readyAt .L :=
  ⟨by decide, sample_readyAt⟩
theorem witness_SecondTransmitActivityFaults :
    (State.readyAt { sample with seqI := .serviceTransmit .pop } .L ∧
      (State.seqOf { sample with seqI := .serviceTransmit .pop } (otherPort .L)).active = true ∧
      State.Inv { sample with seqI := .serviceTransmit .pop }) ∧
    (sample.turn = .L ∧ (Seq.serviceTransmit .ask).active = true ∧
      State.seqL { sample with seqI := .serviceTransmit .ask, seqL := .write [7] 1 1 .pushing } = .write [7] 1 1 .pushing ∧
      State.seqI { sample with seqI := .serviceTransmit .ask, seqL := .write [7] 1 1 .pushing } = .serviceTransmit .ask ∧
      ([7] : List Byte).length ≤ 1) ∧
    (State.seqL { sample with seqI := .serviceTransmit .ask, seqL := .echoPump (.writing 2 2 2 1 (.flushing .start)) } =
        .echoPump (.writing 2 2 2 1 (.flushing .start)) ∧
      State.seqI { sample with seqI := .serviceTransmit .ask, seqL := .echoPump (.writing 2 2 2 1 (.flushing .start)) } =
        .serviceTransmit .ask) :=
  ⟨⟨⟨rfl, rfl, rfl⟩, rfl, by decide, by decide, by decide, rfl, rfl, by decide, fun _ => sample_rx_inv,
    fun _ => sample_tx_inv, fun _ => rfl, rfl, ⟨rfl, by decide⟩, by decide⟩, by decide⟩
/-- For the frames over every `exec` that answers: a command of each port that answers, a command in flight, and a command
at the wrong port. -/
theorem witness_MicroStepLeavesTheOtherPortAlone :
    (∃ t, exec (.ingestReceivedByte 9) (onI sample) = .next t) ∧ (∃ t, exec (.read 2) sample = .next t) ∧
    (∃ t, exec .echoPump { sample with seqL := .echoPump .ask } = .next t) ∧
    (∃ t, exec .echoPump (onI sample) = .next t) :=
  ⟨⟨_, rfl⟩, ⟨_, rfl⟩, ⟨_, rfl⟩, ⟨_, rfl⟩⟩
theorem witness_OneResponsePerReturn :
    nextIs (exec (.read 1) sample) (fun t => t.current == .idle) = true ∧
    nextIs (exec (.read 2) sample) (fun t => t.current != .idle) = true := by decide
theorem witness_RegistersHaveTheirWriters :
    (∃ t, exec .overflowClear sample = .next t) ∧ (∃ t, exec (.setEchoChunkSize 1) sample = .next t) ∧
    (∃ t, exec .rxAvailableCount sample = .next t) ∧ (∃ t, exec (.write [1] 1) sample = .next t) ∧
    (∃ t, exec .serviceTransmit { sample with answers := [true] } = .next t) :=
  ⟨⟨_, rfl⟩, ⟨_, rfl⟩, ⟨_, rfl⟩, ⟨_, rfl⟩, ⟨_, rfl⟩⟩
theorem witness_OverflowOnlyGrows :
    nextIs (exec (.ingestReceivedByte 9) (onI full)) (fun t => t.ovf == 1) = true ∧
    (Instr.ingestReceivedByte 9).mnemonic ≠ "init" ∧ (Instr.ingestReceivedByte 9).mnemonic ≠ "overflowClear" := by decide

/-! ### FIFOs -/

theorem witness_MemoryReadsBackWhatWasWritten :
    (3 < (sample.fifo .tx).cap.toNat ∧ sample.byteAt (sample.fifo .tx).mem 3 = some 0x23 ∧ sample.txmem.wf) ∧
    (3 < (sample.fifo .rx).cap.toNat ∧ sample.byteAt (sample.fifo .rx).mem 3 = none ∧ sample.rxmem.wf) := by decide
theorem witness_CountsAddUpToCapacity :
    (sample.fifo .rx).cnt.toNat ≤ (sample.fifo .rx).cap.toNat ∧ (full.fifo .rx).cnt.toNat ≤ (full.fifo .rx).cap.toNat := by
  decide
theorem witness_PushStoresAtTheWriteIndex :
    (full.fifo .rx).cnt = (full.fifo .rx).cap ∧
    ((sample.fifo .rx).cnt ≠ (sample.fifo .rx).cap ∧ (sample.fifo .rx).wr.toNat < (sample.fifo .rx).cap.toNat) := by decide
theorem witness_PopTakesTheReadIndex :
    (empty.fifo .tx).cnt = 0 ∧
    ((sample.fifo .tx).cnt ≠ 0 ∧ (sample.fifo .tx).rd.toNat < (sample.fifo .tx).cap.toNat ∧
      sample.storedByte (sample.fifo .tx).mem (sample.fifo .tx).rd.toNat = 0x23) := by decide
theorem witness_FifoIsABoundedQueue :
    (sample.fifo .tx).Inv (sample.region (sample.fifo .tx).mem) ∧ (full.fifo .rx).Inv (full.region (full.fifo .rx).mem) ∧
    (empty.fifo .rx).Inv (empty.region (empty.fifo .rx).mem) :=
  ⟨sample_tx_inv, full_rx_inv, empty_rx_inv⟩
theorem witness_PushAndPopCommute :
    ((sample.fifo .tx).Inv (sample.region (sample.fifo .tx).mem) ∧ 0 < (sample.fifo .tx).cnt.toNat ∧
      (sample.fifo .tx).cnt.toNat < (sample.fifo .tx).cap.toNat) ∧
    ((empty.fifo .tx).Inv (empty.region (empty.fifo .tx).mem) ∧ (empty.fifo .tx).cnt.toNat = 0) ∧
    ((full.fifo .tx).Inv (full.region (full.fifo .tx).mem) ∧ (full.fifo .tx).cnt.toNat = (full.fifo .tx).cap.toNat) :=
  ⟨⟨sample_tx_inv, by decide, by decide⟩, ⟨empty_tx_inv, rfl⟩, full_tx_inv, rfl⟩

/-! ### `init`, `ingestReceivedByte`, `serviceTransmit` -/

theorem witness_RejectedInitWritesNothing :
    State.reset.turn = .L ∧ State.reset.seqL = .idle ∧ State.reset.status ≠ .ok := by decide
theorem witness_InitSetupWritesFirstValues :
    State.reset.turn = .L ∧ State.reset.seqL = .idle ∧ State.reset.status ≠ .ok ∧ (1 : Half) ≠ 0 ∧ (65535 : Half) ≠ 0 := by
  decide
theorem witness_InitReturnsTheBackendAnswer :
    (State.turn { State.reset with seqL := .init true true true 9600 4 4, answers := [true] } = .L ∧
      State.seqL { State.reset with seqL := .init true true true 9600 4 4, answers := [true] } =
        .init true true true 9600 4 4) ∧
    State.answers { State.reset with seqL := .init true true true 9600 4 4 } = [] := by decide
theorem witness_IngestStoresTheByte :
    (onI sample).readyAt .I ∧ (onI sample).rx.cnt ≠ (onI sample).rx.cap ∧
    (onI sample).rx.wr.toNat < (onI sample).rx.cap.toNat :=
  ⟨sample_readyAt_I, by decide, by decide⟩
theorem witness_IngestDropsTheNewestByte :
    ((onI full).readyAt .I ∧ (onI full).rx.cnt = (onI full).rx.cap) ∧
    (State.readyAt { onI full with ovf := 4294967295 } .I) :=
  ⟨⟨full_readyAt_I, rfl⟩, ⟨rfl, rfl, rfl⟩⟩
theorem witness_ServiceTransmitAsksFirst :
    (sample.readyAt .L ∧ (sample.seqOf (otherPort .L)).active = false ∧ sample.answers = []) ∧
    ((onI sample).readyAt .I ∧ ((onI sample).seqOf (otherPort .I)).active = false) ∧
    (State.turn { sample with seqL := .serviceTransmit .ask } = .L ∧
      State.seqOf { sample with seqL := .serviceTransmit .ask } .L = .serviceTransmit .ask) :=
  ⟨⟨sample_readyAt, rfl, rfl⟩, ⟨sample_readyAt_I, rfl⟩, rfl, rfl⟩
theorem witness_ServiceTransmitForwardsThePoppedByte :
    (State.seqOf { empty with seqL := .serviceTransmit .pop } .L = .serviceTransmit .pop ∧ empty.tx.cnt = 0) ∧
    (State.seqOf { sample with seqL := .serviceTransmit .pop } .L = .serviceTransmit .pop ∧ sample.tx.cnt ≠ 0 ∧
      sample.tx.rd.toNat < sample.tx.cap.toNat ∧ sample.storedByte sample.tx.mem sample.tx.rd.toNat = 0x23) ∧
    State.seqOf { sample with seqL := .serviceTransmit (.put 0x23) } .L = .serviceTransmit (.put 0x23) := by decide
theorem witness_ServiceTransmitDrainsInOrder :
    State.Inv { sample with answers := [true, true, true, false] } ∧
    State.readyAt { sample with answers := [true, true, true, false] } .L ∧
    (sample.seqOf (otherPort .L)).active = false ∧
    [true, true, true, false] = List.replicate (sample.tx.cnt.toNat + 1) true ++ [false] :=
  ⟨answers_inv _ _ sample_inv, ⟨rfl, rfl, rfl⟩, rfl, by decide⟩
theorem witness_RateLimitedDrainSendsOneByte :
    State.Inv { sample with answers := [true, false] } ∧ State.readyAt { sample with answers := [true, false] } .L ∧
    (sample.seqOf (otherPort .L)).active = false ∧ sample.tx.cnt ≠ 0 :=
  ⟨answers_inv _ _ sample_inv, ⟨rfl, rfl, rfl⟩, rfl, by decide⟩

/-! ### `write`, `read` and the commands of one micro-step -/

theorem witness_WriteStartsByPushing :
    (full.readyAt .L ∧ ([9] : List Byte).length = (1 : Half).toNat ∧ ([9] : List Byte)[0]? = some 9 ∧
      full.tx.cnt = full.tx.cap) ∧
    (sample.readyAt .L ∧ sample.turn = .L ∧ sample.tx.cnt ≠ sample.tx.cap ∧
      sample.tx.wr.toNat < sample.tx.cap.toNat) ∧
    (State.seqL { sample with seqL := .write [9, 8] 2 1 .pushing } = .write [9, 8] 2 1 .pushing ∧
      ([9, 8] : List Byte)[1]? = some 8) :=
  ⟨⟨full_readyAt, rfl, rfl, rfl⟩, ⟨sample_readyAt, by decide⟩, by decide⟩
theorem witness_WriteAlwaysFlushes :
    (sample.readyAt .L ∧ sample.turn = .L ∧ sample.seqI.active = false ∧ sample.answers = []) ∧
    (State.seqL { sample with seqL := .write [9, 8] 2 1 (.flushing .start) } = .write [9, 8] 2 1 (.flushing .start) ∧
      State.seqL { sample with seqL := .write [9] 1 1 .pushing } = .write [9] 1 1 .pushing ∧
      ([9] : List Byte).length ≤ 1 ∧
      State.seqL { sample with answers := [false], seqL := .write [9, 8] 2 1 (.flushing .ask) } =
        .write [9, 8] 2 1 (.flushing .ask)) ∧
    (State.seqL { empty with seqL := .write [9, 8] 2 1 (.flushing .pop) } = .write [9, 8] 2 1 (.flushing .pop) ∧
      empty.tx.cnt = 0) ∧
    (State.seqL { sample with seqL := .write [9, 8] 2 1 (.flushing .pop) } = .write [9, 8] 2 1 (.flushing .pop) ∧
      sample.tx.cnt ≠ 0 ∧ sample.tx.rd.toNat < sample.tx.cap.toNat ∧
      sample.storedByte sample.tx.mem sample.tx.rd.toNat = 0x23) ∧
    State.seqL { sample with seqL := .write [9, 8] 2 1 (.flushing (.put 7)) } = .write [9, 8] 2 1 (.flushing (.put 7)) :=
  ⟨⟨sample_readyAt, by decide⟩, by decide⟩
theorem witness_WriteReturnsTheShortCount :
    State.Inv { sample with answers := [false] } ∧ State.readyAt { sample with answers := [false] } .L ∧
    sample.seqI.active = false ∧ ([1, 2, 3] : List Byte).length = (3 : Half).toNat :=
  ⟨answers_inv _ _ sample_inv, ⟨rfl, rfl, rfl⟩, rfl, by decide⟩
theorem witness_WriteDeliversEverything :
    State.Inv { sample with answers := [true, true, true, true, true] } ∧
    State.readyAt { sample with answers := [true, true, true, true, true] } .L ∧ sample.seqI.active = false ∧
    ([1, 2] : List Byte).length = (2 : Half).toNat ∧ sample.tx.cnt.toNat + (2 : Half).toNat ≤ sample.tx.cap.toNat ∧
    [true, true, true, true, true] = List.replicate (sample.tx.cnt.toNat + (2 : Half).toNat + 1) true ++ [] :=
  ⟨answers_inv _ _ sample_inv, ⟨rfl, rfl, rfl⟩, rfl, by decide⟩
theorem witness_ReadPopsOneByte :
    (empty.turn = .L ∧ empty.seqL = .idle ∧ empty.status = .ok ∧ (1 : Half) ≠ 0 ∧ empty.rx.cnt = 0) ∧
    (State.seqL { sample with seqL := .read 2 [7] } = .read 2 [7] ∧ sample.rx.cnt ≠ 0 ∧
      sample.rx.rd.toNat < sample.rx.cap.toNat ∧ sample.storedByte sample.rx.mem sample.rx.rd.toNat = 0x11) := by decide
theorem witness_ReadOfNothingChangesNothing : sample.readyAt .L := sample_readyAt
theorem witness_ReadReturnsTheOldestBytes : sample.Inv ∧ sample.readyAt .L := ⟨sample_inv, sample_readyAt⟩
theorem witness_AccessorsAnswerTheirRegister : sample.readyAt .L ∧ (onI sample).readyAt .I :=
  ⟨sample_readyAt, sample_readyAt_I⟩
theorem witness_OverflowClearZeroesTheCounter : State.readyAt { sample with ovf := 4294967295 } .L := ⟨rfl, rfl, rfl⟩
theorem witness_SetEchoChunkSizeStoresTheOperand : sample.readyAt .L := sample_readyAt

/-! ### `echoPump` and the whole machine -/

theorem witness_EffectiveChunkIsBounded :
    32 ≤ (32 : Half).toNat ∧ ((64 : Half) ≠ 0 ∧ (64 : Half).toNat ≤ (64 : Half).toNat) ∧
    ((65535 : Half) ≠ 0 ∧ (64 : Half).toNat ≤ (65535 : Half).toNat) ∧ 0 < (1 : Half).toNat := by decide
theorem witness_EchoPumpAsksForTheCount :
    (empty.readyAt .L ∧ empty.rx.cnt = 0) ∧ (sample.readyAt .L ∧ sample.rx.cnt ≠ 0) ∧
    (sample.turn = .L ∧ State.seqL { sample with seqL := .echoPump .ask } = .echoPump .ask) :=
  ⟨⟨empty_readyAt, rfl⟩, ⟨sample_readyAt, by decide⟩, rfl, rfl⟩
theorem witness_EchoPumpStagesTheChunk :
    sample.turn = .L ∧
    (State.seqL { sample with seqL := .echoPump (.counted 2) } = .echoPump (.counted 2) ∧
      2 = min (2 : Half).toNat (effectiveChunk sample.echoCfg sample.echoMax)) ∧
    State.seqL { sample with seqL := .echoPump (.reading 3 3 63) } = .echoPump (.reading 3 3 63) ∧
    (sample.rx.cnt ≠ 0 ∧ sample.rx.rd.toNat < sample.rx.cap.toNat ∧
      sample.storedByte sample.rx.mem sample.rx.rd.toNat = 0x11 ∧ 63 < sample.echoMax.toNat) ∧
    (State.seqL { empty with seqL := .echoPump (.counted 1) } = .echoPump (.counted 1) ∧ empty.rx.cnt = 0 ∧
      State.seqL { empty with seqL := .echoPump (.reading 3 3 1) } = .echoPump (.reading 3 3 1)) := by decide
theorem witness_EchoPumpDropsWhatDoesNotFit :
    (State.seqL { full with echoTmp := [(0, 7)], seqL := .echoPump (.writing 1 1 1 0 .pushing) } =
        .echoPump (.writing 1 1 1 0 .pushing) ∧ 0 < full.echoMax.toNat ∧
      State.stagedByte { full with echoTmp := [(0, 7)], seqL := .echoPump (.writing 1 1 1 0 .pushing) } 0 = 7 ∧
      full.turn = .L ∧ full.tx.cnt = full.tx.cap) ∧
    (State.seqL { sample with echoTmp := [(0, 7)], seqL := .echoPump (.writing 1 1 1 0 .pushing) } =
        .echoPump (.writing 1 1 1 0 .pushing) ∧
      sample.tx.cnt ≠ sample.tx.cap ∧ sample.tx.wr.toNat < sample.tx.cap.toNat) ∧
    (State.seqL { sample with answers := [false], seqL := .echoPump (.writing 1 1 1 0 (.flushing .ask)) } =
        .echoPump (.writing 1 1 1 0 (.flushing .ask))) ∧
    (sample.seqI.active = false ∧
      State.seqL { sample with answers := [false], seqL := .echoPump (.writing 1 1 1 0 (.flushing .start)) } =
        .echoPump (.writing 1 1 1 0 (.flushing .start)) ∧
      State.seqL { sample with answers := [false], seqL := .echoPump (.writing 1 1 1 1 .pushing) } =
        .echoPump (.writing 1 1 1 1 .pushing) ∧ (1 : Nat) ≤ 1) ∧
    (State.seqL { empty with seqL := .echoPump (.writing 1 1 1 1 (.flushing .pop)) } =
        .echoPump (.writing 1 1 1 1 (.flushing .pop)) ∧ empty.turn = .L ∧ empty.tx.cnt = 0) := by decide
theorem witness_EchoPumpFlushForwards :
    (sample.turn = .L ∧ sample.seqI.active = false ∧ sample.answers = [] ∧
      State.seqL { sample with seqL := .echoPump (.writing 1 1 1 0 (.flushing .start)) } =
        .echoPump (.writing 1 1 1 0 (.flushing .start)) ∧
      State.seqL { sample with answers := [true], seqL := .echoPump (.writing 1 1 1 1 .pushing) } =
        .echoPump (.writing 1 1 1 1 .pushing) ∧ (1 : Nat) ≤ 1 ∧
      State.seqL { sample with answers := [true], seqL := .echoPump (.writing 1 1 1 1 (.flushing .ask)) } =
        .echoPump (.writing 1 1 1 1 (.flushing .ask))) ∧
    (State.seqL { sample with seqL := .echoPump (.writing 1 1 1 1 (.flushing .pop)) } =
        .echoPump (.writing 1 1 1 1 (.flushing .pop)) ∧ sample.tx.cnt ≠ 0 ∧
      sample.tx.rd.toNat < sample.tx.cap.toNat ∧ sample.storedByte sample.tx.mem sample.tx.rd.toNat = 0x23) ∧
    State.seqL { sample with seqL := .echoPump (.writing 1 1 1 1 (.flushing (.put 7))) } =
      .echoPump (.writing 1 1 1 1 (.flushing (.put 7))) := by decide
theorem witness_EchoPumpMovesWhatFits :
    State.Inv { sample with answers := [false, false, true] } ∧
    State.readyAt { sample with answers := [false, false, true] } .L ∧ sample.seqI.active = false ∧
    [false, false, true] = List.replicate sample.rx.cnt.toNat false ++ [true] :=
  ⟨answers_inv _ _ sample_inv, ⟨rfl, rfl, rfl⟩, rfl, by decide⟩
/-- A state with a command in flight that meets the invariant and steps. -/
theorem witness_StepKeepsTheInvariant :
    sample.Inv ∧ full.Inv ∧ empty.Inv ∧
    (∃ t, step { sample with order := [.L], seqL := .echoPump .ask } = .next t) ∧
    State.Inv { sample with order := [.L], seqL := .echoPump .ask } :=
  ⟨sample_inv, full_inv, empty_inv, ⟨_, rfl⟩,
    by decide, by decide, by decide, rfl, rfl, by decide, fun _ => sample_rx_inv, fun _ => sample_tx_inv,
    fun _ => rfl, ⟨rfl, rfl⟩, trivial, by decide⟩
theorem witness_OnlyUndefinedConditionsStop : sample.Inv := sample_inv
theorem witness_TransmitSideKeepsEveryByte :
    State.Inv { sample with order := [.L], seqL := .serviceTransmit .pop } ∧ sample.status = .ok ∧
    (∃ t, step { sample with order := [.L], seqL := .serviceTransmit .pop } = .next t) :=
  ⟨⟨by decide, by decide, by decide, rfl, rfl, by decide, fun _ => sample_rx_inv, fun _ => sample_tx_inv,
    fun _ => rfl, ⟨rfl, by decide, rfl⟩, trivial, by decide⟩, rfl, ⟨_, rfl⟩⟩
theorem witness_PortINeverTakesFromRx :
    State.Inv (onI sample) ∧ (onI sample).turn = .I ∧ (onI sample).status = .ok ∧
    (∃ t, exec (.ingestReceivedByte 9) (onI sample) = .next t) :=
  ⟨⟨by decide, by decide, by decide, rfl, rfl, by decide, fun _ => sample_rx_inv, fun _ => sample_tx_inv,
    fun _ => rfl, rfl, trivial, by decide⟩, rfl, rfl, ⟨_, rfl⟩⟩

end Sys2Proof.Tests
end

/-! # The word level: proofs

The laws of the length rule, of one header with its words, of each format's header and of the unpacked payload; then the
statements of spec/30_encoding.md, each assembled from them. -/

namespace Sys2Proof

/-! ## How many words follow a header (R97) -/

theorem wordsAfter_init {cw : Word} (hop : opField cw = 0x01) : wordsAfter cw = 2 := by
  simp [wordsAfter, hop]

theorem wordsAfter_write {cw : Word} (hop : opField cw = 0x04) :
    wordsAfter cw = ((immField cw).toNat + 3) / 4 := by
  simp [wordsAfter, payloadWords, hop]

theorem wordsAfter_other {cw : Word} (hinit : opField cw ≠ 0x01) (hwrite : opField cw ≠ 0x04) :
    wordsAfter cw = 0 := by
  unfold wordsAfter
  split
  next h => exact absurd (BitVec.eq_of_toNat_eq h) hinit
  next h => exact absurd (BitVec.eq_of_toNat_eq h) hwrite
  next => rfl

/-! ## A must-be-zero field (R104, R105) -/

theorem ifZero_of_eq_zero {n : Nat} {field : BitVec n} (h : field = 0) (d : Except CmdError Instr) :
    ifZero field d = d := if_pos h

theorem ifZero_of_ne_zero {n : Nat} {field : BitVec n} (h : field ≠ 0) (d : Except CmdError Instr) :
    ifZero field d = .error .reservedNonzero := if_neg h

/-! ## One header with exactly its words -/

section OneCommand

variable {cw : Word} {after : List Word}

theorem decode_of_header_ok {i : Instr} (hlen : after.length = wordsAfter cw)
    (hd : decodeHeader cw after = .ok i) (rest : List Word) :
    decode (cw :: (after ++ rest)) = .command i rest := by
  have hall : hasAtLeast after.length (after ++ rest) = true := (hasAtLeast_iff _ _).2 (by simp)
  simp [decode, ← hlen, hall, hd]

theorem decode_of_header_error {e : CmdError} (hlen : after.length = wordsAfter cw)
    (hd : decodeHeader cw after = .error e) (rest : List Word) :
    decode (cw :: (after ++ rest)) = .bad e rest := by
  have hall : hasAtLeast after.length (after ++ rest) = true := (hasAtLeast_iff _ _).2 (by simp)
  simp [decode, ← hlen, hall, hd]

/-- A header behind one must-be-zero field: its command when the field is 0, the error 2 when it is not. All the formats
but I and W have this shape. -/
theorem decode_of_header_ifZero {n : Nat} {field : BitVec n} {i : Instr} (hlen : after.length = wordsAfter cw)
    (hd : decodeHeader cw after = ifZero field (.ok i)) (rest : List Word) :
    (field = 0 → decode (cw :: (after ++ rest)) = .command i rest) ∧
    (field ≠ 0 → decode (cw :: (after ++ rest)) = .bad .reservedNonzero rest) :=
  ⟨fun h0 => decode_of_header_ok hlen (hd.trans (ifZero_of_eq_zero h0 _)) rest,
    fun h0 => decode_of_header_error hlen (hd.trans (ifZero_of_ne_zero h0 _)) rest⟩

end OneCommand

/-- The case of `decode_of_header_ifZero` in which the header is the whole command. -/
theorem decode_oneWord_ifZero {cw : Word} {n : Nat} {field : BitVec n} {i : Instr} (hinit : opField cw ≠ 0x01)
    (hwrite : opField cw ≠ 0x04) (hd : decodeHeader cw [] = ifZero field (.ok i)) (rest : List Word) :
    (field = 0 → decode (cw :: rest) = .command i rest) ∧
    (field ≠ 0 → decode (cw :: rest) = .bad .reservedNonzero rest) :=
  decode_of_header_ifZero (after := []) (wordsAfter_other hinit hwrite).symm hd rest

/-! ## The headers of the formats (R92 to R96, R100) -/

/-- The rows of format N in the opcode map: an opcode and its command without operand (R92, R100). -/
def formatNRows : List (BitVec 8 × Instr) :=
  [(0x03, .serviceTransmit), (0x06, .rxAvailableCount), (0x07, .txQueuedCount), (0x08, .echoPump),
    (0x09, .overflowCount), (0x0A, .overflowClear), (0x0C, .getEchoChunkSize)]

theorem formatNRows_opcode_ne : ∀ row ∈ formatNRows, row.1 ≠ 0x01 ∧ row.1 ≠ 0x04 := by decide

section Headers

variable {cw : Word} {after : List Word}

theorem decodeHeader_formatN {i : Instr} (hrow : (opField cw, i) ∈ formatNRows) :
    decodeHeader cw after = ifZero (cw.extractLsb' 0 24) (.ok i) := by
  simp only [formatNRows, List.mem_cons, List.not_mem_nil, or_false, Prod.mk.injEq] at hrow
  obtain ⟨hop, rfl⟩ | ⟨hop, rfl⟩ | ⟨hop, rfl⟩ | ⟨hop, rfl⟩ | ⟨hop, rfl⟩ | ⟨hop, rfl⟩ | ⟨hop, rfl⟩ := hrow <;>
    simp [decodeHeader, hop]

theorem decodeHeader_init (hop : opField cw = 0x01) :
    decodeHeader cw after = ifZero (cw.extractLsb' 0 16) (ifZero (cw.extractLsb' 19 5) (.ok
      (.init (cw.getLsbD 16) (cw.getLsbD 17) (cw.getLsbD 18) (after.getD 0 0)
        ((after.getD 1 0).extractLsb' 16 16) ((after.getD 1 0).extractLsb' 0 16)))) := by
  simp [decodeHeader, hop]

theorem decodeHeader_ingestReceivedByte (hop : opField cw = 0x02) :
    decodeHeader cw after = ifZero (cw.extractLsb' 8 16) (.ok (.ingestReceivedByte (cw.extractLsb' 0 8))) := by
  simp [decodeHeader, hop]

theorem decodeHeader_write (hop : opField cw = 0x04) :
    decodeHeader cw after = ifZero (cw.extractLsb' 16 8) (decodeWrite (immField cw) after) := by
  simp [decodeHeader, hop]

theorem decodeHeader_read (hop : opField cw = 0x05) :
    decodeHeader cw after = ifZero (cw.extractLsb' 16 8) (.ok (.read (immField cw))) := by
  simp [decodeHeader, hop]

theorem decodeHeader_setEchoChunkSize (hop : opField cw = 0x0B) :
    decodeHeader cw after = ifZero (cw.extractLsb' 16 8) (.ok (.setEchoChunkSize (immField cw))) := by
  simp [decodeHeader, hop]

end Headers

/-! ## The bytes of a payload (R95, R99) -/

@[simp] theorem lane_zero (k : Nat) : lane 0#32 k = 0#8 := by simp [lane]

/-- R99: byte `k` of the unpacked words is lane `k mod 4` of word `floor(k / 4)`, and 0 beyond the last word. -/
theorem unpackWords_getD (ws : List Word) (k : Nat) :
    (unpackWords ws).getD k 0 = lane (ws.getD (k / 4) 0) (k % 4) := by
  induction ws generalizing k with
  | nil => simp [unpackWords]
  | cons w ws ih =>
    match k with
    | 0 | 1 | 2 | 3 => rfl
    | k + 4 =>
      have hword : (k + 4) / 4 = k / 4 + 1 := by omega
      have hlane : (k + 4) % 4 = k % 4 := by omega
      rw [hword, hlane]
      exact ih k

/-- Every byte from place `n` on is 0, said of the list's tail and said of its places. -/
theorem drop_all_zero_iff (bytes : List Byte) (n : Nat) :
    (bytes.drop n).all (fun b => b == 0) = true ↔ ∀ k, n ≤ k → bytes.getD k 0 = 0 := by
  simp only [List.all_eq_true, beq_iff_eq, List.mem_iff_getElem?, List.getElem?_drop, forall_exists_index,
    List.getD_eq_getElem?_getD]
  constructor
  · intro hzero k hk
    cases hb : bytes[k]? with
    | none => rfl
    | some b => exact hzero b (k - n) (by rwa [Nat.add_sub_cancel' hk])
  · intro hzero b j hb
    simpa [hb] using hzero (n + j) (Nat.le_add_right n j)

theorem decodeWrite_ok {length : Half} {payload : List Word}
    (hzero : ∀ k, length.toNat ≤ k → lane (payload.getD (k / 4) 0) (k % 4) = 0) :
    decodeWrite length payload = .ok (.write ((unpackWords payload).take length.toNat) length) :=
  if_pos ((drop_all_zero_iff _ _).2 fun k hk => (unpackWords_getD payload k).trans (hzero k hk))

theorem decodeWrite_error {length : Half} {payload : List Word}
    (hlane : ∃ k, length.toNat ≤ k ∧ lane (payload.getD (k / 4) 0) (k % 4) ≠ 0) :
    decodeWrite length payload = .error .reservedNonzero := by
  obtain ⟨k, hk, hne⟩ := hlane
  refine if_neg fun hall => hne ?_
  rw [← unpackWords_getD]
  exact (drop_all_zero_iff _ _).1 hall k hk

/-- `ceil(n / 4)` payload words hold at least `n` bytes. -/
theorem length_take_unpackWords {payload : List Word} {n : Nat} (hlen : payload.length = (n + 3) / 4) :
    ((unpackWords payload).take n).length = n := by
  rw [List.length_take, unpackWords_length]
  omega

theorem getD_take_unpackWords (payload : List Word) {n k : Nat} (hk : k < n) :
    ((unpackWords payload).take n).getD k 0 = lane (payload.getD (k / 4) 0) (k % 4) := by
  rw [← unpackWords_getD, List.getD_eq_getElem?_getD, List.getD_eq_getElem?_getD, List.getElem?_take_of_lt hk]

/-! ## The statements -/

/-- Settles O11: the unpacked payload, cut at `length`, is the data; the must-be-zero field is looked at first. -/
theorem formatWCarriesTheBytes : Obligations.FormatWCarriesTheBytes := by
  intro cw payload rest hop hpayload
  have hlen : payload.length = wordsAfter cw := hpayload.trans (wordsAfter_write hop).symm
  refine ⟨fun hflags hzero => ?_, fun hflags hlane => ?_, fun hflags => ?_⟩
  · have hd : decodeHeader cw payload =
        .ok (.write ((unpackWords payload).take (immField cw).toNat) (immField cw)) := by
      rw [decodeHeader_write hop, ifZero_of_eq_zero hflags, decodeWrite_ok hzero]
    exact ⟨_, decode_of_header_ok hlen hd rest, length_take_unpackWords hpayload,
      fun k hk => getD_take_unpackWords payload hk⟩
  · have hd : decodeHeader cw payload = .error .reservedNonzero := by
      rw [decodeHeader_write hop, ifZero_of_eq_zero hflags, decodeWrite_error hlane]
    exact decode_of_header_error hlen hd rest
  · have hd : decodeHeader cw payload = .error .reservedNonzero := by
      rw [decodeHeader_write hop, ifZero_of_ne_zero hflags]
    exact decode_of_header_error hlen hd rest

/-- Settles O3: the last clause holds because `decodeHeader` answers whatever words it is given. -/
theorem commandLengthFollowsHeader : Obligations.CommandLengthFollowsHeader := by
  intro cw
  refine ⟨fun hop => by rw [wordsAfter_init hop], fun hop => by rw [wordsAfter_write hop],
    fun hinit hwrite => by rw [wordsAfter_other hinit hwrite], fun after rest hlen => ?_⟩
  cases hd : decodeHeader cw after with
  | ok i => exact .inl ⟨i, decode_of_header_ok hlen hd rest⟩
  | error e => exact .inr ⟨e, decode_of_header_error hlen hd rest⟩

/-- Settles O5: every row of format N is one word behind one must-be-zero field. -/
theorem formatNHasNoOperand : Obligations.FormatNHasNoOperand := by
  rintro cw rest _ i hrow rfl
  obtain ⟨hinit, hwrite⟩ := formatNRows_opcode_ne _ hrow
  exact decode_oneWord_ifZero hinit hwrite (decodeHeader_formatN hrow) rest

/-- Settles O6. -/
theorem formatBCarriesTheByte : Obligations.FormatBCarriesTheByte := by
  intro cw rest hop
  exact decode_oneWord_ifZero (by simp [hop]) (by simp [hop]) (decodeHeader_ingestReceivedByte hop) rest

/-- Settles O7. -/
theorem formatHCarriesTheHalf : Obligations.FormatHCarriesTheHalf := by
  intro cw rest
  constructor
  · intro hop
    exact decode_oneWord_ifZero (by simp [hop]) (by simp [hop]) (decodeHeader_read hop) rest
  · intro hop
    exact decode_oneWord_ifZero (by simp [hop]) (by simp [hop]) (decodeHeader_setEchoChunkSize hop) rest

/-- Settles O8: both fields of the header are looked at before the operands, and all three words are taken either way. -/
theorem formatICarriesTheInitOperands : Obligations.FormatICarriesTheInitOperands := by
  intro cw w1 w2 rest hop
  have hlen : [w1, w2].length = wordsAfter cw := (wordsAfter_init hop).symm
  constructor
  · intro hlow hhigh
    refine decode_of_header_ok hlen ?_ rest
    rw [decodeHeader_init hop, ifZero_of_eq_zero hlow, ifZero_of_eq_zero hhigh]
    rfl
  · intro hfield
    refine decode_of_header_error hlen ?_ rest
    rw [decodeHeader_init hop]
    by_cases hlow : cw.extractLsb' 0 16 = 0
    · have hhigh : cw.extractLsb' 19 5 ≠ 0 := hfield.resolve_left (not_not_intro hlow)
      rw [ifZero_of_eq_zero hlow, ifZero_of_ne_zero hhigh]
    · rw [ifZero_of_ne_zero hlow]

end Sys2Proof

/-! # One FIFO: a push and a pop

What a successful push and a successful pop of one FIFO do, each said once as a state; that the two states commute; then the
statement R129 of spec/40_ringbuffer.md, assembled from them. -/

namespace Sys2Proof.Machine

/-! ## Two updates in a row -/

@[simp] theorem State.setFifo_setFifo (s : State) (f : FifoId) (q q' : Fifo) :
    (s.setFifo f q).setFifo f q' = s.setFifo f q' := by
  cases f <;> rfl

theorem State.setRegion_setFifo (s : State) (f : FifoId) (q : Fifo) (r : Region) (m : Memory) :
    (s.setFifo f q).setRegion r m = (s.setRegion r m).setFifo f q := by
  cases f <;> cases r <;> rfl

/-! ## The two conditions of a FIFO, read off its count (R39) -/

theorem Fifo.full_eq_false {q : Fifo} (h : q.cnt.toNat ≠ q.cap.toNat) : q.full = false :=
  Bool.eq_false_iff.2 (mt q.full_iff.1 h)

theorem Fifo.empty_eq_false {q : Fifo} (h : q.cnt.toNat ≠ 0) : q.empty = false :=
  Bool.eq_false_iff.2 (mt q.empty_iff.1 h)

theorem poppedFifo_full_eq_false {q : Fifo} (hpos : 0 < q.cnt.toNat) (hle : q.cnt.toNat ≤ q.cap.toNat) :
    (poppedFifo q).full = false :=
  Fifo.full_eq_false (by simp only [poppedFifo]; bv_omega)

theorem pushedFifo_empty_eq_false {q : Fifo} (hroom : q.cnt.toNat < q.cap.toNat) : (pushedFifo q).empty = false :=
  Fifo.empty_eq_false (by simp only [pushedFifo]; bv_omega)

/-- A push moves the write index and a pop the read index; the count goes up and down, in either order. -/
theorem poppedFifo_pushedFifo (q : Fifo) : poppedFifo (pushedFifo q) = pushedFifo (poppedFifo q) := by
  simp [poppedFifo, pushedFifo]

/-! ## The states after a successful push and after a successful pop -/

/-- The state after a successful push (R124). -/
def State.pushed (s : State) (f : FifoId) (b : Byte) : State :=
  (s.setRegion (s.fifo f).mem ((s.region (s.fifo f).mem).write (s.fifo f).wr.toNat b)).setFifo f (pushedFifo (s.fifo f))

/-- The state after a successful pop (R125). -/
def State.popped (s : State) (f : FifoId) : State := s.setFifo f (poppedFifo (s.fifo f))

/-- The byte a pop finds at the read index (R125). -/
def State.byteAtRead (s : State) (f : FifoId) : Byte := s.storedByte (s.fifo f).mem (s.fifo f).rd.toNat

@[simp] theorem State.fifo_pushed (s : State) (f : FifoId) (b : Byte) :
    (s.pushed f b).fifo f = pushedFifo (s.fifo f) := by
  simp [State.pushed]

@[simp] theorem State.fifo_popped (s : State) (f : FifoId) : (s.popped f).fifo f = poppedFifo (s.fifo f) := by
  simp [State.popped]

/-- A pop leaves the storage and the write index alone, so the byte lands at the same address before it and after it. -/
theorem State.popped_pushed (s : State) (f : FifoId) (b : Byte) :
    (s.pushed f b).popped f = (s.popped f).pushed f b := by
  simp only [State.pushed, State.popped, State.fifo_setFifo_same, State.region_setFifo,
    State.setRegion_setFifo, State.setFifo_setFifo, poppedFifo_pushedFifo]
  rfl

theorem State.storedByte_pushed (s : State) (f : FifoId) (b : Byte) (r : Region) (a : Nat) :
    (s.pushed f b).storedByte r a =
      if r = (s.fifo f).mem ∧ a = (s.fifo f).wr.toNat then b else s.storedByte r a := by
  simp only [State.storedByte, State.pushed, State.byteAt_setFifo, State.byteAt_setRegion_write]
  split <;> rfl

/-- A push changes the byte under the read index only where the two indices meet. -/
theorem State.byteAtRead_pushed (s : State) (f : FifoId) (b : Byte) :
    (s.pushed f b).byteAtRead f =
      if (s.fifo f).rd.toNat = (s.fifo f).wr.toNat then b else s.byteAtRead f := by
  simp [State.byteAtRead, State.storedByte_pushed, pushedFifo]

theorem push_eq_pushed {f : FifoId} {s : State} (b : Byte) (hfull : (s.fifo f).full = false)
    (hwr : (s.fifo f).wr.toNat < (s.fifo f).cap.toNat) : push f b s = .ok (true, s.pushed f b) :=
  push_room f b s hfull hwr

theorem pop_eq_popped {f : FifoId} {s : State} (hempty : (s.fifo f).empty = false)
    (hrd : (s.fifo f).rd.toNat < (s.fifo f).cap.toNat) : pop f s = .ok (some (s.byteAtRead f), s.popped f) :=
  pop_some f s _ hempty hrd rfl

/-! ## Where the two indices meet (R36) -/

theorem Fifo.Inv.rd_eq_wr_of_empty {q : Fifo} {m : Memory} (h : q.Inv m) (h0 : q.cnt.toNat = 0) :
    q.rd.toNat = q.wr.toNat := by
  rw [h.wrEq, h0, Nat.add_zero, Nat.mod_eq_of_lt h.rdLt]

theorem Fifo.Inv.rd_ne_wr {q : Fifo} {m : Memory} (h : q.Inv m) (hpos : 0 < q.cnt.toNat)
    (hroom : q.cnt.toNat < q.cap.toNat) : q.rd.toNat ≠ q.wr.toNat := by
  have hne := ring_index_ne (r := q.rd.toNat) hpos hroom
  rwa [Nat.add_zero, Nat.mod_eq_of_lt h.rdLt, ← h.wrEq] at hne

/-! ## A push and a pop in a row -/

section InARow

variable {f : FifoId} {s : State} (h : (s.fifo f).Inv (s.region (s.fifo f).mem))
include h

theorem Fifo.Inv.push_then_pop (b : Byte) (hroom : (s.fifo f).cnt.toNat < (s.fifo f).cap.toNat) :
    push f b s = .ok (true, s.pushed f b) ∧
    pop f (s.pushed f b) = .ok (some ((s.pushed f b).byteAtRead f), (s.pushed f b).popped f) := by
  have hempty : ((s.pushed f b).fifo f).empty = false := by rw [State.fifo_pushed]; exact pushedFifo_empty_eq_false hroom
  have hrd : ((s.pushed f b).fifo f).rd.toNat < ((s.pushed f b).fifo f).cap.toNat := by
    rw [State.fifo_pushed]; exact h.rdLt
  exact ⟨push_eq_pushed b (Fifo.full_eq_false hroom.ne) h.wrLt, pop_eq_popped hempty hrd⟩

theorem Fifo.Inv.pop_then_push (b : Byte) (hpos : 0 < (s.fifo f).cnt.toNat) :
    pop f s = .ok (some (s.byteAtRead f), s.popped f) ∧
    push f b (s.popped f) = .ok (true, (s.popped f).pushed f b) := by
  have hfull : ((s.popped f).fifo f).full = false := by
    rw [State.fifo_popped]; exact poppedFifo_full_eq_false hpos h.cntLe
  have hwr : ((s.popped f).fifo f).wr.toNat < ((s.popped f).fifo f).cap.toNat := by
    rw [State.fifo_popped]; exact h.wrLt
  exact ⟨pop_eq_popped (Fifo.empty_eq_false hpos.ne') h.rdLt, push_eq_pushed b hfull hwr⟩

end InARow

end Sys2Proof.Machine

namespace Sys2Proof

open Machine

/-- Settles O28: strictly between the ends the read index is not the write index, so the pop finds the same byte before the
push and after it; at `cnt = 0` the two indices meet, and the pop finds the pushed byte. -/
theorem pushAndPopCommute : Obligations.PushAndPopCommute := by
  intro f b s h
  refine ⟨fun hpos hroom => ?_, fun h0 => ⟨pop_empty f s ((Fifo.empty_iff _).2 h0), ?_⟩,
    fun hcap => ⟨push_full f b s ((Fifo.full_iff _).2 hcap), ?_⟩⟩
  · obtain ⟨hpush, hpop⟩ := h.push_then_pop b hroom
    obtain ⟨hpop', hpush'⟩ := h.pop_then_push b hpos
    rw [State.byteAtRead_pushed, if_neg (h.rd_ne_wr hpos hroom)] at hpop
    rw [← State.popped_pushed] at hpush'
    exact ⟨_, _, _, _, hpush, hpop, hpop', hpush'⟩
  · obtain ⟨hpush, hpop⟩ := h.push_then_pop b (h0 ▸ h.capPos)
    rw [State.byteAtRead_pushed, if_pos (h.rd_eq_wr_of_empty h0)] at hpop
    exact ⟨_, _, hpush, hpop⟩
  · exact ⟨_, _, _, h.pop_then_push b (hcap ▸ h.capPos)⟩

end Sys2Proof

/-! # The word level: the decoder and the encoder are inverse

What a header says of its fields, in both directions; then the round trips of spec/30_encoding.md R106 and R107, each by the
rows of the opcode map. -/

namespace Sys2Proof

/-! ## Fields of a word -/

/-- A field inside a field of zeros is 0. -/
theorem extractLsb'_eq_zero_of_subfield {n m a b : Nat} {w : Word} (h : w.extractLsb' a n = 0) (hlo : a ≤ b)
    (hhi : b + m ≤ a + n) : w.extractLsb' b m = 0 := by
  ext k hk
  have hbit : (w.extractLsb' a n).getLsbD (b - a + k) = false := by rw [h]; simp
  rw [BitVec.getLsbD_extractLsb', decide_eq_true (by omega : b - a + k < n), Bool.true_and,
    (by omega : a + (b - a + k) = b + k)] at hbit
  simp [hbit]

/-- A word with a known opcode, flags and imm16 is the header of them. -/
theorem eq_headerOf {cw : Word} {op flags : BitVec 8} {imm : Half} (hop : opField cw = op)
    (hflags : cw.extractLsb' 16 8 = flags) (himm : immField cw = imm) : cw = headerOf op flags imm := by
  rw [← hop, ← hflags, ← himm, headerOf_fields]

theorem eq_headerOf_of_low24 {cw : Word} {op : BitVec 8} (hop : opField cw = op) (h : cw.extractLsb' 0 24 = 0) :
    cw = headerOf op 0 0 :=
  eq_headerOf hop (extractLsb'_eq_zero_of_subfield h (by omega) (by omega))
    (extractLsb'_eq_zero_of_subfield h (by omega) (by omega))

theorem eq_headerOf_of_mid16 {cw : Word} {op : BitVec 8} (hop : opField cw = op) (h : cw.extractLsb' 8 16 = 0) :
    cw = headerOf op 0 ((cw.extractLsb' 0 8).zeroExtend 16) := by
  refine eq_headerOf hop (extractLsb'_eq_zero_of_subfield h (by omega) (by omega)) ?_
  ext k hk
  by_cases hlow : k < 8
  · simp [immField, hlow]
  · have hbit : (cw.extractLsb' 8 16).getLsbD (k - 8) = false := by rw [h]; simp
    rw [BitVec.getLsbD_extractLsb', decide_eq_true (by omega : k - 8 < 16), Bool.true_and,
      (by omega : 8 + (k - 8) = k)] at hbit
    simp [immField, hlow, hbit]

/-- The presence flags of an `init` (R96). -/
def initFlags (be rxs txs : Bool) : BitVec 8 := flagBit be 0 ||| flagBit rxs 1 ||| flagBit txs 2

theorem initFlags_getLsbD (be rxs txs : Bool) :
    (headerOf 0x01 (initFlags be rxs txs) 0).getLsbD 16 = be ∧
    (headerOf 0x01 (initFlags be rxs txs) 0).getLsbD 17 = rxs ∧
    (headerOf 0x01 (initFlags be rxs txs) 0).getLsbD 18 = txs ∧
    (headerOf 0x01 (initFlags be rxs txs) 0).extractLsb' 19 5 = 0 := by
  revert be rxs txs
  decide

theorem flagBit_getLsbD (b : Bool) {k j : Nat} (hk : k < 3) (hj : j < 8) :
    (flagBit b k).getLsbD j = (b && decide (j = k)) := by
  cases b
  · simp [flagBit]
  · interval_cases k <;> interval_cases j <;> decide

theorem eq_headerOf_init {cw : Word} (hop : opField cw = 0x01) (hlow : cw.extractLsb' 0 16 = 0)
    (hhigh : cw.extractLsb' 19 5 = 0) :
    cw = headerOf 0x01 (initFlags (cw.getLsbD 16) (cw.getLsbD 17) (cw.getLsbD 18)) 0 := by
  refine eq_headerOf hop ?_ hlow
  have hreserved : ∀ j, j < 5 → cw.getLsbD (19 + j) = false := fun j hj => by
    have hbit : (cw.extractLsb' 19 5).getLsbD j = false := by rw [hhigh]; simp
    simpa only [BitVec.getLsbD_extractLsb', hj, decide_true, Bool.true_and] using hbit
  ext k hk
  rw [← BitVec.getLsbD_eq_getElem, ← BitVec.getLsbD_eq_getElem, BitVec.getLsbD_extractLsb']
  rw [initFlags, BitVec.getLsbD_or, BitVec.getLsbD_or, flagBit_getLsbD _ (by omega) hk,
    flagBit_getLsbD _ (by omega) hk, flagBit_getLsbD _ (by omega) hk, decide_eq_true hk, Bool.true_and]
  by_cases hlt : k < 3
  · interval_cases k <;> simp
  · have hzero := hreserved (k - 3) (by omega)
    rw [(by omega : 19 + (k - 3) = 16 + k)] at hzero
    simp [hzero, decide_eq_false (by omega : ¬ k = 0), decide_eq_false (by omega : ¬ k = 1),
      decide_eq_false (by omega : ¬ k = 2)]

theorem halves_append (hi lo : Half) :
    (hi ++ lo : Word).extractLsb' 16 16 = hi ∧ (hi ++ lo : Word).extractLsb' 0 16 = lo := by
  constructor <;>
  · ext k hk
    rw [← BitVec.getLsbD_eq_getElem, ← BitVec.getLsbD_eq_getElem, BitVec.getLsbD_extractLsb']
    erw [BitVec.getLsbD_append]
    simp [hk]

theorem append_halves (w : Word) : (w.extractLsb' 16 16 ++ w.extractLsb' 0 16 : Word) = w := by
  ext k hk
  rw [← BitVec.getLsbD_eq_getElem, ← BitVec.getLsbD_eq_getElem]
  erw [BitVec.getLsbD_append]
  simp only [BitVec.getLsbD_extractLsb']
  by_cases hlow : k < 16
  · simp [hlow]
  · simp [hlow, (by omega : 16 + (k - 16) = k), (by omega : k - 16 < 16)]

/-! ## Packing and unpacking (R99) -/

theorem packBytes_length : ∀ bytes : List Byte, (packBytes bytes).length = (bytes.length + 3) / 4
  | [] => rfl
  | [_] => by simp [packBytes]
  | [_, _] => by simp [packBytes]
  | [_, _, _] => by simp [packBytes]
  | _ :: _ :: _ :: _ :: rest => by simp [packBytes, packBytes_length rest]; omega

/-- Bytes followed by zeros have the same byte, or 0, in every place. -/
theorem getD_append_zeros {bytes z : List Byte} (hz : ∀ b ∈ z, b = 0) (k : Nat) :
    (bytes ++ z).getD k 0 = bytes.getD k 0 := by
  simp only [List.getD_eq_getElem?_getD, List.getElem?_append]
  split
  · rfl
  · rename_i hk
    rw [List.getElem?_eq_none (Nat.le_of_not_lt hk)]
    cases hb : z[k - bytes.length]? with
    | none => rfl
    | some b => exact hz b (List.mem_of_getElem? hb)

/-- What a `write` decodes to when its unused lanes are 0, and only then. -/
theorem decodeWrite_ok_iff {length : Half} {payload : List Word} {i : Instr} :
    decodeWrite length payload = .ok i ↔
      (∀ b ∈ (unpackWords payload).drop length.toNat, b = 0) ∧
        i = .write ((unpackWords payload).take length.toNat) length := by
  simp only [decodeWrite, List.all_eq_true, beq_iff_eq]
  split
  next h => rw [Except.ok.injEq, eq_comm]; exact (and_iff_right h).symm
  next h => exact ⟨fun hi => by simp at hi, fun hi => absurd hi.1 h⟩

theorem decodeWrite_packBytes {data : List Byte} {length : Half} (hlen : data.length = length.toNat) :
    decodeWrite length (packBytes data) = .ok (.write data length) := by
  obtain ⟨z, hunpack, hz⟩ := unpackWords_packBytes data
  refine decodeWrite_ok_iff.2 ?_
  rw [hunpack, ← hlen]
  exact ⟨by simpa using hz, by simp⟩

/-! ## From a command to its words and back -/

theorem opField_headerOf_ne {op op' flags : BitVec 8} {imm : Half} (h : op ≠ op') :
    opField (headerOf op flags imm) ≠ op' := by
  rwa [opField_headerOf]

/-- A command whose words are a header alone, decoded behind one must-be-zero field. -/
theorem decode_oneWord {op flags : BitVec 8} {imm : Half} {n : Nat} {field : BitVec n} {i : Instr}
    (hinit : op ≠ 0x01) (hwrite : op ≠ 0x04)
    (hd : decodeHeader (headerOf op flags imm) [] = ifZero field (.ok i)) (hfield : field = 0) (rest : List Word) :
    decode (headerOf op flags imm :: rest) = .command i rest :=
  (decode_oneWord_ifZero (opField_headerOf_ne hinit) (opField_headerOf_ne hwrite) hd rest).1 hfield

theorem decode_formatN {op : BitVec 8} {i : Instr} (hrow : (op, i) ∈ formatNRows) (rest : List Word) :
    decode (headerOf op 0 0 :: rest) = .command i rest := by
  obtain ⟨hinit, hwrite⟩ := formatNRows_opcode_ne _ hrow
  exact decode_oneWord hinit hwrite (decodeHeader_formatN (by rwa [opField_headerOf])) (low24_headerOf op) rest

/-- Settles O1: by the commands, each through its format. -/
theorem decodeInvertsEncode : Obligations.DecodeInvertsEncode := by
  intro i rest hwf
  cases i with
  | init be rxs txs baud rxSize txSize =>
    have hop : opField (headerOf 0x01 (initFlags be rxs txs) 0) = 0x01 := opField_headerOf ..
    obtain ⟨hbe, hrxs, htxs, hhigh⟩ := initFlags_getLsbD be rxs txs
    have hlow : (headerOf 0x01 (initFlags be rxs txs) 0).extractLsb' 0 16 = 0 := immField_headerOf ..
    have hd : decodeHeader (headerOf 0x01 (initFlags be rxs txs) 0) [baud, rxSize ++ txSize] =
        .ok (.init be rxs txs baud rxSize txSize) := by
      rw [decodeHeader_init hop, ifZero_of_eq_zero hlow, ifZero_of_eq_zero hhigh, hbe, hrxs, htxs]
      simp only [List.getD_cons_zero, List.getD_cons_succ, halves_append]
    exact decode_of_header_ok (after := [baud, rxSize ++ txSize]) (wordsAfter_init hop).symm hd rest
  | ingestReceivedByte byte =>
    have hd := decodeHeader_ingestReceivedByte (after := []) (opField_headerOf 0x02 0 (byte.zeroExtend 16))
    rw [low8_headerOf] at hd
    exact decode_oneWord (by decide) (by decide) hd (mid16_headerOf ..) rest
  | serviceTransmit => exact decode_formatN (by decide) rest
  | write data length =>
    have hlen : data.length = length.toNat := by simpa [Instr.wellFormed] using hwf
    have hop : opField (headerOf 0x04 0 length) = 0x04 := opField_headerOf ..
    have hd : decodeHeader (headerOf 0x04 0 length) (packBytes data) = .ok (.write data length) := by
      rw [decodeHeader_write hop, ifZero_of_eq_zero (flags_headerOf ..), immField_headerOf, decodeWrite_packBytes hlen]
    refine decode_of_header_ok ?_ hd rest
    rw [packBytes_length, wordsAfter_write hop, immField_headerOf, hlen]
  | read maxLen =>
    have hd := decodeHeader_read (after := []) (opField_headerOf 0x05 0 maxLen)
    rw [immField_headerOf] at hd
    exact decode_oneWord (by decide) (by decide) hd (flags_headerOf ..) rest
  | rxAvailableCount => exact decode_formatN (by decide) rest
  | txQueuedCount => exact decode_formatN (by decide) rest
  | echoPump => exact decode_formatN (by decide) rest
  | overflowCount => exact decode_formatN (by decide) rest
  | overflowClear => exact decode_formatN (by decide) rest
  | setEchoChunkSize n =>
    have hd := decodeHeader_setEchoChunkSize (after := []) (opField_headerOf 0x0B 0 n)
    rw [immField_headerOf] at hd
    exact decode_oneWord (by decide) (by decide) hd (flags_headerOf ..) rest
  | getEchoChunkSize => exact decode_formatN (by decide) rest

/-! ## From words to a command and back -/

/-- A decoded command is a header with exactly the words it asks for, and the words left over. -/
theorem decode_command {ws rest : List Word} {i : Instr} (h : decode ws = .command i rest) :
    ∃ cw after, ws = cw :: (after ++ rest) ∧ after.length = wordsAfter cw ∧ decodeHeader cw after = .ok i := by
  cases ws with
  | nil => simp [decode] at h
  | cons cw tail =>
    simp only [decode] at h
    split at h
    · rename_i hall
      split at h
      · rename_i hd
        simp only [Fetched.command.injEq] at h
        obtain ⟨rfl, rfl⟩ := h
        refine ⟨cw, tail.take (wordsAfter cw), by rw [List.take_append_drop], ?_, hd⟩
        rw [List.length_take, Nat.min_eq_left ((hasAtLeast_iff _ _).1 hall)]
      · simp at h
    · simp at h

/-- A word list that goes with a header of one word is empty. -/
theorem eq_nil_of_wordsAfter {cw : Word} {after : List Word} (hlen : after.length = wordsAfter cw)
    (hinit : opField cw ≠ 0x01) (hwrite : opField cw ≠ 0x04) : after = [] := by
  rw [wordsAfter_other hinit hwrite] at hlen
  exact List.length_eq_zero_iff.1 hlen

/-- The words of a header that decodes are the encoding of its command, which is well-formed. -/
def SpelledBy (cw : Word) (after : List Word) (i : Instr) : Prop := i.wellFormed = true ∧ encode i = cw :: after

section Spelled

variable {cw : Word} {after : List Word} {i : Instr} (hlen : after.length = wordsAfter cw)
include hlen

theorem spelledBy_formatN {op : BitVec 8} {j : Instr} (hrow : (op, j) ∈ formatNRows) (hwf : j.wellFormed = true)
    (henc : encode j = [headerOf op 0 0]) (hop : opField cw = op)
    (h : ifZero (cw.extractLsb' 0 24) (.ok j) = .ok i) : SpelledBy cw after i := by
  obtain ⟨hfield, hj⟩ := ifZero_ok _ _ _ h
  obtain rfl : j = i := by simpa using hj
  obtain ⟨hinit, hwrite⟩ := formatNRows_opcode_ne _ hrow
  rw [eq_nil_of_wordsAfter hlen (hop ▸ hinit) (hop ▸ hwrite)]
  exact ⟨hwf, by rw [henc, ← eq_headerOf_of_low24 hop hfield]⟩

theorem spelledBy_formatH {op : BitVec 8} {j : Half → Instr} (hinit : op ≠ 0x01) (hwrite : op ≠ 0x04)
    (hwf : ∀ n, (j n).wellFormed = true) (henc : ∀ n, encode (j n) = [headerOf op 0 n]) (hop : opField cw = op)
    (h : ifZero (cw.extractLsb' 16 8) (.ok (j (immField cw))) = .ok i) : SpelledBy cw after i := by
  obtain ⟨hfield, hj⟩ := ifZero_ok _ _ _ h
  obtain rfl : j (immField cw) = i := by simpa using hj
  rw [eq_nil_of_wordsAfter hlen (hop ▸ hinit) (hop ▸ hwrite)]
  exact ⟨hwf _, by rw [henc, ← eq_headerOf hop hfield rfl]⟩

theorem spelledBy_ingestReceivedByte (hop : opField cw = 0x02)
    (h : ifZero (cw.extractLsb' 8 16) (.ok (.ingestReceivedByte (cw.extractLsb' 0 8))) = .ok i) :
    SpelledBy cw after i := by
  obtain ⟨hfield, hj⟩ := ifZero_ok _ _ _ h
  obtain rfl : Instr.ingestReceivedByte (cw.extractLsb' 0 8) = i := by simpa using hj
  rw [eq_nil_of_wordsAfter hlen (by simp [hop]) (by simp [hop])]
  exact ⟨rfl, by rw [encode, ← eq_headerOf_of_mid16 hop hfield]⟩

theorem spelledBy_init (hop : opField cw = 0x01) (h : decodeHeader cw after = .ok i) : SpelledBy cw after i := by
  rw [decodeHeader_init hop] at h
  obtain ⟨hlow, h⟩ := ifZero_ok _ _ _ h
  obtain ⟨hhigh, h⟩ := ifZero_ok _ _ _ h
  obtain ⟨w1, w2, rfl⟩ := List.length_eq_two.1 (hlen.trans (wordsAfter_init hop))
  simp only [List.getD_cons_zero, List.getD_cons_succ, Except.ok.injEq] at h
  subst h
  refine ⟨rfl, ?_⟩
  simp only [encode, append_halves, List.cons.injEq, and_true]
  exact (eq_headerOf_init hop hlow hhigh).symm

theorem spelledBy_write (hop : opField cw = 0x04) (h : decodeHeader cw after = .ok i) : SpelledBy cw after i := by
  rw [decodeHeader_write hop] at h
  obtain ⟨hfield, h⟩ := ifZero_ok _ _ _ h
  obtain ⟨hzero, rfl⟩ := decodeWrite_ok_iff.1 h
  rw [wordsAfter_write hop] at hlen
  refine ⟨by simp [Instr.wellFormed, length_take_unpackWords hlen], ?_⟩
  rw [encode, packBytes_unpackWords after _ hlen hzero, ← eq_headerOf hop hfield rfl]

/-- R106: a header that decodes, by the rows of the opcode map. -/
theorem spelledBy_of_decodeHeader (h : decodeHeader cw after = .ok i) : SpelledBy cw after i := by
  have hd := h
  have hopcode : ∀ {k : Nat}, (opField cw).toNat = k → opField cw = BitVec.ofNat 8 k := fun hk =>
    BitVec.eq_of_toNat_eq (by have := (opField cw).isLt; rw [BitVec.toNat_ofNat]; omega)
  unfold decodeHeader at h
  split at h
  next hk => exact spelledBy_init hlen (hopcode hk) hd
  next hk => exact spelledBy_ingestReceivedByte hlen (hopcode hk) h
  next hk => exact spelledBy_formatN hlen (by decide) rfl rfl (hopcode hk) h
  next hk => exact spelledBy_write hlen (hopcode hk) hd
  next hk => exact spelledBy_formatH hlen (by decide) (by decide) (fun _ => rfl) (fun _ => rfl) (hopcode hk) h
  next hk => exact spelledBy_formatN hlen (by decide) rfl rfl (hopcode hk) h
  next hk => exact spelledBy_formatN hlen (by decide) rfl rfl (hopcode hk) h
  next hk => exact spelledBy_formatN hlen (by decide) rfl rfl (hopcode hk) h
  next hk => exact spelledBy_formatN hlen (by decide) rfl rfl (hopcode hk) h
  next hk => exact spelledBy_formatN hlen (by decide) rfl rfl (hopcode hk) h
  next hk => exact spelledBy_formatH hlen (by decide) (by decide) (fun _ => rfl) (fun _ => rfl) (hopcode hk) h
  next hk => exact spelledBy_formatN hlen (by decide) rfl rfl (hopcode hk) h
  next => simp at h

end Spelled

/-- Settles O2: the header and its words are spelled by the command they decode to. -/
theorem encodeInvertsDecode : Obligations.EncodeInvertsDecode := by
  intro ws i rest h
  obtain ⟨cw, after, rfl, hlen, hd⟩ := decode_command h
  obtain ⟨hwf, henc⟩ := spelledBy_of_decodeHeader hlen hd
  exact ⟨hwf, by rw [henc, List.cons_append]⟩

/-! ## The other statements of the word level -/

/-- Settles O9: unpacking the packed bytes gives them back, followed by zeros. -/
theorem payloadIsLittleEndian : Obligations.PayloadIsLittleEndian := by
  refine ⟨fun bytes k => ?_, packBytes_length, by decide⟩
  obtain ⟨z, hunpack, hz⟩ := unpackWords_packBytes bytes
  rw [← unpackWords_getD, hunpack, getD_append_zeros hz]

/-- Settles O4. -/
theorem incompleteCommandWaits : Obligations.IncompleteCommandWaits := by
  refine ⟨rfl, fun cw after hshort => ?_⟩
  have hmissing : hasAtLeast (wordsAfter cw) after = false :=
    Bool.eq_false_iff.2 fun hall => absurd ((hasAtLeast_iff _ _).1 hall) (by omega)
  simp [decode, hmissing]

/-- Settles O10: an unassigned opcode is no row of the opcode map, so it asks for no word and is refused. -/
theorem unassignedOpcodeIsIllegal : Obligations.UnassignedOpcodeIsIllegal := by
  intro cw rest hop
  have hrow : ∀ op : BitVec 8, 0 < op.toNat → op.toNat ≤ 0x0C → opField cw ≠ op := by
    rintro op hpos hle rfl
    rcases hop with h0 | h
    · simp [h0] at hpos
    · omega
  have hd : decodeHeader cw [] = .error .illegalOpcode := by
    unfold decodeHeader
    split
    case h_13 => rfl
    all_goals rename_i hk; exact absurd rfl (hrow _ (by omega) (by omega))
  exact decode_of_header_error (after := [])
    (wordsAfter_other (hrow _ (by decide) (by decide)) (hrow _ (by decide) (by decide))).symm hd rest

/-- Settles O12: each word list is decoded as it stands. -/
theorem sampleWordsDecode : Obligations.SampleWordsDecode := by
  refine ⟨?_, ?_, ?_, ?_, ?_, ?_, ?_⟩ <;> decide

end Sys2Proof

/-! # The storage and one FIFO

What a write of the storage, a push and a pop leave as they were and what they change, each said once of the two states
`State.pushed` and `State.popped`; that both keep the invariant of a FIFO and act on its contents as a queue. The statements
of spec/20_memory.md and spec/40_ringbuffer.md are assembled from these. -/

namespace Sys2Proof.Machine

/-! ## The registers after a push and after a pop -/

@[simp] theorem pushedFifo_mem (q : Fifo) : (pushedFifo q).mem = q.mem := rfl
@[simp] theorem pushedFifo_cap (q : Fifo) : (pushedFifo q).cap = q.cap := rfl
@[simp] theorem pushedFifo_rd (q : Fifo) : (pushedFifo q).rd = q.rd := rfl
@[simp] theorem pushedFifo_cnt (q : Fifo) : (pushedFifo q).cnt = q.cnt + 1 := rfl
@[simp] theorem poppedFifo_mem (q : Fifo) : (poppedFifo q).mem = q.mem := rfl
@[simp] theorem poppedFifo_cap (q : Fifo) : (poppedFifo q).cap = q.cap := rfl
@[simp] theorem poppedFifo_wr (q : Fifo) : (poppedFifo q).wr = q.wr := rfl
@[simp] theorem poppedFifo_cnt (q : Fifo) : (poppedFifo q).cnt = q.cnt - 1 := rfl

theorem pushedFifo_wr_toNat {q : Fifo} (hwr : q.wr.toNat < q.cap.toNat) :
    (pushedFifo q).wr.toNat = (q.wr.toNat + 1) % q.cap.toNat :=
  advance_toNat _ _ (Nat.zero_lt_of_lt hwr)

theorem poppedFifo_rd_toNat {q : Fifo} (hrd : q.rd.toNat < q.cap.toNat) :
    (poppedFifo q).rd.toNat = (q.rd.toNat + 1) % q.cap.toNat :=
  advance_toNat _ _ (Nat.zero_lt_of_lt hrd)

theorem pushedFifo_cnt_toNat {q : Fifo} (hroom : q.cnt.toNat < q.cap.toNat) :
    (pushedFifo q).cnt.toNat = q.cnt.toNat + 1 := by
  rw [pushedFifo_cnt]; bv_omega

theorem poppedFifo_cnt_toNat {q : Fifo} (hpos : 0 < q.cnt.toNat) :
    (poppedFifo q).cnt.toNat = q.cnt.toNat - 1 := by
  rw [poppedFifo_cnt]; bv_omega

/-! ## The two conditions of a FIFO as the statements spell them -/

theorem Fifo.full_of_eq {q : Fifo} (h : q.cnt = q.cap) : q.full = true := by simp [Fifo.full, h]

theorem Fifo.full_of_ne {q : Fifo} (h : q.cnt ≠ q.cap) : q.full = false := by simp [Fifo.full, h]

theorem Fifo.empty_of_eq {q : Fifo} (h : q.cnt = 0) : q.empty = true := by simp [Fifo.empty, h]

theorem Fifo.empty_of_ne {q : Fifo} (h : q.cnt ≠ 0) : q.empty = false := by simpa [Fifo.empty] using h

theorem Fifo.cnt_toNat_pos {q : Fifo} (h : q.empty = false) : 0 < q.cnt.toNat :=
  Nat.pos_of_ne_zero fun h0 => by simp [(Fifo.empty_iff q).2 h0] at h

theorem Fifo.Inv.cnt_lt_cap {q : Fifo} {m : Memory} (h : q.Inv m) (hfull : q.full = false) :
    q.cnt.toNat < q.cap.toNat :=
  Nat.lt_of_le_of_ne h.cntLe fun heq => by simp [(Fifo.full_iff q).2 heq] at hfull

/-! ## The invariant of a FIFO is kept -/

/-- A push of a FIFO with room keeps R35, R36 and R127. -/
theorem Fifo.Inv.pushed {q : Fifo} {m : Memory} (h : q.Inv m) (hroom : q.cnt.toNat < q.cap.toNat) (b : Byte) :
    (pushedFifo q).Inv (m.write q.wr.toNat b) where
  capPos := h.capPos
  wrLt := by rw [pushedFifo_wr_toNat h.wrLt]; exact Nat.mod_lt _ h.capPos
  rdLt := h.rdLt
  cntLe := by rw [pushedFifo_cnt_toNat hroom]; exact hroom
  wrEq := by
    rw [pushedFifo_wr_toNat h.wrLt, pushedFifo_cnt_toNat hroom, h.wrEq, Nat.mod_add_mod]
    rfl
  written := fun j hj => by
    rw [pushedFifo_cnt_toNat hroom] at hj
    rw [Memory.read_write]
    split
    · rfl
    · rename_i hne
      have hlt : j < q.cnt.toNat := Nat.lt_of_le_of_ne (Nat.le_of_lt_succ hj) fun hj' => hne (by rw [h.wrEq, ← hj']; rfl)
      exact h.written j hlt

/-- A pop of a FIFO with contents keeps R35, R36 and R127. -/
theorem Fifo.Inv.popped {q : Fifo} {m : Memory} (h : q.Inv m) (hpos : 0 < q.cnt.toNat) : (poppedFifo q).Inv m where
  capPos := h.capPos
  wrLt := h.wrLt
  rdLt := by rw [poppedFifo_rd_toNat h.rdLt]; exact Nat.mod_lt _ h.capPos
  cntLe := by
    have := h.cntLe
    rw [poppedFifo_cnt_toNat hpos, poppedFifo_cap]; omega
  wrEq := by
    rw [poppedFifo_rd_toNat h.rdLt, poppedFifo_cnt_toNat hpos, poppedFifo_wr, poppedFifo_cap, Nat.mod_add_mod, h.wrEq]
    congr 1
    omega
  written := fun j hj => by
    rw [poppedFifo_cnt_toNat hpos] at hj
    rw [poppedFifo_rd_toNat h.rdLt, poppedFifo_cap, Nat.mod_add_mod, Nat.add_assoc, Nat.add_comm 1]
    exact h.written (j + 1) (by omega)

/-! ## What a push and a pop leave as they were -/

/-- A write of one region leaves every field alone but the storage. -/
theorem State.setRegion_eq (s : State) (r : Region) (m : Memory) :
    s.setRegion r m = { s with rxmem := (s.setRegion r m).rxmem, txmem := (s.setRegion r m).txmem } := by
  cases r <;> rfl

theorem State.pushed_eq (s : State) (f : FifoId) (b : Byte) :
    s.pushed f b = State.setFifo { s with rxmem := (s.pushed f b).rxmem, txmem := (s.pushed f b).txmem } f
      (pushedFifo (s.fifo f)) := by
  simp only [State.pushed, State.setFifo_rxmem, State.setFifo_txmem]
  exact congrArg (State.setFifo · f _) (State.setRegion_eq ..)

theorem State.pushed_rx_eq (s : State) (b : Byte) :
    s.pushed .rx b = { s with
      rx := pushedFifo s.rx, rxmem := (s.pushed .rx b).rxmem, txmem := (s.pushed .rx b).txmem } :=
  s.pushed_eq .rx b

theorem State.pushed_tx_eq (s : State) (b : Byte) :
    s.pushed .tx b = { s with
      tx := pushedFifo s.tx, rxmem := (s.pushed .tx b).rxmem, txmem := (s.pushed .tx b).txmem } :=
  s.pushed_eq .tx b

/-- A push stores its byte at the write index and leaves every other byte of both regions alone. -/
theorem State.byteAt_pushed (s : State) (f : FifoId) (b : Byte) (r : Region) (a : Nat) :
    (s.pushed f b).byteAt r a =
      if r = (s.fifo f).mem ∧ a = (s.fifo f).wr.toNat then some b else s.byteAt r a := by
  rw [State.pushed, State.byteAt_setFifo, State.byteAt_setRegion_write]

theorem State.byteAt_pushed_same (s : State) (f : FifoId) (b : Byte) :
    (s.pushed f b).byteAt (s.fifo f).mem (s.fifo f).wr.toNat = some b := by
  simp [State.byteAt_pushed]

theorem State.byteAt_pushed_other {s : State} {f : FifoId} {r : Region} {a : Nat} (b : Byte)
    (h : ¬ (r = (s.fifo f).mem ∧ a = (s.fifo f).wr.toNat)) : (s.pushed f b).byteAt r a = s.byteAt r a := by
  rw [State.byteAt_pushed, if_neg h]

@[simp] theorem State.byteAt_popped (s : State) (f : FifoId) (r : Region) (a : Nat) :
    (s.popped f).byteAt r a = s.byteAt r a := by
  simp [State.popped]

theorem State.region_pushed_same (s : State) (f : FifoId) (b : Byte) :
    (s.pushed f b).region (s.fifo f).mem = (s.region (s.fifo f).mem).write (s.fifo f).wr.toNat b := by
  simp [State.pushed]

theorem State.region_popped (s : State) (f : FifoId) (r : Region) : (s.popped f).region r = s.region r := by
  simp [State.popped]

/-! ## The contents as a queue (R18, R128) -/

theorem State.contents_length (s : State) (f : FifoId) : (s.contents f).length = (s.fifo f).cnt.toNat := by
  simp [State.contents]

/-- The contents are read off the registers of the FIFO and the bytes of its region alone. -/
theorem State.contents_congr {s t : State} {f : FifoId} (hfifo : t.fifo f = s.fifo f)
    (hbytes : ∀ a, t.byteAt (s.fifo f).mem a = s.byteAt (s.fifo f).mem a) : t.contents f = s.contents f := by
  simp only [State.contents, hfifo, hbytes]

section Queue

variable {f : FifoId} {s : State} (h : (s.fifo f).Inv (s.region (s.fifo f).mem))
include h

theorem Fifo.Inv.state_pushed (hroom : (s.fifo f).cnt.toNat < (s.fifo f).cap.toNat) (b : Byte) :
    ((s.pushed f b).fifo f).Inv ((s.pushed f b).region ((s.pushed f b).fifo f).mem) := by
  rw [State.fifo_pushed, pushedFifo_mem, State.region_pushed_same]
  exact h.pushed hroom b

theorem Fifo.Inv.state_popped (hpos : 0 < (s.fifo f).cnt.toNat) :
    ((s.popped f).fifo f).Inv ((s.popped f).region ((s.popped f).fifo f).mem) := by
  rw [State.fifo_popped, poppedFifo_mem, State.region_popped]
  exact h.popped hpos

/-- R124, R128: the byte lands at the offset after the last one of the contents, which is none of theirs. -/
theorem Fifo.Inv.contents_pushed (hroom : (s.fifo f).cnt.toNat < (s.fifo f).cap.toNat) (b : Byte) :
    (s.pushed f b).contents f = s.contents f ++ [some b] := by
  simp only [State.contents, State.fifo_pushed, pushedFifo_cnt_toNat hroom, pushedFifo_mem, pushedFifo_cap,
    pushedFifo_rd, List.range_succ, List.map_append, List.map_cons, List.map_nil]
  congr 1
  · refine List.map_congr_left fun j hj => State.byteAt_pushed_other b fun hwr => ?_
    exact ring_index_ne (List.mem_range.1 hj) hroom (hwr.2.trans h.wrEq)
  · rw [← h.wrEq, State.byteAt_pushed_same]

/-- R125, R128: the byte taken is the oldest of the contents. -/
theorem Fifo.Inv.contents_popped (hpos : 0 < (s.fifo f).cnt.toNat) :
    s.contents f = some (s.byteAtRead f) :: (s.popped f).contents f := by
  obtain ⟨n, hn⟩ := Nat.exists_eq_add_of_lt hpos
  rw [Nat.zero_add] at hn
  have holdest := h.oldest (Fifo.empty_eq_false hpos.ne')
  simp only [State.contents, State.fifo_popped, poppedFifo_cnt_toNat hpos, poppedFifo_mem, poppedFifo_cap,
    poppedFifo_rd_toNat h.rdLt, State.byteAt_popped, hn, List.range_succ_eq_map, List.map_cons, List.map_map,
    Nat.add_sub_cancel, Nat.add_zero, Nat.mod_eq_of_lt h.rdLt]
  rw [holdest]
  congr 1
  refine List.map_congr_left fun j _ => ?_
  rw [Nat.mod_add_mod, Nat.add_assoc, Nat.add_comm 1]
  rfl

end Queue

theorem State.contents_of_empty {s : State} {f : FifoId} (h : (s.fifo f).empty = true) : s.contents f = [] :=
  List.length_eq_zero_iff.1 ((s.contents_length f).trans ((Fifo.empty_iff _).1 h))

end Sys2Proof.Machine

namespace Sys2Proof

open Machine

/-- Settles O27: with room a push is `State.pushed`, with contents a pop is `State.popped`. -/
theorem fifoIsABoundedQueue : Obligations.FifoIsABoundedQueue := by
  intro f s h
  refine ⟨s.contents_length f, fun b => ?_, ?_⟩
  · rw [State.contents_length]
    cases hfull : (s.fifo f).full with
    | true =>
      have heq := (Fifo.full_iff _).1 hfull
      exact ⟨false, s, push_full f b s hfull, h, by simp [heq], rfl⟩
    | false =>
      have hroom := h.cnt_lt_cap hfull
      exact ⟨true, _, push_eq_pushed b hfull h.wrLt, h.state_pushed hroom b, by simp [hroom], h.contents_pushed hroom b⟩
  · cases hempty : (s.fifo f).empty with
    | true =>
      have hnil := State.contents_of_empty hempty
      exact ⟨none, s, pop_empty f s hempty, h, hnil, by simp [hnil]⟩
    | false =>
      have hpos := Fifo.cnt_toNat_pos hempty
      have hcons := h.contents_popped hpos
      exact ⟨_, _, pop_eq_popped hempty h.rdLt, h.state_popped hpos, hcons, by simp [hcons]⟩

/-- Settles O22. -/
theorem memoryReadsBackWhatWasWritten : Obligations.MemoryReadsBackWhatWasWritten := by
  intro f i s hi
  refine ⟨fun b hb => (memRead_ok_iff ..).2 ⟨hi, s.storedByte_of_byteAt _ _ b hb⟩,
    fun hnone => (memRead_ok_iff ..).2 ⟨hi, s.storedByte_of_none _ _ hnone⟩, fun b => ?_⟩
  have hbyte := s.byteAt_setRegion_write (s.fifo f).mem
  have hstored := (hbyte (s.fifo f).mem i i b).trans (if_pos ⟨rfl, rfl⟩)
  refine ⟨_, (memWrite_ok_iff ..).2 ⟨hi, rfl⟩, ?_, hstored, fun r a hne => ?_, ?_, ?_, s.setRegion_eq _ _⟩
  · rw [memRead_ok_iff, State.fifo_setRegion]
    exact ⟨hi, State.storedByte_of_byteAt _ _ _ b hstored⟩
  · rw [hbyte, if_neg hne]
  · cases (s.fifo f).mem
    · exact Memory.write_wf _ _ _
    · exact id
  · cases (s.fifo f).mem
    · exact id
    · exact Memory.write_wf _ _ _

/-- Settles O25. -/
theorem pushStoresAtTheWriteIndex : Obligations.PushStoresAtTheWriteIndex := by
  intro f b s
  refine ⟨fun hcap => push_full f b s (Fifo.full_of_eq hcap), fun hcap hwr => ?_⟩
  refine ⟨_, push_eq_pushed b (Fifo.full_of_ne hcap) hwr, s.byteAt_pushed_same f b,
    fun r a => State.byteAt_pushed_other b, ?_, ?_, ?_, ?_⟩
  · rw [State.fifo_pushed, pushedFifo_wr_toNat hwr]
  · rw [State.fifo_pushed, pushedFifo_cnt]
  · rw [State.fifo_pushed]; rfl
  · rw [State.fifo_pushed]; exact s.pushed_eq f b

/-- Settles O26. -/
theorem popTakesTheReadIndex : Obligations.PopTakesTheReadIndex := by
  intro f s
  refine ⟨fun h0 => pop_empty f s (Fifo.empty_of_eq h0), fun b h0 hrd hb => ?_⟩
  exact ⟨_, pop_some f s b (Fifo.empty_of_ne h0) hrd hb, poppedFifo_rd_toNat hrd, rfl, rfl⟩

/-- Settles O23. -/
theorem ringBufferInitEmpties : Obligations.RingBufferInitEmpties := by
  intro size s
  have hfifo : ∀ f, (rbInit f size s).fifo f = ⟨lentRegion f, size, 0, 0, 0⟩ := fun f => s.fifo_setFifo_same f _
  refine ⟨rfl, rfl, fun f => State.contents_of_empty ?_, fun f => ⟨?_, fun hsize => ?_⟩⟩
  · rw [hfifo]; rfl
  · rw [hfifo]; rfl
  · rw [hfifo]; exact Fifo.full_of_ne hsize.symm

/-- Settles O24. -/
theorem countsAddUpToCapacity : Obligations.CountsAddUpToCapacity := by
  intro f s
  refine ⟨rfl, rfl, fun hle => ?_⟩
  have hfree : (freeSpace f s).toNat = (s.fifo f).cap.toNat - (s.fifo f).cnt.toNat := by
    rw [freeSpace]; bv_omega
  exact ⟨hfree, by rw [hfree, availableCount]; omega⟩

end Sys2Proof

/-! # One step: the turn, the start of a command, and the commands of one micro-step

How a step finds its command, how a command starts or is turned away, what it means for a command to return at port L or at
port I; then the statements about single steps that need no more than this. -/

namespace Sys2Proof.Machine

/-! ## The sequencer and the response of the port whose turn it is -/

theorem State.setCurrent_L {s : State} (h : s.turn = .L) (q : Seq) : s.setCurrent q = { s with seqL := q } :=
  congrArg (s.setSeq · q) h

theorem State.setCurrent_I {s : State} (h : s.turn = .I) (q : Seq) : s.setCurrent q = { s with seqI := q } :=
  congrArg (s.setSeq · q) h

theorem State.finish_eq (s : State) (r : Response) : s.finish r = (s.respond s.turn r).setSeq s.turn .idle := by
  rw [State.finish, State.setCurrent, State.respond_turn]

theorem State.finish_L {s : State} (h : s.turn = .L) (r : Response) :
    s.finish r = { s with seqL := .idle, respL := s.respL ++ [r] } :=
  (s.finish_eq r).trans (congrArg (fun p => (s.respond p r).setSeq p .idle) h)

theorem State.finish_I {s : State} (h : s.turn = .I) (r : Response) :
    s.finish r = { s with seqI := .idle, respI := s.respI ++ [r] } :=
  (s.finish_eq r).trans (congrArg (fun p => (s.respond p r).setSeq p .idle) h)

/-- A command that starts and returns in one micro-step only delivers its response. -/
theorem State.finish_of_idle {s : State} {p : Port} (hturn : s.turn = p) (hidle : s.seqOf p = .idle) (r : Response) :
    s.finish r = s.respond p r := by
  cases p
  · rw [State.finish_I hturn, ← show s.seqI = .idle from hidle]; rfl
  · rw [State.finish_L hturn, ← show s.seqL = .idle from hidle]; rfl

theorem State.respond_eq (s : State) (p : Port) (r : Response) :
    s.respond p r = { s with respI := (s.respond p r).respI, respL := (s.respond p r).respL } := by
  cases p <;> rfl

theorem State.responses_respond_same (s : State) (p : Port) (r : Response) :
    (s.respond p r).responses p = s.responses p ++ [r] := by
  cases p <;> rfl

theorem State.responses_respond_other (s : State) (p : Port) (r : Response) :
    (s.respond p r).responses (otherPort p) = s.responses (otherPort p) := by
  cases p <;> rfl

@[simp] theorem State.finish_setCurrent (s : State) (q : Seq) (r : Response) :
    (s.setCurrent q).finish r = s.finish r := by
  cases h : s.turn
  · rw [State.finish_I h, State.finish_I (by rw [State.setCurrent_turn, h]), State.setCurrent_I h]
  · rw [State.finish_L h, State.finish_L (by rw [State.setCurrent_turn, h]), State.setCurrent_L h]

@[simp] theorem State.setCurrent_setCurrent (s : State) (q q' : Seq) :
    (s.setCurrent q).setCurrent q' = s.setCurrent q' := by
  rw [State.setCurrent, State.setCurrent_turn, State.setCurrent, State.setCurrent]
  cases s.turn <;> rfl

theorem State.current_eq_seqOf {s : State} {p : Port} (h : s.turn = p) : s.current = s.seqOf p := by
  rw [State.current, h]

theorem State.current_L {s : State} (h : s.turn = .L) : s.current = s.seqL := State.current_eq_seqOf h

theorem State.current_I {s : State} (h : s.turn = .I) : s.current = s.seqI := State.current_eq_seqOf h

theorem State.readyAt.current {s : State} {p : Port} (h : s.readyAt p) : s.current = .idle := by
  rw [State.current_eq_seqOf h.turn, h.idle]

/-! ## One step (R66) -/

theorem State.takeTurn_listed {s : State} {p : Port} {ps : List Port} (h : s.order = p :: ps) :
    s.takeTurn = { s with turn := p, order := ps } := by
  simp [State.takeTurn, h]

theorem portStep_inFlight {s : State} {i : Instr} (h : s.current.instr = some i) : portStep s = exec i s := by
  simp [portStep, h]

theorem portStep_wait {s : State} (hidle : s.current = .idle) (h : s.fetched = .wait) : portStep s = .next s := by
  simp [portStep, hidle, Seq.instr, h]

theorem portStep_bad {s : State} {e : CmdError} {rest : List Word} (hidle : s.current = .idle)
    (h : s.fetched = .bad e rest) : portStep s = .next (s.answerError e rest) := by
  simp [portStep, hidle, Seq.instr, h]

theorem portStep_command {s : State} {i : Instr} {rest : List Word} (hidle : s.current = .idle)
    (h : s.fetched = .command i rest) : portStep s = exec i (s.consume rest) := by
  simp [portStep, hidle, Seq.instr, h]

/-- A command that does not decode takes its words and an answer, and leaves the sequencers alone (R104). -/
theorem State.answerError_of_idle {s : State} {p : Port} (hturn : s.turn = p) (hidle : s.seqOf p = .idle)
    (e : CmdError) (rest : List Word) :
    s.answerError e rest = (s.setCommands p rest).respond p (errResponse e) := by
  have hseq : (s.setCommands p rest).seqOf p = .idle := by cases p <;> exact hidle
  rw [State.answerError, State.consume, hturn, State.finish_of_idle ((State.setCommands_turn ..).trans hturn) hseq]

/-! ## The start of a command (R38, R102, R203) -/

/-- At an idle port every command begins with the checks of a start. -/
theorem exec_of_idle {i : Instr} {s : State} (hidle : s.current = .idle) : ∃ body, exec i s = startOn i s body := by
  cases i with
  | init => exact ⟨_, by simp only [exec, execInit, hidle]; exact if_neg (by simp)⟩
  | ingestReceivedByte => exact ⟨_, rfl⟩
  | serviceTransmit => exact ⟨_, by simp only [exec, execServiceTransmit, hidle]; rfl⟩
  | write => exact ⟨_, by simp only [exec, execWrite, hidle]; rfl⟩
  | read => exact ⟨_, by simp only [exec, execRead, hidle]; rfl⟩
  | rxAvailableCount => exact ⟨_, rfl⟩
  | txQueuedCount => exact ⟨_, rfl⟩
  | echoPump => exact ⟨_, by simp only [exec, execEchoPump, hidle]; rfl⟩
  | overflowCount => exact ⟨_, rfl⟩
  | overflowClear => exact ⟨_, rfl⟩
  | setEchoChunkSize => exact ⟨_, rfl⟩
  | getEchoChunkSize => exact ⟨_, rfl⟩

/-- Every well-formed command but `init` then asks for `status` to be OK. -/
theorem exec_of_idle_whenReady {i : Instr} {s : State} (hidle : s.current = .idle) (hwf : i.wellFormed = true)
    (hinit : i.mnemonic ≠ "init") : ∃ body, exec i s = startOn i s (whenReady s body) := by
  cases i with
  | init => exact absurd rfl hinit
  | ingestReceivedByte => exact ⟨_, rfl⟩
  | serviceTransmit => exact ⟨_, by simp only [exec, execServiceTransmit, hidle]; rfl⟩
  | write => exact ⟨_, by simp only [exec, execWrite, hidle, hwf]; rfl⟩
  | read => exact ⟨_, by simp only [exec, execRead, hidle]; rfl⟩
  | rxAvailableCount => exact ⟨_, rfl⟩
  | txQueuedCount => exact ⟨_, rfl⟩
  | echoPump => exact ⟨_, by simp only [exec, execEchoPump, hidle]; rfl⟩
  | overflowCount => exact ⟨_, rfl⟩
  | overflowClear => exact ⟨_, rfl⟩
  | setEchoChunkSize => exact ⟨_, rfl⟩
  | getEchoChunkSize => exact ⟨_, rfl⟩

theorem exec_wrongPort {i : Instr} {s : State} (hidle : s.current = .idle) (hport : takenOn s.turn i = false) :
    exec i s = .next (s.finish (errResponse .wrongPort)) := by
  obtain ⟨body, hexec⟩ := exec_of_idle (i := i) hidle
  rw [hexec, startOn_wrongPort i s body hidle hport]

/-- A command that asks only for `status` and answers at once. -/
theorem start_answer {i : Instr} {s t : State} {p : Port} {r : Response} (h : s.readyAt p) (hport : takenOn p i = true)
    (hexec : exec i s = startOn i s (whenReady s (.next (t.finish r)))) (hturn : t.turn = s.turn)
    (hseq : t.seqOf p = s.seqOf p) : exec i s = .next (t.respond p r) := by
  rw [hexec, start_ready i s p _ h hport, State.finish_of_idle (hturn.trans h.turn) (hseq.trans h.idle)]

/-- An `init` that starts at an idle port L (R141 to R145). -/
theorem exec_init_of_idle {be rxs txs : Bool} {baud : Word} {rxSize txSize : Half} {s : State} (hturn : s.turn = .L)
    (hidle : s.seqL = .idle) :
    exec (.init be rxs txs baud rxSize txSize) s =
      if s.status = .ok then .fault .reInit
      else if initAccepts be rxs txs rxSize txSize then
        .next ((initSetup rxSize txSize s).setCurrent (.init be rxs txs baud rxSize txSize))
      else .next (s.finish (okResponse (boolVal false))) := by
  have hcur : s.current = .idle := (State.current_L hturn).trans hidle
  simp only [exec, execInit, hcur, reduceCtorEq, if_false]
  exact startOn_idle _ s _ hcur (by rw [hturn]; rfl)

/-! ## The effective chunk (R171) -/

theorem effectiveChunk_le (v echoMax : Half) : effectiveChunk v echoMax ≤ echoMax.toNat := Nat.min_le_right _ _

theorem effectiveChunk_zero (echoMax : Half) : effectiveChunk 0 echoMax = min 32 echoMax.toNat := rfl

theorem effectiveChunk_of_ne_zero {v : Half} (h : v ≠ 0) (echoMax : Half) :
    effectiveChunk v echoMax = min v.toNat echoMax.toNat := by
  rw [effectiveChunk, if_neg h]

theorem effectiveChunk_pos {v echoMax : Half} (h : 0 < echoMax.toNat) : 0 < effectiveChunk v echoMax := by
  by_cases hv : v = 0
  · rw [hv, effectiveChunk_zero]; omega
  · rw [effectiveChunk_of_ne_zero hv]
    have : v.toNat ≠ 0 := fun h0 => hv (BitVec.eq_of_toNat_eq h0)
    omega

/-! ## The overflow counter (R40) -/

theorem satInc_toNat (v : Word) : (satInc v).toNat = min (v.toNat + 1) 4294967295 := by
  unfold satInc
  split
  · rename_i h; rw [h]; rfl
  · rename_i h
    have hne : v.toNat ≠ 4294967295 := fun heq => h (BitVec.eq_of_toNat_eq heq)
    bv_omega

/-! ## `ingestReceivedByte` (R151) -/

theorem exec_ingest {b : Byte} {s : State} (h : s.readyAt .I) :
    exec (.ingestReceivedByte b) s = ofResult (ingest b s) :=
  start_ready (.ingestReceivedByte b) s .I _ h rfl

theorem ingest_room {b : Byte} {s : State} (hfull : s.rx.full = false) (hwr : s.rx.wr.toNat < s.rx.cap.toNat) :
    ingest b s = .ok ((s.pushed .rx b).finish (okResponse 0)) := by
  simp only [ingest, push_eq_pushed (f := .rx) b hfull hwr]

theorem ingest_full {b : Byte} {s : State} (hfull : s.rx.full = true) :
    ingest b s = .ok (State.finish { s with ovf := satInc s.ovf } (okResponse 0)) := by
  simp only [ingest, push_full .rx b s hfull]

end Sys2Proof.Machine

namespace Sys2Proof

open Machine

/-- Settles O13: the channel decodes to the command whose words it begins with. -/
theorem stepRunsTheDecodedCommand : Obligations.StepRunsTheDecodedCommand := by
  intro s i rest hwf hidle hwords
  refine portStep_command hidle ?_
  rw [State.fetched, hwords, decodeInvertsEncode i rest hwf]

/-- Settles O14. -/
theorem stepResumesOrIdles : Obligations.StepResumesOrIdles := by
  refine ⟨fun s p ps i horder hseq => ?_, fun s p ps horder hidle hempty => ?_⟩ <;>
    rw [step, State.takeTurn_listed horder]
  · refine portStep_inFlight ?_
    rw [State.current_eq_seqOf rfl]
    cases p <;> exact hseq
  · refine portStep_wait ?_ ?_
    · rw [State.current_eq_seqOf rfl]
      cases p <;> exact hidle
    · have hnone : State.commands { s with turn := p, order := ps } p = [] := by cases p <;> exact hempty
      exact congrArg decode hnone

/-- Settles O15. -/
theorem undecodableCommandIsAnswered : Obligations.UndecodableCommandIsAnswered := by
  intro s p ps e rest horder hidle hbad
  have hidle' : State.seqOf { s with turn := p, order := ps } p = .idle := by cases p <;> exact hidle
  have hbad' : State.fetched { s with turn := p, order := ps } = .bad e rest := by cases p <;> exact hbad
  refine ⟨(State.setCommands { s with turn := p, order := ps } p rest).respond p (errResponse e), e.code, ?_, ?_, ?_⟩
  · rw [step, State.takeTurn_listed horder, portStep_bad ((State.current_eq_seqOf rfl).trans hidle') hbad',
      State.answerError_of_idle rfl hidle']
  · exact (decode_bad _ _ _ hbad).imp (fun h => ⟨h, by rw [h]; rfl⟩) (fun h => ⟨h, by rw [h]; rfl⟩)
  · cases p <;> exact ⟨rfl, rfl, rfl, rfl, rfl⟩

/-- Settles O16: by the rows of R102; a port that does not take the command only answers. -/
theorem wrongPortIsAnswered : Obligations.WrongPortIsAnswered := by
  refine ⟨fun i => by cases i <;> simp [takenOn, Instr.mnemonic],
    fun i => by cases i <;> simp [takenOn, Instr.mnemonic], fun i s hidle hport => ?_⟩
  refine ⟨_, exec_wrongPort hidle hport, ?_⟩
  rw [State.finish_of_idle rfl hidle]
  exact ⟨s.responses_respond_same .., s.responses_respond_other .., s.respond_eq ..⟩

/-- Settles O17. -/
theorem undefinedStartsFault : Obligations.UndefinedStartsFault := by
  refine ⟨fun i s hwf hinit hidle hport hstatus => ?_, fun be rxs txs baud rxSize txSize s h => ?_⟩
  · obtain ⟨body, hexec⟩ := exec_of_idle_whenReady hidle hwf hinit
    rw [hexec, startOn_idle i s _ hidle hport, whenReady_not s body hstatus]
  · rw [exec_init_of_idle h.turn h.idle, if_pos h.ok]

/-- Settles O29. -/
theorem rejectedInitWritesNothing : Obligations.RejectedInitWritesNothing := by
  intro be rxs txs baud rxSize txSize s hturn hidle hstatus hoperand
  have hreject : initAccepts be rxs txs rxSize txSize = false := by
    obtain rfl | rfl | rfl | rfl | rfl := hoperand <;> simp [initAccepts]
  rw [exec_init_of_idle hturn hidle, if_neg hstatus, hreject, State.finish_of_idle hturn hidle]
  rfl

/-- Settles O30. -/
theorem initSetupWritesFirstValues : Obligations.InitSetupWritesFirstValues := by
  intro baud rxSize txSize s hturn hidle hstatus hrx htx
  have haccept : initAccepts true true true rxSize txSize = true := by
    simpa [initAccepts] using ⟨hrx, htx⟩
  rw [exec_init_of_idle hturn hidle, if_neg hstatus, if_pos haccept, State.setCurrent_L (s := initSetup ..) hturn]
  rfl

/-- Settles O32. -/
theorem ingestStoresTheByte : Obligations.IngestStoresTheByte := by
  intro b s h hcap hwr
  refine ⟨_, by rw [exec_ingest h, ingest_room (Fifo.full_of_ne hcap) hwr]; rfl, ?_, fun r a hne => ?_, ?_, ?_, ?_⟩
  · rw [State.byteAt_finish]; exact s.byteAt_pushed_same .rx b
  · rw [State.byteAt_finish]; exact State.byteAt_pushed_other (f := .rx) b hne
  · rw [State.finish_rx]; exact pushedFifo_wr_toNat hwr
  · rw [State.finish_rx]; rfl
  · rw [State.finish_I (by rw [State.pushed_rx_eq]; exact h.turn), State.pushed_rx_eq, ← show s.seqI = .idle from h.idle]
    rfl

/-- Settles O33. -/
theorem ingestDropsTheNewestByte : Obligations.IngestDropsTheNewestByte := by
  intro b s h hcap
  refine ⟨_, by rw [exec_ingest h, ingest_full (Fifo.full_of_eq hcap)]; rfl, ?_, ?_⟩
  · rw [State.finish_ovf, satInc_toNat]
  · rw [State.finish_of_idle (s := { s with ovf := satInc s.ovf }) h.turn h.idle]
    rfl

/-- Settles O43. -/
theorem readOfNothingChangesNothing : Obligations.ReadOfNothingChangesNothing := by
  intro s h
  have hexec : exec (.read 0) s = startOn (.read 0) s (whenReady s (.next (s.finish (readResponse [])))) := by
    simp only [exec, execRead, h.current, if_true]
  exact start_answer h rfl hexec rfl rfl

/-- Settles O45. -/
theorem accessorsAnswerTheirRegister : Obligations.AccessorsAnswerTheirRegister := by
  intro s p h i v hmem
  simp only [List.mem_cons, List.not_mem_nil, or_false, Prod.mk.injEq] at hmem
  have htaken : takenOn p i = true := by
    obtain ⟨rfl, -⟩ | ⟨rfl, -⟩ | ⟨rfl, -⟩ | ⟨rfl, -⟩ := hmem <;> cases p <;> rfl
  refine start_answer h htaken ?_ rfl rfl
  obtain ⟨rfl, rfl⟩ | ⟨rfl, rfl⟩ | ⟨rfl, rfl⟩ | ⟨rfl, rfl⟩ := hmem <;> rfl

/-- Settles O46. -/
theorem overflowClearZeroesTheCounter : Obligations.OverflowClearZeroesTheCounter := fun s h =>
  start_answer (i := .overflowClear) (t := { s with ovf := 0 }) h rfl rfl rfl rfl

/-- Settles O47. -/
theorem setEchoChunkSizeStoresTheOperand : Obligations.SetEchoChunkSizeStoresTheOperand := fun n s h =>
  start_answer (i := .setEchoChunkSize n) (t := { s with echoCfg := n }) h rfl rfl rfl rfl

/-- Settles O49. -/
theorem effectiveChunkIsBounded : Obligations.EffectiveChunkIsBounded := by
  intro v echoMax
  refine ⟨effectiveChunk_le v echoMax, ?_, fun hv hle => ?_, fun hv hle => ?_, effectiveChunk_pos⟩
  · rintro rfl hle
    rw [effectiveChunk_zero, Nat.min_eq_left hle]
  · rw [effectiveChunk_of_ne_zero hv, Nat.min_eq_left hle]
  · rw [effectiveChunk_of_ne_zero hv, Nat.min_eq_right hle]

/-- Settles O55: at reset nothing is presented to either port. -/
theorem resetIsNeverInitialised : Obligations.ResetIsNeverInitialised := by
  refine ⟨rfl, rfl, rfl, _, portStep_wait ?_ ?_, rfl⟩
  · exact (State.current_eq_seqOf rfl).trans (by cases State.reset.takeTurn.turn <;> rfl)
  · exact congrArg decode (show State.reset.takeTurn.commands State.reset.takeTurn.turn = [] by
      cases State.reset.takeTurn.turn <;> rfl)

/-- Settles O56: no setup has run, so nothing is asked of the FIFOs. -/
theorem resetMeetsTheInvariant : Obligations.ResetMeetsTheInvariant := by
  have hsetUp : ¬ State.reset.setUp := by simp [State.setUp, State.reset]
  exact ⟨Memory.nil_wf, Memory.nil_wf, Memory.nil_wf, rfl, rfl, by decide, fun h => absurd h hsetUp,
    fun h => absurd h hsetUp, fun h => absurd h hsetUp, rfl, trivial, by decide⟩

end Sys2Proof

/-! # The loops, one micro-step at a time

The `serviceTransmit` loop is run by three commands: by itself, as the flush of a `write`, and as the flush of the inner
`write` of an `echoPump`. `loopStep` is one micro-step of it, told where the loop stands in its command and what its return
does; each command is tied to it by an equation, and the statements about the three are read off its five rules. -/

namespace Sys2Proof.Machine

/-! ## An answer of the backend -/

/-- The answer `r` drawn from `agent` in `s` is the next listed one, or the free value; `as` and `d` are the answers to come
and the draw counter after it (R16, D25; log 5). -/
def Drawn (agent : BackendId) (s : State) (r : Bool) (as : List Bool) (d : Nat) : Prop :=
  (∀ a rest, s.answers = a :: rest → r = a ∧ as = rest ∧ d = s.draws) ∧
  (s.answers = [] → r = Config.backendAnswer agent s.draws ∧ as = [] ∧ d = s.draws + 1)

theorem drawAnswer_drawn (agent : BackendId) (s : State) :
    ∃ r as d, drawAnswer agent s = (r, { s with answers := as, draws := d }) ∧ Drawn agent s r as d := by
  cases h : s.answers with
  | nil =>
    refine ⟨_, [], _, by simp only [drawAnswer, h], fun a rest h' => ?_, fun _ => ⟨rfl, rfl, rfl⟩⟩
    simp [h] at h'
  | cons a rest =>
    refine ⟨a, rest, s.draws, drawAnswer_listed agent s a rest h, fun a' rest' h' => ?_, fun h' => ?_⟩
    · rw [h, List.cons.injEq] at h'
      exact ⟨h'.1, h'.2, rfl⟩
    · simp [h] at h'

/-- The state after a `be.txReady` that answered `r` (R132): `as` and `d` are the answers to come and the draw counter. -/
def State.asked (s : State) (r : Bool) (as : List Bool) (d : Nat) : State :=
  { s with answers := as, draws := d, trace := s.trace ++ [.txReady r] }

/-- `be.txReady` draws an answer and records it (R132). -/
theorem beTxReady_drawn (s : State) :
    ∃ r as d, (beTxReady s).1 = r ∧
      (beTxReady s).2 = s.asked r as d ∧
      Drawn s.be.txReady s r as d := by
  obtain ⟨r, as, d, hdraw, hdrawn⟩ := drawAnswer_drawn s.be.txReady s
  exact ⟨r, as, d, by rw [beTxReady, hdraw], by rw [beTxReady, hdraw]; rfl, hdrawn⟩

/-- `be.init` draws an answer and records it with the baud rate (R131). -/
theorem beInit_drawn (baud : Word) (s : State) :
    ∃ r as d, (beInit baud s).1 = r ∧
      (beInit baud s).2 = { s with answers := as, draws := d, trace := s.trace ++ [.init baud r] } ∧
      Drawn s.be.init s r as d := by
  obtain ⟨r, as, d, hdraw, hdrawn⟩ := drawAnswer_drawn s.be.init s
  exact ⟨r, as, d, by rw [beInit, hdraw], by rw [beInit, hdraw]; rfl, hdrawn⟩

/-! ## One micro-step of the loop -/

/-- One micro-step of the `serviceTransmit` loop of a command that stands at `wrap loc` while its loop stands at `loc`, and
does `done` when the loop returns. -/
def loopStep (wrap : TxLoc → Seq) (done : State → State) (loc : TxLoc) (s : State) : Except Fault State :=
  match serviceStep loc s with
  | .error e => .error e
  | .ok (some loc', t) => .ok (t.setCurrent (wrap loc'))
  | .ok (none, t) => .ok (done t)

section Loop

variable {wrap : TxLoc → Seq} {done : State → State} {s : State}

theorem loopStep_overlap (h : (s.seqOf (otherPort s.turn)).active = true) :
    loopStep wrap done .start s = .error .txConsumerOverlap := by
  simp [loopStep, serviceStep, h]

theorem loopStep_asks {loc : TxLoc} (h : loc = .ask ∨ (loc = .start ∧ (s.seqOf (otherPort s.turn)).active = false)) :
    loopStep wrap done loc s =
      .ok (if (beTxReady s).1 then (beTxReady s).2.setCurrent (wrap .pop) else done (beTxReady s).2) := by
  rw [loopStep, serviceStep_asks loc s h]
  cases (beTxReady s).1 <;> rfl

theorem loopStep_pop_empty (h : s.tx.empty = true) : loopStep wrap done .pop s = .ok (done s) := by
  simp only [loopStep, serviceStep, pop_empty .tx s h]

theorem loopStep_pop (h : s.tx.empty = false) (hrd : s.tx.rd.toNat < s.tx.cap.toNat) :
    loopStep wrap done .pop s = .ok ((s.popped .tx).setCurrent (wrap (.put (s.byteAtRead .tx)))) := by
  simp only [loopStep, serviceStep, pop_eq_popped (f := .tx) h hrd]

theorem loopStep_put (b : Byte) :
    loopStep wrap done (.put b) s = .ok ((s.record (.txWrite b)).setCurrent (wrap .ask)) := rfl

end Loop

/-! ## The three commands that run it -/

/-- A `write` of `data` whose flush stands at `loc`, with `i` bytes enqueued. -/
abbrev writeFlush (data : List Byte) (length : Half) (i : Nat) (loc : TxLoc) : Seq :=
  .write data length i (.flushing loc)

/-- An `echoPump` whose inner flush stands at `loc`. -/
abbrev echoFlush (n : Half) (k r i : Nat) (loc : TxLoc) : Seq := .echoPump (.writing n k r i (.flushing loc))

/-- The end of an iteration of `echoPump`: the count of the inner `write` is discarded (R172). -/
abbrev echoNextIteration (s : State) : State := s.dropStaging.setCurrent (.echoPump .ask)

theorem serviceTransmitStep_eq (loc : TxLoc) (s : State) :
    serviceTransmitStep loc s = loopStep .serviceTransmit (·.finish (okResponse 0)) loc s := by
  unfold serviceTransmitStep loopStep
  rcases serviceStep loc s with e | ⟨_ | loc', t⟩ <;> rfl

theorem writeCommandStep_flushing (data : List Byte) (length : Half) (i : Nat) (loc : TxLoc) (s : State) :
    writeCommandStep data length i (.flushing loc) s =
      loopStep (writeFlush data length i) (·.finish (okResponse (BitVec.ofNat 32 i))) loc s := by
  simp only [writeCommandStep, writeStep, flushStep, loopStep]
  rcases serviceStep loc s with e | ⟨_ | loc', t⟩ <;> rfl

/-- When all bytes are enqueued the flush begins with the next micro-step (R160). -/
theorem writeCommandStep_pushed_out {data : List Byte} {i : Nat} (length : Half) (s : State) (hi : data.length ≤ i) :
    writeCommandStep data length i .pushing s =
      loopStep (writeFlush data length i) (·.finish (okResponse (BitVec.ofNat 32 i))) .start s := by
  rw [← writeCommandStep_flushing]
  simp only [writeCommandStep, writeStep, List.getElem?_eq_none hi]

theorem echoWrite_flushing (n : Half) (k r i : Nat) (loc : TxLoc) (s : State) :
    echoWrite n k r i (.flushing loc) s = loopStep (echoFlush n k r i) echoNextIteration loc s := by
  simp only [echoWrite, echoNext, writeStep, flushStep, loopStep]
  rcases serviceStep loc s with e | ⟨_ | loc', t⟩ <;> rfl

theorem echoWrite_pushed_out (n : Half) (k : Nat) {r i : Nat} (s : State) (hi : r ≤ i) :
    echoWrite n k r i .pushing s = loopStep (echoFlush n k r i) echoNextIteration .start s := by
  rw [← echoWrite_flushing]
  simp only [echoWrite, echoNext, writeStep, if_neg (Nat.not_lt.2 hi)]

/-! ## The pushes of a `write` body -/

theorem writeCommandStep_full {data : List Byte} {i : Nat} {b : Byte} (length : Half) {s : State}
    (hb : data[i]? = some b) (hfull : s.tx.full = true) :
    writeCommandStep data length i .pushing s = .ok (s.setCurrent (writeFlush data length i .start)) := by
  simp only [writeCommandStep, writeStep, hb, push_full .tx b s hfull]

theorem writeCommandStep_room {data : List Byte} {i : Nat} {b : Byte} (length : Half) {s : State}
    (hb : data[i]? = some b) (hfull : s.tx.full = false) (hwr : s.tx.wr.toNat < s.tx.cap.toNat) :
    writeCommandStep data length i .pushing s =
      .ok ((s.pushed .tx b).setCurrent (.write data length (i + 1) .pushing)) := by
  simp only [writeCommandStep, writeStep, hb, push_eq_pushed (f := .tx) b hfull hwr]

theorem echoNext_pushing {r i : Nat} {s : State} (hi : i < r) (hmax : i < s.echoMax.toNat) :
    echoNext r i .pushing s = .ok (some (s.stagedByte i)) := by
  simp only [echoNext, if_pos hi, stagingRead, if_pos hmax]

theorem echoWrite_full (n : Half) (k : Nat) {r i : Nat} {s : State} (hi : i < r) (hmax : i < s.echoMax.toNat)
    (hfull : s.tx.full = true) :
    echoWrite n k r i .pushing s = .ok (s.setCurrent (echoFlush n k r i .start)) := by
  simp only [echoWrite, echoNext_pushing hi hmax, writeStep, push_full .tx _ s hfull]

theorem echoWrite_room (n : Half) (k : Nat) {r i : Nat} {s : State} (hi : i < r) (hmax : i < s.echoMax.toNat)
    (hfull : s.tx.full = false) (hwr : s.tx.wr.toNat < s.tx.cap.toNat) :
    echoWrite n k r i .pushing s =
      .ok ((s.pushed .tx (s.stagedByte i)).setCurrent (.echoPump (.writing n k r (i + 1) .pushing))) := by
  simp only [echoWrite, echoNext_pushing hi hmax, writeStep, push_eq_pushed (f := .tx) _ hfull hwr]

/-! ## The pops of a `read` -/

theorem readCommandStep_empty (maxLen : Half) (out : List Byte) {s : State} (h : s.rx.empty = true) :
    readCommandStep maxLen out s = .ok (s.finish (readResponse out)) := by
  simp only [readCommandStep, pop_empty .rx s h]

theorem readCommandStep_pop (maxLen : Half) (out : List Byte) {s : State} (h : s.rx.empty = false)
    (hrd : s.rx.rd.toNat < s.rx.cap.toNat) :
    readCommandStep maxLen out s =
      .ok (if out.length + 1 < maxLen.toNat
        then (s.popped .rx).setCurrent (.read maxLen (out ++ [s.byteAtRead .rx]))
        else (s.popped .rx).finish (readResponse (out ++ [s.byteAtRead .rx]))) := by
  simp only [readCommandStep, pop_eq_popped (f := .rx) h hrd]
  split <;> rfl

/-- A pop whose byte goes to the staging buffer at offset `i` (R170). -/
def State.stagedPop (s : State) (i : Nat) : State :=
  { s.popped .rx with echoTmp := s.echoTmp.write i (s.byteAtRead .rx) }

theorem echoRead_empty (n : Half) (k i : Nat) {s : State} (h : s.rx.empty = true) :
    echoRead n k i s = .ok (echoAfterRead n k i s) := by
  simp only [echoRead, pop_empty .rx s h]

theorem echoRead_pop (n : Half) (k i : Nat) {s : State} (h : s.rx.empty = false)
    (hrd : s.rx.rd.toNat < s.rx.cap.toNat) (hmax : i < s.echoMax.toNat) :
    echoRead n k i s = .ok ((s.stagedPop i).setCurrent (.echoPump
      (if i + 1 < k then .reading n k (i + 1) else .writing n k (i + 1) 0 .pushing))) := by
  have hstage : stagingWrite i (s.byteAtRead .rx) (s.popped .rx) = .ok (s.stagedPop i) :=
    (stagingWrite_ok_iff ..).2 ⟨hmax, rfl⟩
  simp only [echoRead, pop_eq_popped (f := .rx) h hrd, hstage, echoAfterRead, Nat.succ_ne_zero, if_false]
  split <;> rfl

/-! ## A command at a place of its body -/

theorem exec_serviceTransmit {loc : TxLoc} {s : State}
    (h : s.current = .serviceTransmit loc ∨ (s.readyAt s.turn ∧ loc = .start)) :
    exec .serviceTransmit s = ofResult (loopStep .serviceTransmit (·.finish (okResponse 0)) loc s) := by
  rw [← serviceTransmitStep_eq]
  rcases h with h | ⟨h, rfl⟩
  · simp only [exec, execServiceTransmit, h]
  · simp only [exec, execServiceTransmit, h.current]
    exact start_ready .serviceTransmit s _ _ h (by cases s.turn <;> rfl)

theorem exec_write {data : List Byte} {length : Half} {i : Nat} {loc : WriteLoc} {s : State}
    (h : s.current = .write data length i loc ∨
      (s.readyAt .L ∧ data.length = length.toNat ∧ i = 0 ∧ loc = .pushing)) :
    exec (.write data length) s = ofResult (writeCommandStep data length i loc s) := by
  rcases h with h | ⟨h, hlen, rfl, rfl⟩
  · simp only [exec, execWrite, h, and_self, if_true]
  · simp only [exec, execWrite, h.current, Instr.wellFormed, hlen, decide_true, if_true]
    exact start_ready _ s .L _ h rfl

theorem exec_read {maxLen : Half} {out : List Byte} {s : State}
    (h : s.current = .read maxLen out ∨ (s.readyAt .L ∧ maxLen ≠ 0 ∧ out = [])) :
    exec (.read maxLen) s = ofResult (readCommandStep maxLen out s) := by
  rcases h with h | ⟨h, hlen, rfl⟩
  · simp only [exec, execRead, h, if_true]
  · simp only [exec, execRead, h.current, if_neg hlen]
    exact start_ready _ s .L _ h rfl

theorem exec_echoPump {loc : EchoLoc} {s : State} (h : s.current = .echoPump loc ∨ (s.readyAt .L ∧ loc = .ask)) :
    exec .echoPump s = ofResult (echoPumpStep loc s) := by
  rcases h with h | ⟨h, rfl⟩
  · simp only [exec, execEchoPump, h]
  · simp only [exec, execEchoPump, h.current]
    exact start_ready _ s .L _ h rfl

/-- The places at which an in-flight `write` is about to ask the first or a later question of its flush. -/
theorem exec_write_flush {data : List Byte} {length : Half} {i : Nat} {s : State} (hturn : s.turn = .L)
    (h : s.seqL = .write data length i (.flushing .start) ∨ (s.seqL = .write data length i .pushing ∧ data.length ≤ i)) :
    exec (.write data length) s =
      ofResult (loopStep (writeFlush data length i) (·.finish (okResponse (BitVec.ofNat 32 i))) .start s) := by
  rcases h with h | ⟨h, hi⟩
  · rw [exec_write (.inl ((State.current_L hturn).trans h)), writeCommandStep_flushing]
  · rw [exec_write (.inl ((State.current_L hturn).trans h)), writeCommandStep_pushed_out length s hi]

/-- A `write` of no bytes begins with its flush (R161 (d)). -/
theorem exec_write_nothing {s : State} (h : s.readyAt .L) :
    exec (.write [] 0) s =
      ofResult (loopStep (writeFlush [] 0 0) (·.finish (okResponse (BitVec.ofNat 32 0))) .start s) := by
  rw [exec_write (.inr ⟨h, rfl, rfl, rfl⟩), writeCommandStep_pushed_out 0 s (Nat.le_refl 0)]

theorem exec_echoPump_flush {n : Half} {k r i : Nat} {s : State} (hturn : s.turn = .L)
    (h : s.seqL = .echoPump (.writing n k r i (.flushing .start)) ∨
      (s.seqL = .echoPump (.writing n k r i .pushing) ∧ r ≤ i)) :
    exec .echoPump s = ofResult (loopStep (echoFlush n k r i) echoNextIteration .start s) := by
  rcases h with h | ⟨h, hi⟩
  · rw [exec_echoPump (.inl ((State.current_L hturn).trans h)), echoPumpStep, echoWrite_flushing]
  · rw [exec_echoPump (.inl ((State.current_L hturn).trans h)), echoPumpStep, echoWrite_pushed_out n k s hi]

theorem exec_echoPump_at_flush {n : Half} {k r i : Nat} {loc : TxLoc} {s : State} (hturn : s.turn = .L)
    (h : s.seqL = .echoPump (.writing n k r i (.flushing loc))) :
    exec .echoPump s = ofResult (loopStep (echoFlush n k r i) echoNextIteration loc s) := by
  rw [exec_echoPump (.inl ((State.current_L hturn).trans h)), echoPumpStep, echoWrite_flushing]

theorem exec_write_at_flush {data : List Byte} {length : Half} {i : Nat} {loc : TxLoc} {s : State} (hturn : s.turn = .L)
    (h : s.seqL = .write data length i (.flushing loc)) :
    exec (.write data length) s =
      ofResult (loopStep (writeFlush data length i) (·.finish (okResponse (BitVec.ofNat 32 i))) loc s) := by
  rw [exec_write (.inl ((State.current_L hturn).trans h)), writeCommandStep_flushing]

/-! ## The first question of a flush, at port L -/

/-- At port L the activity that bars a flush is port I's (R156). -/
theorem asks_L {s : State} {loc : TxLoc} (hturn : s.turn = .L) (h : loc = .ask ∨ (loc = .start ∧ s.seqI.active = false)) :
    loc = .ask ∨ (loc = .start ∧ (s.seqOf (otherPort s.turn)).active = false) := by
  rwa [hturn]

theorem otherActive_L {s : State} (hturn : s.turn = .L) (h : s.seqI.active = true) :
    (s.seqOf (otherPort s.turn)).active = true := by
  rwa [hturn]

/-- The places from which a `write` asks `txReady`: at its start with no bytes, and anywhere in its flush. -/
theorem exec_write_asks {data : List Byte} {length : Half} {i : Nat} {s : State} (hturn : s.turn = .L)
    (h : (s.readyAt .L ∧ s.seqI.active = false ∧ data = [] ∧ length = 0 ∧ i = 0) ∨
      s.seqL = .write data length i (.flushing .ask) ∨
      (s.seqI.active = false ∧ (s.seqL = .write data length i (.flushing .start) ∨
        (s.seqL = .write data length i .pushing ∧ data.length ≤ i)))) :
    exec (.write data length) s = .next (if (beTxReady s).1
      then (beTxReady s).2.setCurrent (writeFlush data length i .pop)
      else (beTxReady s).2.finish (okResponse (BitVec.ofNat 32 i))) := by
  rcases h with ⟨hready, hother, rfl, rfl, rfl⟩ | hseq | ⟨hother, hseq⟩
  · rw [exec_write_nothing hready, loopStep_asks (asks_L hturn (.inr ⟨rfl, hother⟩))]
    rfl
  · rw [exec_write_at_flush hturn hseq, loopStep_asks (.inl rfl)]
    rfl
  · rw [exec_write_flush hturn hseq, loopStep_asks (asks_L hturn (.inr ⟨rfl, hother⟩))]
    rfl

/-- The places from which an `echoPump` asks `txReady`. -/
theorem exec_echoPump_asks {n : Half} {k r i : Nat} {s : State} (hturn : s.turn = .L)
    (h : s.seqL = .echoPump (.writing n k r i (.flushing .ask)) ∨
      (s.seqI.active = false ∧ (s.seqL = .echoPump (.writing n k r i (.flushing .start)) ∨
        (s.seqL = .echoPump (.writing n k r i .pushing) ∧ r ≤ i)))) :
    exec .echoPump s = .next (if (beTxReady s).1
      then (beTxReady s).2.setCurrent (echoFlush n k r i .pop) else echoNextIteration (beTxReady s).2) := by
  rcases h with hseq | ⟨hother, hseq⟩
  · rw [exec_echoPump_at_flush hturn hseq, loopStep_asks (.inl rfl)]
    rfl
  · rw [exec_echoPump_flush hturn hseq, loopStep_asks (asks_L hturn (.inr ⟨rfl, hother⟩))]
    rfl

/-- A listed answer is drawn, recorded and gone (R132). -/
theorem beTxReady_listed_snd {s : State} {r : Bool} {rest : List Bool} (h : s.answers = r :: rest) :
    (beTxReady s).1 = r ∧ (beTxReady s).2 = s.asked r rest s.draws := by
  rw [beTxReady_listed s r rest h]
  exact ⟨rfl, rfl⟩

end Sys2Proof.Machine

namespace Sys2Proof

open Machine

/-- Settles O18: each of the four starts is the first question of the loop. -/
theorem secondTransmitActivityFaults : Obligations.SecondTransmitActivityFaults := by
  refine ⟨fun s p h hother => ?_, fun s h hother => ?_, fun s data length i hturn hother hseq => ?_,
    fun s n k r i hturn hother hseq => ?_⟩
  · obtain rfl := h.turn
    rw [exec_serviceTransmit (.inr ⟨h, rfl⟩), loopStep_overlap hother]
    rfl
  · rw [exec_write_nothing h, loopStep_overlap (otherActive_L h.turn hother)]
    rfl
  · rw [exec_write_flush hturn hseq, loopStep_overlap (otherActive_L hturn hother)]
    rfl
  · rw [exec_echoPump_flush hturn hseq, loopStep_overlap (otherActive_L hturn hother)]
    rfl

/-- Settles O31. -/
theorem initReturnsTheBackendAnswer : Obligations.InitReturnsTheBackendAnswer := by
  intro be rxs txs baud rxSize txSize s hturn hseq
  have hexec : exec (.init be rxs txs baud rxSize txSize) s = .next (initBackend baud s) :=
    if_pos ((State.current_L hturn).trans hseq)
  obtain ⟨r, as, d, hr, hstate, hlisted, hfree⟩ := beInit_drawn baud s
  rw [initBackend, hr, hstate, State.finish_L (s := { s with
    answers := as, draws := d, trace := s.trace ++ [.init baud r], status := if r then .ok else .failed }) hturn]
    at hexec
  exact ⟨r, _, hexec, rfl, hlisted, hfree⟩

/-- Settles O34. -/
theorem serviceTransmitAsksFirst : Obligations.ServiceTransmitAsksFirst := by
  intro s p h
  have hturn : s.turn = p := h.elim (fun h => h.1.turn) And.left
  have hexec : exec .serviceTransmit s = .next (if (beTxReady s).1
      then (beTxReady s).2.setCurrent (.serviceTransmit .pop) else (beTxReady s).2.finish (okResponse 0)) := by
    subst hturn
    rcases h with ⟨hready, hother⟩ | ⟨-, hseq⟩
    · rw [exec_serviceTransmit (.inr ⟨hready, rfl⟩), loopStep_asks (.inr ⟨rfl, hother⟩)]
      rfl
    · rw [exec_serviceTransmit (.inl hseq), loopStep_asks (.inl rfl)]
      rfl
  obtain ⟨r, as, d, hr, hstate, hlisted, hfree⟩ := beTxReady_drawn s
  rw [hr, hstate] at hexec
  cases r with
  | false =>
    rw [if_neg (by simp)] at hexec
    cases p with
    | I => exact ⟨_, _, hexec.trans (congrArg _ (State.finish_I (s := s.asked false as d) hturn _)),
        rfl, rfl, rfl, hlisted, hfree, rfl, rfl, rfl⟩
    | L => exact ⟨_, _, hexec.trans (congrArg _ (State.finish_L (s := s.asked false as d) hturn _)),
        rfl, rfl, rfl, hlisted, hfree, rfl, rfl, rfl⟩
  | true =>
    rw [if_pos rfl] at hexec
    cases p with
    | I => exact ⟨_, _, hexec.trans (congrArg _ (State.setCurrent_I (s := s.asked true as d) hturn _)),
        rfl, rfl, rfl, hlisted, hfree, rfl, rfl, rfl⟩
    | L => exact ⟨_, _, hexec.trans (congrArg _ (State.setCurrent_L (s := s.asked true as d) hturn _)),
        rfl, rfl, rfl, hlisted, hfree, rfl, rfl, rfl⟩

/-- Settles O35. -/
theorem serviceTransmitForwardsThePoppedByte : Obligations.ServiceTransmitForwardsThePoppedByte := by
  refine ⟨?_, ?_, ?_⟩
  · rintro s _ rfl hseq h0
    rw [exec_serviceTransmit (.inl hseq), loopStep_pop_empty (Fifo.empty_of_eq h0)]
    rfl
  · rintro s p b hturn hseq h0 hrd rfl
    have hexec : exec .serviceTransmit s =
        .next ((s.popped .tx).setCurrent (.serviceTransmit (.put (s.byteAtRead .tx)))) := by
      rw [exec_serviceTransmit (.inl ((State.current_eq_seqOf hturn).trans hseq)),
        loopStep_pop (Fifo.empty_of_ne h0) hrd]
      rfl
    cases p with
    | I => exact ⟨_, hexec.trans (congrArg _ (State.setCurrent_I (s := s.popped .tx) hturn _)),
        rfl, rfl, poppedFifo_rd_toNat hrd, rfl, rfl⟩
    | L => exact ⟨_, hexec.trans (congrArg _ (State.setCurrent_L (s := s.popped .tx) hturn _)),
        rfl, rfl, poppedFifo_rd_toNat hrd, rfl, rfl⟩
  · rintro s _ b rfl hseq
    rw [exec_serviceTransmit (.inl hseq), loopStep_put]
    rfl

/-- Settles O38. -/
theorem writeStartsByPushing : Obligations.WriteStartsByPushing := by
  intro data length i b s hturn hplace hb
  have hexec : exec (.write data length) s = ofResult (writeCommandStep data length i .pushing s) := by
    refine exec_write (hplace.symm.imp (State.current_L hturn).trans ?_)
    rintro ⟨hready, hi, hlen⟩
    exact ⟨hready, hlen, hi, rfl⟩
  refine ⟨fun hcap => ?_, fun hcap hwr => ?_⟩
  · rw [hexec, writeCommandStep_full length hb (Fifo.full_of_eq hcap), State.setCurrent_L hturn]
    rfl
  · refine ⟨_, by rw [hexec, writeCommandStep_room length hb (Fifo.full_of_ne hcap) hwr]; rfl, ?_, fun r a hne => ?_,
      ?_, ?_, ?_⟩
    · rw [State.byteAt_setCurrent]; exact s.byteAt_pushed_same .tx b
    · rw [State.byteAt_setCurrent]; exact State.byteAt_pushed_other (f := .tx) b hne
    · rw [State.setCurrent_tx]; exact pushedFifo_wr_toNat hwr
    · rw [State.setCurrent_tx]; rfl
    · rw [State.setCurrent_L (by rw [State.pushed_tx_eq]; exact hturn), State.pushed_tx_eq]
      rfl

/-- Settles O39: the flush of a `write` is the `serviceTransmit` loop, and returns the count enqueued before it. -/
theorem writeAlwaysFlushes : Obligations.WriteAlwaysFlushes := by
  intro data length i s hturn
  refine ⟨fun hplace => ?_, fun hseq h0 => ?_, fun b hseq h0 hrd hb => ?_, fun b hseq => ?_⟩
  · have hexec := exec_write_asks hturn hplace
    obtain ⟨r, as, d, hr, hstate, hlisted, hfree⟩ := beTxReady_drawn s
    rw [hr, hstate] at hexec
    cases r with
    | false =>
      rw [if_neg (by simp), State.finish_L (s := s.asked false as d) hturn] at hexec
      exact ⟨_, _, hexec, rfl, rfl, rfl, hlisted, hfree, rfl⟩
    | true =>
      rw [if_pos rfl, State.setCurrent_L (s := s.asked true as d) hturn] at hexec
      exact ⟨_, _, hexec, rfl, rfl, rfl, hlisted, hfree, rfl⟩
  · rw [exec_write_at_flush hturn hseq, loopStep_pop_empty (Fifo.empty_of_eq h0), State.finish_L hturn]
    rfl
  · subst hb
    refine ⟨_, by rw [exec_write_at_flush hturn hseq, loopStep_pop (Fifo.empty_of_ne h0) hrd,
      State.setCurrent_L (s := s.popped .tx) hturn]; rfl, rfl, poppedFifo_rd_toNat hrd, rfl, rfl⟩
  · rw [exec_write_at_flush hturn hseq, loopStep_put, State.setCurrent_L (s := s.record _) hturn]
    rfl

/-- Settles O42. -/
theorem readPopsOneByte : Obligations.ReadPopsOneByte := by
  intro maxLen out s hturn hplace
  have hexec : exec (.read maxLen) s = ofResult (readCommandStep maxLen out s) := by
    refine exec_read (hplace.imp (State.current_L hturn).trans ?_)
    rintro ⟨hidle, hok, hout, hlen⟩
    exact ⟨⟨hturn, hidle, hok⟩, hlen, hout⟩
  refine ⟨fun h0 => ?_, fun b h0 hrd hb => ?_⟩
  · rw [hexec, readCommandStep_empty maxLen out (Fifo.empty_of_eq h0), State.finish_L hturn]
    rfl
  · subst hb
    refine ⟨_, by rw [hexec, readCommandStep_pop maxLen out (Fifo.empty_of_ne h0) hrd,
      State.setCurrent_L (s := s.popped .rx) hturn, State.finish_L (s := s.popped .rx) hturn]; rfl, ?_⟩
    split
    · exact ⟨poppedFifo_rd_toNat hrd, rfl, rfl, rfl, rfl⟩
    · exact ⟨poppedFifo_rd_toNat hrd, rfl, rfl, rfl, rfl⟩

/-- Settles O50. -/
theorem echoPumpAsksForTheCount : Obligations.EchoPumpAsksForTheCount := by
  intro s hplace
  have hturn : s.turn = .L := hplace.elim State.readyAt.turn And.left
  have hexec : exec .echoPump s = .next (echoAsk s) := by
    refine exec_echoPump (loc := .ask) (hplace.symm.imp ?_ fun h => ⟨h, rfl⟩)
    exact fun h => (State.current_L hturn).trans h.2
  refine ⟨fun h0 => ?_, fun h0 => ?_⟩
  · rw [hexec, echoAsk, availableCount, State.fifo_rx, if_pos h0, echoReturn, State.finish_L (s := s.dropStaging) hturn]
    rfl
  · rw [hexec, echoAsk, availableCount, State.fifo_rx, if_neg h0, State.setCurrent_L hturn]

/-- Settles O51: the first byte of an iteration and each later one are the same micro-step of the inner `read`. -/
theorem echoPumpStagesTheChunk : Obligations.EchoPumpStagesTheChunk := by
  intro n k i b s hturn hplace
  have hexec : exec .echoPump s = ofResult (echoRead n k i s) := by
    rcases hplace with ⟨hseq, rfl, hk, hpos⟩ | hseq
    · have hchunk : echoChunk n s = k := hk.symm
      rw [exec_echoPump (.inl ((State.current_L hturn).trans hseq)), echoPumpStep, hchunk, if_neg (by omega)]
    · rw [exec_echoPump (.inl ((State.current_L hturn).trans hseq)), echoPumpStep]
  refine ⟨fun h0 hrd hb hmax => ?_, fun h0 hi => ?_, fun h0 hi => ?_⟩
  · subst hb
    refine ⟨_, by rw [hexec, echoRead_pop n k i (Fifo.empty_of_ne h0) hrd hmax,
      State.setCurrent_L (s := s.stagedPop i) hturn]; rfl, poppedFifo_rd_toNat hrd, rfl,
      Memory.read_write_same .., fun j hj => Memory.read_write_ne _ _ _ _ hj, rfl, rfl⟩
  · rw [hexec, echoRead_empty n k i (Fifo.empty_of_eq h0), echoAfterRead, if_pos hi, echoReturn,
      State.finish_L (s := s.dropStaging) hturn]
    rfl
  · rw [hexec, echoRead_empty n k i (Fifo.empty_of_eq h0), echoAfterRead, if_neg hi, State.setCurrent_L hturn]
    rfl

/-- Settles O52. -/
theorem echoPumpDropsWhatDoesNotFit : Obligations.EchoPumpDropsWhatDoesNotFit := by
  intro n k r i b s hturn
  refine ⟨fun hseq hi hmax hb => ?_, fun rest hplace hanswers => ?_, fun hseq h0 => ?_⟩
  · subst hb
    have hexec : exec .echoPump s = ofResult (echoWrite n k r i .pushing s) :=
      exec_echoPump (loc := .writing n k r i .pushing) (.inl ((State.current_L hturn).trans hseq))
    refine ⟨fun hcap => ?_, fun hcap hwr => ?_⟩
    · rw [hexec, echoWrite_full n k hi hmax (Fifo.full_of_eq hcap), State.setCurrent_L hturn]
      rfl
    · refine ⟨_, by rw [hexec, echoWrite_room n k hi hmax (Fifo.full_of_ne hcap) hwr]; rfl, ?_, fun q a hne => ?_,
        ?_, ?_, ?_⟩
      · rw [State.byteAt_setCurrent]; exact s.byteAt_pushed_same .tx _
      · rw [State.byteAt_setCurrent]; exact State.byteAt_pushed_other (f := .tx) _ hne
      · rw [State.setCurrent_tx]; exact pushedFifo_wr_toNat hwr
      · rw [State.setCurrent_tx]; rfl
      · rw [State.setCurrent_L (by rw [State.pushed_tx_eq]; exact hturn), State.pushed_tx_eq]
        rfl
  · obtain ⟨hfalse, hasked⟩ := beTxReady_listed_snd hanswers
    rw [exec_echoPump_asks hturn hplace, hfalse, hasked, if_neg (by simp)]
    exact congrArg _ (State.setCurrent_L (s := (s.asked false rest s.draws).dropStaging) hturn _)
  · rw [exec_echoPump_at_flush hturn hseq, loopStep_pop_empty (Fifo.empty_of_eq h0)]
    exact congrArg _ (State.setCurrent_L (s := s.dropStaging) hturn _)

/-- Settles O53. -/
theorem echoPumpFlushForwards : Obligations.EchoPumpFlushForwards := by
  intro n k r i s hturn
  refine ⟨fun hplace => ?_, fun b hseq h0 hrd hb => ?_, fun b hseq => ?_⟩
  · have hexec := exec_echoPump_asks hturn hplace
    obtain ⟨r, as, d, hr, hstate, hlisted, hfree⟩ := beTxReady_drawn s
    rw [hr, hstate] at hexec
    cases r with
    | false =>
      rw [if_neg (by simp), echoNextIteration, State.setCurrent_L (s := (s.asked false as d).dropStaging) hturn] at hexec
      exact ⟨_, _, hexec, rfl, rfl, rfl, hlisted, hfree, rfl⟩
    | true =>
      rw [if_pos rfl, State.setCurrent_L (s := s.asked true as d) hturn] at hexec
      exact ⟨_, _, hexec, rfl, rfl, rfl, hlisted, hfree, rfl⟩
  · subst hb
    refine ⟨_, by rw [exec_echoPump_at_flush hturn hseq, loopStep_pop (Fifo.empty_of_ne h0) hrd,
      State.setCurrent_L (s := s.popped .tx) hturn]; rfl, rfl, poppedFifo_rd_toNat hrd, rfl, rfl⟩
  · rw [exec_echoPump_at_flush hturn hseq, loopStep_put, State.setCurrent_L (s := s.record _) hturn]
    rfl

end Sys2Proof

/-! # What one micro-step can do, said once

Every micro-step makes at most one access to what the ports share, and then either returns, which delivers its response, or
goes on at another place. `Access` lists the accesses, each with the commands that make it, and `exec_next_microStep` says that
`exec` does nothing else. The frames over every command are read off it. -/

namespace Sys2Proof.Machine

/-- The commands that run the `serviceTransmit` loop. -/
def drainers : List String := ["serviceTransmit", "write", "echoPump"]

/-- The access of one micro-step of the command `i`, from the state before it to the state in which its sequencer is written. -/
inductive Access : Instr → State → State → Prop
  /-- No access: an answer, a count, a full or an empty FIFO. -/
  | none (i : Instr) (s : State) : Access i s s
  | ask {i : Instr} (hi : i.mnemonic ∈ drainers) (s : State) (r : Bool) (as : List Bool) (d : Nat) :
      Access i s (s.asked r as d)
  | popTx {i : Instr} (hi : i.mnemonic ∈ drainers) {s : State} (hempty : s.tx.empty = false) : Access i s (s.popped .tx)
  | send {i : Instr} (hi : i.mnemonic ∈ drainers) (s : State) (b : Byte) : Access i s (s.record (.txWrite b))
  | pushTx {i : Instr} (hi : i.mnemonic ∈ ["write", "echoPump"]) {s : State} (hfull : s.tx.full = false) (b : Byte) :
      Access i s (s.pushed .tx b)
  | read (maxLen : Half) {s : State} (hempty : s.rx.empty = false) : Access (.read maxLen) s (s.popped .rx)
  | stage {s : State} (hempty : s.rx.empty = false) (k : Nat) : Access .echoPump s (s.stagedPop k)
  /-- What ends an iteration of `echoPump` drops the staging buffer with it. -/
  | drop {s t : State} (h : Access .echoPump s t) : Access .echoPump s t.dropStaging
  | ingest (b : Byte) {s : State} (hfull : s.rx.full = false) : Access (.ingestReceivedByte b) s (s.pushed .rx b)
  | overflow (b : Byte) (s : State) : Access (.ingestReceivedByte b) s { s with ovf := satInc s.ovf }
  | clear (s : State) : Access .overflowClear s { s with ovf := 0 }
  | tune (n : Half) (s : State) : Access (.setEchoChunkSize n) s { s with echoCfg := n }
  | setup (be rxs txs : Bool) (baud : Word) (rxSize txSize : Half) (s : State) :
      Access (.init be rxs txs baud rxSize txSize) s (initSetup rxSize txSize s)
  | call (be rxs txs : Bool) (baud : Word) (rxSize txSize : Half) (s : State) :
      Access (.init be rxs txs baud rxSize txSize) s
        { (beInit baud s).2 with status := if (beInit baud s).1 then .ok else .failed }

/-- How a micro-step of the command `i` ends: it returns with a response, or goes on in flight. -/
def Ends (i : Instr) (u t : State) : Prop :=
  (∃ r, t = u.finish r) ∨ (∃ q : Seq, q.instr = some i ∧ t = u.setCurrent q)

/-- A micro-step of the command `i`: an access, and then its end. -/
def MicroStep (i : Instr) (s t : State) : Prop := ∃ u, Access i s u ∧ Ends i u t

theorem microStep_finish {i : Instr} {s u : State} (h : Access i s u) (r : Response) : MicroStep i s (u.finish r) :=
  ⟨u, h, .inl ⟨r, rfl⟩⟩

theorem microStep_goOn {i : Instr} {s u : State} (h : Access i s u) {q : Seq} (hq : q.instr = some i) :
    MicroStep i s (u.setCurrent q) :=
  ⟨u, h, .inr ⟨q, hq, rfl⟩⟩

theorem microStep_wrongPort {i : Instr} {s t : State} (h : wrongPortAnswer i s t) : MicroStep i s t := by
  obtain ⟨-, -, rfl⟩ := h
  exact microStep_finish (.none i s) _

/-- The access of one micro-step of the `serviceTransmit` loop. -/
theorem serviceStep_access {i : Instr} (hi : i.mnemonic ∈ drainers) {loc : TxLoc} {s u : State} {o : Option TxLoc}
    (h : serviceStep loc s = .ok (o, u)) : Access i s u := by
  rcases serviceStep_ok loc s u o h with ⟨-, -, rfl⟩ | ⟨-, ⟨-, -, rfl⟩ | ⟨b, hpop, -⟩⟩ | ⟨b, -, -, rfl⟩
  · obtain ⟨r, as, d, -, hstate, -⟩ := beTxReady_drawn s
    rw [hstate]
    exact .ask hi s r as d
  · exact .none i u
  · rcases pop_ok .tx s u _ hpop with ⟨hb, -⟩ | ⟨-, -, hempty, -, -, rfl⟩
    · simp at hb
    · exact .popTx hi hempty
  · exact .send hi s b

/-- The access of one micro-step of a `write` body. -/
theorem writeStep_access {i : Instr} (hi : i.mnemonic ∈ ["write", "echoPump"]) {next : Option Byte} {k : Nat}
    {loc : WriteLoc} {s u : State} {o : WriteOut} (h : writeStep next k loc s = .ok (o, u)) : Access i s u := by
  have hi' : i.mnemonic ∈ drainers := List.mem_cons_of_mem _ hi
  rcases writeStep_ok next k loc s u o h with ⟨l, -, hf⟩ | ⟨-, -, hf⟩ | ⟨-, b, r, -, hp, -⟩
  · obtain ⟨o', hs, -⟩ := flushStep_ok k l s u o hf
    exact serviceStep_access hi' hs
  · obtain ⟨o', hs, -⟩ := flushStep_ok k .start s u o hf
    exact serviceStep_access hi' hs
  · rcases push_ok .tx b s u r hp with ⟨-, -, rfl⟩ | ⟨-, hfull, -, rfl⟩
    · exact .none i u
    · exact .pushTx hi hfull b

/-- Both ways in which an iteration's inner `read` is over. -/
theorem echoAfterRead_microStep {n : Half} {k r : Nat} {s u : State} (h : Access .echoPump s u) :
    MicroStep .echoPump s (echoAfterRead n k r u) := by
  unfold echoAfterRead echoReturn
  split
  · exact microStep_finish (.drop h) _
  · exact microStep_goOn h rfl

theorem echoRead_microStep {n : Half} {k i : Nat} {s t : State} (h : echoRead n k i s = .ok t) :
    MicroStep .echoPump s t := by
  rcases echoRead_ok n k i s t h with ⟨-, rfl⟩ | ⟨b, u, hpop, -, rfl⟩
  · exact echoAfterRead_microStep (.none _ s)
  · rcases pop_ok .rx s u _ hpop with ⟨hb, -⟩ | ⟨b', hb, hempty, -, hbyte, rfl⟩
    · simp at hb
    · obtain rfl : b = s.byteAtRead .rx := (Option.some.inj hb).trans hbyte.symm
      have hstage : Access .echoPump s (s.stagedPop i) := .stage hempty i
      split
      · exact microStep_goOn hstage rfl
      · exact echoAfterRead_microStep hstage

theorem echoPumpStep_microStep {loc : EchoLoc} {s t : State} (h : echoPumpStep loc s = .ok t) :
    MicroStep .echoPump s t := by
  cases loc with
  | ask =>
    obtain rfl : echoAsk s = t := Except.ok.inj h
    unfold echoAsk echoReturn
    split
    · exact microStep_finish (.drop (.none _ s)) _
    · exact microStep_goOn (.none _ s) rfl
  | counted n =>
    simp only [echoPumpStep] at h
    split at h
    · obtain rfl := Except.ok.inj h
      exact echoAfterRead_microStep (.none _ s)
    · exact echoRead_microStep h
  | reading n k i => exact echoRead_microStep h
  | writing n k r i loc =>
    obtain ⟨next, o, u, -, hs, rfl⟩ := echoWrite_ok n k r i loc s t h
    have hacc : Access .echoPump s u := writeStep_access (by decide) hs
    cases o with
    | running i' loc' => exact microStep_goOn hacc rfl
    | returned i' => exact microStep_goOn (.drop hacc) rfl

/-- An answered micro-step is an access and an end, for every command. -/
theorem exec_next_microStep {i : Instr} {s t : State} (h : exec i s = .next t) : MicroStep i s t := by
  cases i with
  | init be rxs txs baud a b =>
    rcases execInit_next be rxs txs baud a b s t h with hw | ⟨-, rfl⟩ | ⟨-, -, -, ⟨-, rfl⟩ | ⟨-, rfl⟩⟩
    · exact microStep_wrongPort hw
    · exact microStep_finish (.call ..) _
    · exact microStep_goOn (.setup ..) rfl
    · exact microStep_finish (.none ..) _
  | ingestReceivedByte b =>
    rcases execIngest_next b s t h with hw | ⟨-, hb⟩
    · exact microStep_wrongPort hw
    · rcases ingest_ok b s t hb with ⟨u, hp, rfl⟩ | ⟨-, rfl⟩
      · rcases push_ok .rx b s u _ hp with ⟨hr, -⟩ | ⟨-, hfull, -, rfl⟩
        · simp at hr
        · exact microStep_finish (.ingest b hfull) _
      · exact microStep_finish (.overflow b s) _
  | serviceTransmit =>
    rcases execServiceTransmit_next s t h with hw | ⟨loc, -, hs⟩
    · exact microStep_wrongPort hw
    · obtain ⟨o, u, hservice, rfl⟩ := serviceTransmitStep_ok loc s t hs
      have hacc : Access .serviceTransmit s u := serviceStep_access (by decide) hservice
      cases o with
      | some loc' => exact microStep_goOn hacc rfl
      | none => exact microStep_finish hacc _
  | write data length =>
    rcases execWrite_next data length s t h with hw | ⟨i, loc, -, hs⟩
    · exact microStep_wrongPort hw
    · obtain ⟨o, u, hwrite, rfl⟩ := writeCommandStep_ok data length i loc s t hs
      have hacc : Access (.write data length) s u := writeStep_access (by simp [Instr.mnemonic]) hwrite
      cases o with
      | running i' loc' => exact microStep_goOn hacc rfl
      | returned i' => exact microStep_finish hacc _
  | read maxLen =>
    rcases execRead_next maxLen s t h with hw | ⟨-, -, rfl⟩ | ⟨out, -, hs⟩
    · exact microStep_wrongPort hw
    · exact microStep_finish (.none ..) _
    · obtain ⟨o, u, hp, rfl⟩ := readCommandStep_ok maxLen out s t hs
      rcases pop_ok .rx s u o hp with ⟨rfl, -, rfl⟩ | ⟨b, rfl, hempty, -, -, rfl⟩
      · exact microStep_finish (.none ..) _
      · simp only
        split
        · exact microStep_goOn (.read maxLen hempty) rfl
        · exact microStep_finish (.read maxLen hempty) _
  | rxAvailableCount =>
    rcases accessor_next _ _ s t h with hw | ⟨-, rfl⟩
    · exact microStep_wrongPort hw
    · exact microStep_finish (.none ..) _
  | txQueuedCount =>
    rcases accessor_next _ _ s t h with hw | ⟨-, rfl⟩
    · exact microStep_wrongPort hw
    · exact microStep_finish (.none ..) _
  | echoPump =>
    rcases execEchoPump_next s t h with hw | ⟨loc, -, hs⟩
    · exact microStep_wrongPort hw
    · exact echoPumpStep_microStep hs
  | overflowCount =>
    rcases accessor_next _ _ s t h with hw | ⟨-, rfl⟩
    · exact microStep_wrongPort hw
    · exact microStep_finish (.none ..) _
  | overflowClear =>
    rcases execOverflowClear_next s t h with hw | ⟨-, rfl⟩
    · exact microStep_wrongPort hw
    · exact microStep_finish (.clear s) _
  | setEchoChunkSize n =>
    rcases execSetEchoChunkSize_next n s t h with hw | ⟨-, rfl⟩
    · exact microStep_wrongPort hw
    · exact microStep_finish (.tune n s) _
  | getEchoChunkSize =>
    rcases accessor_next _ _ s t h with hw | ⟨-, rfl⟩
    · exact microStep_wrongPort hw
    · exact microStep_finish (.none ..) _

/-! ## What an access leaves as it was -/

@[simp] theorem State.pushed_rx_of_tx (s : State) (b : Byte) : (s.pushed .tx b).rx = s.rx := by simp [State.pushed]
@[simp] theorem State.pushed_tx_of_rx (s : State) (b : Byte) : (s.pushed .rx b).tx = s.tx := by simp [State.pushed]
@[simp] theorem State.popped_rx_of_tx (s : State) : (s.popped .tx).rx = s.rx := rfl
@[simp] theorem State.popped_tx_of_rx (s : State) : (s.popped .rx).tx = s.tx := rfl
@[simp] theorem State.pushed_tx_tx (s : State) (b : Byte) : (s.pushed .tx b).tx = pushedFifo s.tx := by
  simp [State.pushed]
@[simp] theorem State.pushed_rx_rx (s : State) (b : Byte) : (s.pushed .rx b).rx = pushedFifo s.rx := by
  simp [State.pushed]
@[simp] theorem State.popped_tx_tx (s : State) : (s.popped .tx).tx = poppedFifo s.tx := rfl
@[simp] theorem State.popped_rx_rx (s : State) : (s.popped .rx).rx = poppedFifo s.rx := rfl

/-- The fields that no access writes: the sequencers, the channels, the turn, its order and `ECHO_MAX`. -/
structure SameSeats (s u : State) : Prop where
  seqI : u.seqI = s.seqI
  seqL : u.seqL = s.seqL
  cmdI : u.cmdI = s.cmdI
  cmdL : u.cmdL = s.cmdL
  respI : u.respI = s.respI
  respL : u.respL = s.respL
  turn : u.turn = s.turn
  order : u.order = s.order
  echoMax : u.echoMax = s.echoMax

theorem State.sameSeats_refl (s : State) : SameSeats s s := ⟨rfl, rfl, rfl, rfl, rfl, rfl, rfl, rfl, rfl⟩

theorem State.sameSeats_pushed (s : State) (f : FifoId) (b : Byte) : SameSeats s (s.pushed f b) := by
  constructor <;> simp [State.pushed]

theorem State.sameSeats_popped (s : State) (f : FifoId) : SameSeats s (s.popped f) := by
  constructor <;> simp [State.popped]

theorem Access.sameSeats {i : Instr} {s u : State} (h : Access i s u) : SameSeats s u := by
  induction h with
  | none => exact State.sameSeats_refl _
  | ask => exact ⟨rfl, rfl, rfl, rfl, rfl, rfl, rfl, rfl, rfl⟩
  | popTx => exact State.sameSeats_popped _ .tx
  | send => exact ⟨rfl, rfl, rfl, rfl, rfl, rfl, rfl, rfl, rfl⟩
  | pushTx => exact State.sameSeats_pushed _ .tx _
  | read => exact State.sameSeats_popped _ .rx
  | stage => exact ⟨rfl, rfl, rfl, rfl, rfl, rfl, rfl, rfl, rfl⟩
  | drop _ ih => exact ⟨ih.seqI, ih.seqL, ih.cmdI, ih.cmdL, ih.respI, ih.respL, ih.turn, ih.order, ih.echoMax⟩
  | ingest => exact State.sameSeats_pushed _ .rx _
  | overflow => exact ⟨rfl, rfl, rfl, rfl, rfl, rfl, rfl, rfl, rfl⟩
  | clear => exact ⟨rfl, rfl, rfl, rfl, rfl, rfl, rfl, rfl, rfl⟩
  | tune => exact ⟨rfl, rfl, rfl, rfl, rfl, rfl, rfl, rfl, rfl⟩
  | setup => exact ⟨rfl, rfl, rfl, rfl, rfl, rfl, rfl, rfl, rfl⟩
  | call _ _ _ baud _ _ s =>
    obtain ⟨r, as, d, -, hstate, -⟩ := beInit_drawn baud s
    rw [hstate]
    exact ⟨rfl, rfl, rfl, rfl, rfl, rfl, rfl, rfl, rfl⟩

theorem SameSeats.seqOf {s u : State} (h : SameSeats s u) (p : Port) : u.seqOf p = s.seqOf p := by
  cases p
  · exact h.seqI
  · exact h.seqL

theorem SameSeats.responses {s u : State} (h : SameSeats s u) (p : Port) : u.responses p = s.responses p := by
  cases p
  · exact h.respI
  · exact h.respL

/-! ## What an end writes -/

theorem State.responses_setSeq (s : State) (p p' : Port) (q : Seq) : (s.setSeq p q).responses p' = s.responses p' := by
  cases p <;> cases p' <;> rfl

/-- A return writes the port's own sequencer and response channel and nothing else. -/
theorem State.finish_ends (u : State) (r : Response) :
    (u.finish r).seqOf (otherPort u.turn) = u.seqOf (otherPort u.turn) ∧
    (u.finish r).responses (otherPort u.turn) = u.responses (otherPort u.turn) ∧
    (u.finish r).responses u.turn = u.responses u.turn ++ [r] := by
  rw [State.finish_eq]
  simp only [State.seqOf_setSeq_other, State.seqOf_respond, State.responses_setSeq, State.responses_respond_same,
    State.responses_respond_other, and_self]

theorem State.setCurrent_ends (u : State) (q : Seq) :
    (u.setCurrent q).seqOf (otherPort u.turn) = u.seqOf (otherPort u.turn) ∧
    ∀ p, (u.setCurrent q).responses p = u.responses p := by
  rw [State.setCurrent]
  exact ⟨u.seqOf_setSeq_other .., fun p => u.responses_setSeq ..⟩

/-- A field that neither end writes is that of the state after the access. -/
theorem Ends.field_eq {α : Type} {i : Instr} {u t : State} (h : Ends i u t) (g : State → α)
    (hfinish : ∀ (u : State) r, g (u.finish r) = g u) (hset : ∀ (u : State) q, g (u.setCurrent q) = g u) :
    g t = g u := by
  rcases h with ⟨r, rfl⟩ | ⟨q, -, rfl⟩
  · exact hfinish u r
  · exact hset u q

/-! ## Which command may write which register (R44, R137 (c))

One lemma a register or group of registers: the accesses that write it belong to the commands listed. -/

section Writers

variable {i : Instr} {s u : State} (h : Access i s u)
include h

theorem Access.constructed (hi : i.mnemonic ≠ "init") :
    u.rx.cap = s.rx.cap ∧ u.tx.cap = s.tx.cap ∧ u.rx.mem = s.rx.mem ∧ u.tx.mem = s.tx.mem ∧
      u.status = s.status ∧ u.be = s.be := by
  induction h with
  | setup => exact absurd rfl hi
  | call => exact absurd rfl hi
  | drop _ ih => exact ih hi
  | _ => simp [State.asked, State.pushed, State.popped, State.stagedPop]

theorem Access.rx_cnt (hi : i.mnemonic ∉ ["init", "ingestReceivedByte", "read", "echoPump"]) :
    u.rx.cnt = s.rx.cnt := by
  cases h with
  | popTx => rfl
  | pushTx => rw [State.pushed_rx_of_tx]
  | read | stage | drop | ingest | setup | call => simp [Instr.mnemonic] at hi
  | _ => rfl

theorem Access.tx_cnt (hi : i.mnemonic ∉ ["init", "write", "echoPump", "serviceTransmit"]) : u.tx.cnt = s.tx.cnt := by
  cases h with
  | popTx hmem => exact absurd ((by decide : drainers ⊆ ["init", "write", "echoPump", "serviceTransmit"]) hmem) hi
  | pushTx hmem => exact absurd ((by decide : ["write", "echoPump"] ⊆ ["init", "write", "echoPump", "serviceTransmit"]) hmem) hi
  | ingest => rw [State.pushed_tx_of_rx]
  | stage | drop | setup | call => simp [Instr.mnemonic] at hi
  | _ => rfl

theorem Access.rx_wr (hi : i.mnemonic ∉ ["init", "ingestReceivedByte"]) : u.rx.wr = s.rx.wr := by
  induction h with
  | pushTx => rw [State.pushed_rx_of_tx]
  | drop _ ih => exact ih hi
  | ingest | setup | call => simp [Instr.mnemonic] at hi
  | _ => rfl

theorem Access.rx_rd (hi : i.mnemonic ∉ ["init", "read", "echoPump"]) : u.rx.rd = s.rx.rd := by
  cases h with
  | pushTx => rw [State.pushed_rx_of_tx]
  | ingest => rw [State.pushed_rx_rx, pushedFifo_rd]
  | read | stage | drop | setup | call => simp [Instr.mnemonic] at hi
  | _ => rfl

theorem Access.tx_wr (hi : i.mnemonic ∉ ["init", "write", "echoPump"]) : u.tx.wr = s.tx.wr := by
  cases h with
  | pushTx hmem => exact absurd ((by decide : ["write", "echoPump"] ⊆ ["init", "write", "echoPump"]) hmem) hi
  | ingest => rw [State.pushed_tx_of_rx]
  | stage | drop | setup | call => simp [Instr.mnemonic] at hi
  | _ => rfl

theorem Access.tx_rd (hi : i.mnemonic ∉ ["init", "write", "echoPump", "serviceTransmit"]) : u.tx.rd = s.tx.rd := by
  cases h with
  | popTx hmem => exact absurd ((by decide : drainers ⊆ ["init", "write", "echoPump", "serviceTransmit"]) hmem) hi
  | pushTx hmem => exact absurd ((by decide : ["write", "echoPump"] ⊆ ["init", "write", "echoPump", "serviceTransmit"]) hmem) hi
  | ingest => rw [State.pushed_tx_of_rx]
  | stage | drop | setup | call => simp [Instr.mnemonic] at hi
  | _ => rfl

theorem Access.ovf (hi : i.mnemonic ∉ ["init", "overflowClear", "ingestReceivedByte"]) : u.ovf = s.ovf := by
  induction h with
  | pushTx => rw [State.pushed_tx_eq]
  | drop _ ih => exact ih hi
  | ingest | overflow | clear | setup | call => simp [Instr.mnemonic] at hi
  | _ => rfl

theorem Access.echoCfg (hi : i.mnemonic ∉ ["init", "setEchoChunkSize"]) : u.echoCfg = s.echoCfg := by
  induction h with
  | pushTx => rw [State.pushed_tx_eq]
  | ingest => rw [State.pushed_rx_eq]
  | drop _ ih => exact ih hi
  | tune | setup | call => simp [Instr.mnemonic] at hi
  | _ => rfl

theorem Access.echoTmp (hi : i.mnemonic ≠ "echoPump") : u.echoTmp = s.echoTmp := by
  cases h with
  | pushTx => rw [State.pushed_tx_eq]
  | ingest => rw [State.pushed_rx_eq]
  | call _ _ _ baud =>
    obtain ⟨r, as, d, -, hstate, -⟩ := beInit_drawn baud s
    rw [hstate]
  | stage | drop => simp [Instr.mnemonic] at hi
  | _ => rfl

theorem Access.backend (hi : i.mnemonic ∉ ["init", "serviceTransmit", "write", "echoPump"]) :
    u.trace = s.trace ∧ u.answers = s.answers ∧ u.draws = s.draws := by
  cases h with
  | ask hmem => exact absurd ((by decide : drainers ⊆ ["init", "serviceTransmit", "write", "echoPump"]) hmem) hi
  | send hmem => exact absurd ((by decide : drainers ⊆ ["init", "serviceTransmit", "write", "echoPump"]) hmem) hi
  | pushTx => rw [State.pushed_tx_eq]; exact ⟨rfl, rfl, rfl⟩
  | ingest => rw [State.pushed_rx_eq]; exact ⟨rfl, rfl, rfl⟩
  | stage | drop | setup | call => simp [Instr.mnemonic] at hi
  | _ => exact ⟨rfl, rfl, rfl⟩

theorem Access.storage (hi : i.mnemonic ∉ ["ingestReceivedByte", "write", "echoPump"]) (r : Region) (a : Nat) :
    u.byteAt r a = s.byteAt r a := by
  cases h with
  | pushTx hmem => exact absurd ((by decide : ["write", "echoPump"] ⊆ ["ingestReceivedByte", "write", "echoPump"]) hmem) hi
  | popTx => exact s.byteAt_popped ..
  | read => exact s.byteAt_popped ..
  | call _ _ _ baud =>
    obtain ⟨ans, as, d, -, hstate, -⟩ := beInit_drawn baud s
    rw [hstate]
    cases r <;> rfl
  | stage | drop | ingest | overflow => simp [Instr.mnemonic] at hi
  | _ => cases r <;> rfl

/-- R40: an access adds at most one to the overflow counter, unless it clears it. -/
theorem Access.ovf_grows (hi : i.mnemonic ≠ "init") (hi' : i.mnemonic ≠ "overflowClear") :
    s.ovf.toNat ≤ u.ovf.toNat ∧ u.ovf.toNat ≤ s.ovf.toNat + 1 := by
  cases h with
  | overflow =>
    simp only [satInc_toNat]
    have := s.ovf.isLt
    omega
  | ingest => rw [State.pushed_rx_eq]; exact ⟨Nat.le_refl _, Nat.le_succ _⟩
  | clear => exact absurd rfl hi'
  | setup => exact absurd rfl hi
  | call => exact absurd rfl hi
  | none => exact ⟨Nat.le_refl _, Nat.le_succ _⟩
  | tune => exact ⟨Nat.le_refl _, Nat.le_succ _⟩
  | read => exact ⟨Nat.le_refl _, Nat.le_succ _⟩
  | stage => exact ⟨Nat.le_refl _, Nat.le_succ _⟩
  | ask => exact ⟨Nat.le_refl _, Nat.le_succ _⟩
  | popTx => exact ⟨Nat.le_refl _, Nat.le_succ _⟩
  | send => exact ⟨Nat.le_refl _, Nat.le_succ _⟩
  | pushTx => rw [State.pushed_tx_eq]; exact ⟨Nat.le_refl _, Nat.le_succ _⟩
  | drop hacc => rw [State.dropStaging_ovf, hacc.ovf (by decide)]; exact ⟨Nat.le_refl _, Nat.le_succ _⟩

end Writers

end Sys2Proof.Machine

namespace Sys2Proof

open Machine

/-- Settles O19: an access leaves both ports' seats alone, and an end writes those of its own port. -/
theorem microStepLeavesTheOtherPortAlone : Obligations.MicroStepLeavesTheOtherPortAlone := by
  intro i s t h
  obtain ⟨u, hacc, hend⟩ := exec_next_microStep h
  have hsame := hacc.sameSeats
  rw [← hsame.turn, ← hsame.cmdI, ← hsame.cmdL, ← hsame.order, ← hsame.seqOf, ← hsame.responses]
  rcases hend with ⟨r, rfl⟩ | ⟨q, -, rfl⟩
  · obtain ⟨hseq, hresp, -⟩ := u.finish_ends r
    exact ⟨u.finish_turn r, hseq, hresp, u.finish_cmdI r, u.finish_cmdL r, u.finish_order r⟩
  · obtain ⟨hseq, hresp⟩ := u.setCurrent_ends q
    exact ⟨u.setCurrent_turn q, hseq, hresp _, u.setCurrent_cmdI q, u.setCurrent_cmdL q, u.setCurrent_order q⟩

/-- Settles O20: a return leaves the port idle, and going on does not. -/
theorem oneResponsePerReturn : Obligations.OneResponsePerReturn := by
  intro i s t h
  obtain ⟨u, hacc, hend⟩ := exec_next_microStep h
  have hsame := hacc.sameSeats
  rw [← hsame.turn, ← hsame.responses]
  rcases hend with ⟨r, rfl⟩ | ⟨q, hq, rfl⟩
  · rw [if_pos (u.current_finish r)]
    exact ⟨r, (u.finish_ends r).2.2⟩
  · have hbusy : q ≠ .idle := by
      rintro rfl
      simp [Seq.instr] at hq
    rw [State.current_setCurrent, if_neg hbusy]
    exact ⟨(u.setCurrent_ends q).2 _, hq⟩

/-- Settles O21: each register is written by the accesses of its writers alone, and an end writes none. -/
theorem registersHaveTheirWriters : Obligations.RegistersHaveTheirWriters := by
  intro i s t h
  obtain ⟨u, hacc, hend⟩ := exec_next_microStep h
  have hrx : t.rx = u.rx := hend.field_eq (·.rx) State.finish_rx State.setCurrent_rx
  have htx : t.tx = u.tx := hend.field_eq (·.tx) State.finish_tx State.setCurrent_tx
  have hstatus : t.status = u.status := hend.field_eq (·.status) State.finish_status State.setCurrent_status
  have hbe : t.be = u.be := hend.field_eq (·.be) State.finish_be State.setCurrent_be
  have hovf : t.ovf = u.ovf := hend.field_eq (·.ovf) State.finish_ovf State.setCurrent_ovf
  have hcfg : t.echoCfg = u.echoCfg := hend.field_eq (·.echoCfg) State.finish_echoCfg State.setCurrent_echoCfg
  have htmp : t.echoTmp = u.echoTmp := hend.field_eq (·.echoTmp) State.finish_echoTmp State.setCurrent_echoTmp
  have htrace : t.trace = u.trace := hend.field_eq (·.trace) State.finish_trace State.setCurrent_trace
  have hanswers : t.answers = u.answers := hend.field_eq (·.answers) State.finish_answers State.setCurrent_answers
  have hdraws : t.draws = u.draws := hend.field_eq (·.draws) State.finish_draws State.setCurrent_draws
  have hmax : t.echoMax = u.echoMax := hend.field_eq (·.echoMax) State.finish_echoMax State.setCurrent_echoMax
  have hbyte : ∀ r a, t.byteAt r a = u.byteAt r a := fun r a =>
    hend.field_eq (·.byteAt r a) (fun u p => u.byteAt_finish p r a) (fun u q => u.byteAt_setCurrent q r a)
  simp only [hrx, htx, hstatus, hbe, hovf, hcfg, htmp, htrace, hanswers, hdraws, hmax, hbyte]
  exact ⟨hacc.constructed, hacc.rx_cnt, hacc.tx_cnt, hacc.rx_wr, hacc.rx_rd, hacc.tx_wr, hacc.tx_rd, hacc.ovf,
    hacc.echoCfg, hacc.echoTmp, hacc.backend, hacc.storage, hacc.sameSeats.echoMax⟩

/-- Settles O48. -/
theorem overflowOnlyGrows : Obligations.OverflowOnlyGrows := by
  intro i s t h hinit hclear
  obtain ⟨u, hacc, hend⟩ := exec_next_microStep h
  rw [hend.field_eq (·.ovf) State.finish_ovf State.setCurrent_ovf]
  exact hacc.ovf_grows hinit hclear

end Sys2Proof

/-! # The invariant of every reachable state

The invariant without its sequencers is `State.DataInv`, which every access keeps; with a legal place for the port's own
sequencer that gives the invariant of the state after the micro-step. Then each command's places, and the statement about
`step`. -/

namespace Sys2Proof.Machine

/-! ## The part of the invariant that is about registers and storage -/

/-- `State.Inv` without its sequencers, once a setup has run (R35, R36, R46, R127, R136). -/
structure State.DataInv (s : State) : Prop where
  rxmemWf : s.rxmem.wf
  txmemWf : s.txmem.wf
  echoTmpWf : s.echoTmp.wf
  rxBound : s.rx.mem = .rxmem
  txBound : s.tx.mem = .txmem
  echoMaxLe : Config.echoDefault.toNat ≤ s.echoMax.toNat
  rxInv : s.rx.Inv s.rxmem
  txInv : s.tx.Inv s.txmem
  beCopied : s.be = CapabilitySet.supplied

theorem State.Inv.dataInv {s : State} (h : s.Inv) (hsetUp : s.setUp) : s.DataInv :=
  ⟨h.rxmemWf, h.txmemWf, h.echoTmpWf, h.rxBound, h.txBound, h.echoMaxLe, h.rxInv hsetUp, h.txInv hsetUp,
    h.beCopied hsetUp⟩

theorem State.setUp_of_ok {s : State} (h : s.status = .ok) : s.setUp := .inl (by rw [h]; simp)

theorem State.Inv.dataInv_of_ok {s : State} (h : s.Inv) (hok : s.status = .ok) : s.DataInv :=
  h.dataInv (State.setUp_of_ok hok)

theorem State.DataInv.inv {s : State} (h : s.DataInv) (hL : legalL s s.seqL) (hI : legalI s s.seqI)
    (hone : ¬ (s.seqI.active = true ∧ s.seqL.active = true)) : s.Inv :=
  ⟨h.rxmemWf, h.txmemWf, h.echoTmpWf, h.rxBound, h.txBound, h.echoMaxLe, fun _ => h.rxInv, fun _ => h.txInv,
    fun _ => h.beCopied, hL, hI, hone⟩

/-- A FIFO that is bound to its own region, seen through its name. -/
theorem State.DataInv.fifoInv {s : State} (h : s.DataInv) (f : FifoId) :
    (s.fifo f).Inv (s.region (s.fifo f).mem) := by
  cases f
  · rw [State.fifo_rx, h.rxBound]; exact h.rxInv
  · rw [State.fifo_tx, h.txBound]; exact h.txInv

theorem State.pushed_tx_of_bound {s : State} (h : s.tx.mem = .txmem) (b : Byte) :
    s.pushed .tx b = { s with tx := pushedFifo s.tx, txmem := s.txmem.write s.tx.wr.toNat b } := by
  rw [State.pushed, State.fifo_tx, h]
  rfl

theorem State.pushed_rx_of_bound {s : State} (h : s.rx.mem = .rxmem) (b : Byte) :
    s.pushed .rx b = { s with rx := pushedFifo s.rx, rxmem := s.rxmem.write s.rx.wr.toNat b } := by
  rw [State.pushed, State.fifo_rx, h]
  rfl

section Data

variable {s : State} (h : s.DataInv)
include h

theorem State.DataInv.pushed_tx (hfull : s.tx.full = false) (b : Byte) : (s.pushed .tx b).DataInv := by
  rw [State.pushed_tx_of_bound h.txBound]
  exact ⟨h.rxmemWf, Memory.write_wf _ _ _ h.txmemWf, h.echoTmpWf, h.rxBound, h.txBound, h.echoMaxLe, h.rxInv,
    h.txInv.pushed (h.txInv.cnt_lt_cap hfull) b, h.beCopied⟩

theorem State.DataInv.pushed_rx (hfull : s.rx.full = false) (b : Byte) : (s.pushed .rx b).DataInv := by
  rw [State.pushed_rx_of_bound h.rxBound]
  exact ⟨Memory.write_wf _ _ _ h.rxmemWf, h.txmemWf, h.echoTmpWf, h.rxBound, h.txBound, h.echoMaxLe,
    h.rxInv.pushed (h.rxInv.cnt_lt_cap hfull) b, h.txInv, h.beCopied⟩

theorem State.DataInv.popped_tx (hempty : s.tx.empty = false) : (s.popped .tx).DataInv :=
  ⟨h.rxmemWf, h.txmemWf, h.echoTmpWf, h.rxBound, h.txBound, h.echoMaxLe, h.rxInv,
    h.txInv.popped (Fifo.cnt_toNat_pos hempty), h.beCopied⟩

theorem State.DataInv.popped_rx (hempty : s.rx.empty = false) : (s.popped .rx).DataInv :=
  ⟨h.rxmemWf, h.txmemWf, h.echoTmpWf, h.rxBound, h.txBound, h.echoMaxLe,
    h.rxInv.popped (Fifo.cnt_toNat_pos hempty), h.txInv, h.beCopied⟩

theorem State.DataInv.stagedPop (hempty : s.rx.empty = false) (k : Nat) : (s.stagedPop k).DataInv :=
  ⟨h.rxmemWf, h.txmemWf, Memory.write_wf _ _ _ h.echoTmpWf, h.rxBound, h.txBound, h.echoMaxLe,
    h.rxInv.popped (Fifo.cnt_toNat_pos hempty), h.txInv, h.beCopied⟩

theorem State.DataInv.dropStaging : s.dropStaging.DataInv :=
  ⟨h.rxmemWf, h.txmemWf, Memory.nil_wf, h.rxBound, h.txBound, h.echoMaxLe, h.rxInv, h.txInv, h.beCopied⟩

theorem State.DataInv.setCurrent (q : Seq) : (s.setCurrent q).DataInv := by
  constructor <;>
    simp only [State.setCurrent_rx, State.setCurrent_tx, State.setCurrent_rxmem, State.setCurrent_txmem,
      State.setCurrent_echoTmp, State.setCurrent_echoMax, State.setCurrent_be, h.rxmemWf, h.txmemWf, h.echoTmpWf,
      h.rxBound, h.txBound, h.echoMaxLe, h.rxInv, h.txInv, h.beCopied]

end Data

/-- Every access but those of `init` keeps the registers and the storage in order. -/
theorem Access.dataInv {i : Instr} {s u : State} (h : Access i s u) (hi : i.mnemonic ≠ "init") (hs : s.DataInv) :
    u.DataInv := by
  induction h with
  | none => exact hs
  | popTx _ hempty => exact hs.popped_tx hempty
  | pushTx _ hfull b => exact hs.pushed_tx hfull b
  | read _ hempty => exact hs.popped_rx hempty
  | stage hempty k => exact hs.stagedPop hempty k
  | drop _ ih => exact (ih hi hs).dropStaging
  | ingest b hfull => exact hs.pushed_rx hfull b
  | setup | call => exact absurd rfl hi
  | ask | send | overflow | clear | tune =>
    exact ⟨hs.rxmemWf, hs.txmemWf, hs.echoTmpWf, hs.rxBound, hs.txBound, hs.echoMaxLe, hs.rxInv, hs.txInv, hs.beCopied⟩

/-- A FIFO as `RB.init` leaves it meets its invariant, whatever its region holds (R121). -/
theorem Fifo.inv_of_init {r : Region} {size : Half} (h : size ≠ 0) (m : Memory) :
    (Fifo.mk r size 0 0 0).Inv m := by
  have hpos : 0 < size.toNat := Nat.pos_of_ne_zero fun h0 => h (BitVec.eq_of_toNat_eq h0)
  exact ⟨hpos, hpos, hpos, Nat.zero_le _, (Nat.zero_mod _).symm, fun j hj => absurd hj (Nat.not_lt_zero j)⟩

/-! ## Legal places, seen from another state -/

/-- Port L's place stays legal while port I acts: nothing of what it says can be undone by a byte more in `rx` (R68). -/
theorem legalL_of_le {s t : State} {q : Seq} (h : legalL s q) (hstatus : t.status = s.status)
    (htmp : t.echoTmp = s.echoTmp) (hmax : t.echoMax = s.echoMax) (hcnt : s.rx.cnt.toNat ≤ t.rx.cnt.toNat) :
    legalL t q := by
  cases q with
  | echoPump loc =>
    cases loc with
    | ask => rw [legalL, hstatus, htmp]; exact h
    | counted n =>
      obtain ⟨hok, hpos, hle, hnil⟩ := h
      exact ⟨hstatus.trans hok, hpos, hle.trans hcnt, htmp.trans hnil⟩
    | reading n k i =>
      obtain ⟨hok, hi, hik, hkn, hkmax, hleft, hstaged⟩ := h
      exact ⟨hstatus.trans hok, hi, hik, hkn, hmax ▸ hkmax, hleft.trans hcnt, htmp ▸ hstaged⟩
    | writing n k r i loc => rw [legalL, hstatus, htmp, hmax]; exact h
  | idle => rw [legalL, htmp]; exact h
  | init be rxs txs baud rxSize txSize => rw [legalL, hstatus, htmp]; exact h
  | serviceTransmit loc => rw [legalL, hstatus, htmp]; exact h
  | write data length i loc => rw [legalL, hstatus, htmp]; exact h
  | read maxLen out => rw [legalL, hstatus, htmp]; exact h

theorem legalI_of_status {s t : State} {q : Seq} (h : legalI s q) (hstatus : t.status = s.status) : legalI t q := by
  cases q with
  | serviceTransmit loc => exact ⟨hstatus.trans h.1, h.2⟩
  | idle => trivial
  | init | write | read | echoPump => exact h

/-- Before `status` is OK port I has nothing in flight. -/
theorem legalI_idle {s : State} {q : Seq} (h : legalI s q) (hstatus : s.status ≠ .ok) : q = .idle := by
  cases q with
  | idle => rfl
  | serviceTransmit loc => exact absurd h.1 hstatus
  | init | write | read | echoPump => exact h.elim

/-- The fields that the invariant speaks of. -/
structure SameCore (s t : State) : Prop where
  rx : t.rx = s.rx
  tx : t.tx = s.tx
  rxmem : t.rxmem = s.rxmem
  txmem : t.txmem = s.txmem
  be : t.be = s.be
  status : t.status = s.status
  echoTmp : t.echoTmp = s.echoTmp
  seqI : t.seqI = s.seqI
  seqL : t.seqL = s.seqL
  echoMax : t.echoMax = s.echoMax

theorem State.Inv.of_sameCore {s t : State} (h : s.Inv) (hsame : SameCore s t) : t.Inv := by
  have hsetUp : t.setUp → s.setUp := by rw [State.setUp, hsame.status, hsame.seqL]; exact id
  constructor <;> try simp only [hsame.rx, hsame.tx, hsame.rxmem, hsame.txmem, hsame.be, hsame.echoTmp, hsame.seqI,
    hsame.seqL, hsame.echoMax]
  case rxmemWf => exact h.rxmemWf
  case txmemWf => exact h.txmemWf
  case echoTmpWf => exact h.echoTmpWf
  case rxBound => exact h.rxBound
  case txBound => exact h.txBound
  case echoMaxLe => exact h.echoMaxLe
  case rxInv => exact fun hs => h.rxInv (hsetUp hs)
  case txInv => exact fun hs => h.txInv (hsetUp hs)
  case beCopied => exact fun hs => h.beCopied (hsetUp hs)
  case legalPortL => exact legalL_of_le h.legalPortL hsame.status hsame.echoTmp hsame.echoMax (by rw [hsame.rx])
  case legalPortI => exact legalI_of_status h.legalPortI hsame.status
  case oneActivity => exact h.oneActivity

theorem State.sameCore_respond (s : State) (p : Port) (r : Response) : SameCore s (s.respond p r) := by
  constructor <;> simp

theorem State.sameCore_consume (s : State) (rest : List Word) : SameCore s (s.consume rest) := by
  constructor <;> simp [State.consume]

theorem State.sameCore_takeTurn (s : State) : SameCore s s.takeTurn := by
  unfold State.takeTurn
  split <;> exact ⟨rfl, rfl, rfl, rfl, rfl, rfl, rfl, rfl, rfl, rfl⟩

/-! ## A legal place after the access gives the invariant after the micro-step -/

theorem State.Inv.finish_of_idle {s : State} (h : s.Inv) (hidle : s.current = .idle) (r : Response) :
    (s.finish r).Inv := by
  rw [State.finish_of_idle rfl hidle]
  exact h.of_sameCore (s.sameCore_respond _ r)

theorem State.finish_eq_respond (s : State) (r : Response) : s.finish r = (s.setCurrent .idle).respond s.turn r := by
  rw [State.finish_eq, State.setCurrent]
  cases s.turn <;> rfl

theorem State.Inv.finish {u : State} (h : (u.setCurrent .idle).Inv) (r : Response) : (u.finish r).Inv := by
  rw [State.finish_eq_respond]
  exact h.of_sameCore (State.sameCore_respond _ _ r)

/-- At most one activity exists, so the other port is in none while this one is. -/
theorem State.Inv.other_inactive {s : State} (h : s.Inv) (hact : s.current.active = true) :
    (s.seqOf (otherPort s.turn)).active = false := by
  refine Bool.eq_false_iff.2 fun hother => h.oneActivity ?_
  cases hturn : s.turn
  · rw [State.current_I hturn] at hact
    rw [hturn] at hother
    exact ⟨hact, hother⟩
  · rw [State.current_L hturn] at hact
    rw [hturn] at hother
    exact ⟨hother, hact⟩

/-- What the places of the two ports have to meet for port `p` to stand at `q` after an access that led to `u`. -/
def LegalAt (p : Port) (s u : State) (q : Seq) : Prop :=
  match p with
  | .L => legalL u q
  | .I => legalI u q ∧ s.rx.cnt.toNat ≤ u.rx.cnt.toNat ∧ u.echoTmp = s.echoTmp

theorem State.Inv.setCurrent {s u : State} {q : Seq} (h : s.Inv) (hsame : SameSeats s u)
    (hstatus : u.status = s.status) (hdata : u.DataInv) (hlegal : LegalAt s.turn s u q)
    (hact : q.active = true → (s.seqOf (otherPort s.turn)).active = false) : (u.setCurrent q).Inv := by
  cases hturn : s.turn
  · rw [hturn] at hlegal hact
    obtain ⟨hI, hcnt, htmp⟩ := hlegal
    refine (hdata.setCurrent q).inv ?_ ?_ ?_ <;> rw [State.setCurrent_I (hsame.turn.trans hturn)]
    · exact legalL_of_le (hsame.seqL ▸ h.legalPortL) hstatus htmp hsame.echoMax hcnt
    · exact legalI_of_status hI rfl
    · rintro ⟨hq, hL⟩
      have hoff := hact hq
      rw [← hsame.seqOf] at hoff
      exact Bool.false_ne_true (hoff.symm.trans hL)
  · rw [hturn] at hlegal hact
    refine (hdata.setCurrent q).inv ?_ ?_ ?_ <;> rw [State.setCurrent_L (hsame.turn.trans hturn)]
    · exact legalL_of_le hlegal rfl rfl rfl (Nat.le_refl _)
    · exact legalI_of_status (hsame.seqI ▸ h.legalPortI) hstatus
    · rintro ⟨hI, hq⟩
      have hoff := hact hq
      rw [← hsame.seqOf] at hoff
      exact Bool.false_ne_true (hoff.symm.trans hI)

/-- The same after an access of a command other than `init`, while `status` is OK. -/
theorem State.Inv.access {i : Instr} {s u : State} {q : Seq} (h : s.Inv) (hok : s.status = .ok) (hacc : Access i s u)
    (hi : i.mnemonic ≠ "init") (hlegal : LegalAt s.turn s u q)
    (hact : q.active = true → (s.seqOf (otherPort s.turn)).active = false) : (u.setCurrent q).Inv :=
  h.setCurrent hacc.sameSeats (hacc.constructed hi).2.2.2.2.1 (hacc.dataInv hi (h.dataInv_of_ok hok)) hlegal hact

/-! ## Which port a command is at -/

/-- What is in flight but `serviceTransmit` is in flight at port L (R102). -/
theorem State.Inv.turn_L {s : State} {q : Seq} (h : s.Inv) (hcur : s.current = q) (hq : ¬ legalI s q) : s.turn = .L := by
  cases hturn : s.turn
  · rw [State.current_I hturn] at hcur
    exact absurd (hcur ▸ h.legalPortI) hq
  · rfl

theorem starts_turn_L {i : Instr} {s : State} (h : starts i s) (hi : takenOn .I i = false) : s.turn = .L := by
  obtain ⟨-, hport, -⟩ := h
  cases hturn : s.turn
  · rw [hturn, hi] at hport; simp at hport
  · rfl

theorem starts_turn_I {i : Instr} {s : State} (h : starts i s) (hi : takenOn .L i = false) : s.turn = .I := by
  obtain ⟨-, hport, -⟩ := h
  cases hturn : s.turn
  · rfl
  · rw [hturn, hi] at hport; simp at hport

theorem State.Inv.legal_at_L {s : State} (h : s.Inv) (hturn : s.turn = .L) : legalL s s.current := by
  rw [State.current_L hturn]; exact h.legalPortL

theorem State.Inv.legal_at_I {s : State} (h : s.Inv) (hturn : s.turn = .I) : legalI s s.current := by
  rw [State.current_I hturn]; exact h.legalPortI

theorem legalAt_L {s u : State} {q : Seq} (hturn : s.turn = .L) (h : legalL u q) : LegalAt s.turn s u q := by
  rw [hturn]; exact h

theorem legalAt_I {s u : State} {q : Seq} (hturn : s.turn = .I) (hlegal : legalI u q)
    (hcnt : s.rx.cnt.toNat ≤ u.rx.cnt.toNat) (htmp : u.echoTmp = s.echoTmp) : LegalAt s.turn s u q := by
  rw [hturn]; exact ⟨hlegal, hcnt, htmp⟩

/-- Between pumps the staging buffer holds nothing (log 4). -/
theorem State.Inv.echoTmp_of_idle {s : State} (h : s.Inv) (hturn : s.turn = .L) (hidle : s.current = .idle) :
    s.echoTmp = [] := by
  have hlegal := h.legal_at_L hturn
  rw [hidle] at hlegal
  exact hlegal

/-! ## The places of the loops -/

/-- The `serviceTransmit` loop stands at a place after its start, and no other activity exists (R156). -/
theorem serviceStep_some {loc loc' : TxLoc} {s u : State} (h : serviceStep loc s = .ok (some loc', u)) :
    loc' ≠ .start ∧ (loc.active = true ∨ (s.seqOf (otherPort s.turn)).active = false) := by
  rcases serviceStep_ok loc s u _ h with ⟨hloc, ho, -⟩ | ⟨rfl, ⟨-, ho, -⟩ | ⟨b, -, ho⟩⟩ | ⟨b, rfl, ho, -⟩
  · refine ⟨?_, hloc.imp (fun hl => by rw [hl]; rfl) And.right⟩
    rintro rfl
    split at ho <;> simp at ho
  · simp at ho
  · exact ⟨by simp_all, .inl rfl⟩
  · exact ⟨by simp_all, .inl rfl⟩

/-- Where a `write` body stands after a micro-step (R160). -/
theorem writeStep_running {next : Option Byte} {i i' : Nat} {loc loc' : WriteLoc} {s u : State}
    (h : writeStep next i loc s = .ok (.running i' loc', u)) :
    (i' = i ∨ (i' = i + 1 ∧ loc = .pushing ∧ next.isSome = true)) ∧
    (loc'.active = true → loc.active = true ∨ (s.seqOf (otherPort s.turn)).active = false) := by
  rcases writeStep_ok next i loc s u _ h with ⟨l, rfl, hf⟩ | ⟨rfl, -, hf⟩ | ⟨rfl, b, r, rfl, -, ho⟩
  · obtain ⟨o', hs, ⟨loc'', rfl, ho⟩ | ⟨-, ho⟩⟩ := flushStep_ok i l s u _ hf
    · obtain ⟨rfl, rfl⟩ := WriteOut.running.inj ho
      exact ⟨.inl rfl, fun _ => (serviceStep_some hs).2⟩
    · simp at ho
  · obtain ⟨o', hs, ⟨loc'', rfl, ho⟩ | ⟨-, ho⟩⟩ := flushStep_ok i .start s u _ hf
    · obtain ⟨rfl, rfl⟩ := WriteOut.running.inj ho
      exact ⟨.inl rfl, fun _ => .inr ((serviceStep_some hs).2.resolve_left (by simp [TxLoc.active]))⟩
    · simp at ho
  · split at ho <;> obtain ⟨rfl, rfl⟩ := WriteOut.running.inj ho
    · exact ⟨.inr ⟨rfl, rfl, rfl⟩, fun hact => by simp [WriteLoc.active] at hact⟩
    · exact ⟨.inl rfl, fun hact => by simp [WriteLoc.active, TxLoc.active] at hact⟩

/-- A port whose loop goes on is in the one activity. -/
theorem State.Inv.other_inactive_of {s : State} {a : Bool} (h : s.Inv) (hcur : a = true → s.current.active = true)
    (hloop : a = true ∨ (s.seqOf (otherPort s.turn)).active = false) :
    (s.seqOf (otherPort s.turn)).active = false :=
  hloop.elim (fun ha => h.other_inactive (hcur ha)) id

/-- The byte staged next extends what is staged. -/
theorem staged_write {m : Memory} {i : Nat} (hm : staged m i) (b : Byte) : staged (m.write i b) (i + 1) := by
  intro j hj
  rw [Memory.read_write]
  split
  · rfl
  · rename_i hne
    exact hm j (by omega)

/-! ## Each command keeps the invariant -/

section Keeps

variable {s t : State} (h : s.Inv)
include h

theorem State.Inv.of_wrongPort {i : Instr} (hw : wrongPortAnswer i s t) : t.Inv := by
  obtain ⟨hidle, -, rfl⟩ := hw
  exact h.finish_of_idle hidle _

theorem State.Inv.of_execInit {be rxs txs : Bool} {baud : Word} {a b : Half}
    (hexec : execInit be rxs txs baud a b s = .next t) : t.Inv := by
  rcases execInit_next be rxs txs baud a b s t hexec with hw | ⟨hcur, rfl⟩ | ⟨hidle, hport, hstatus, ⟨hacc, rfl⟩ | ⟨-, rfl⟩⟩
  · exact h.of_wrongPort hw
  · have hturn : s.turn = .L := h.turn_L hcur id
    obtain ⟨-, hstatus, hnil⟩ : legalL s (.init be rxs txs baud a b) := hcur ▸ h.legal_at_L hturn
    have hseqI := legalI_idle h.legalPortI hstatus
    have hdata := h.dataInv (.inr (by rw [← State.current_L hturn, hcur]; simp))
    obtain ⟨r, as, d, hr, hstate, -⟩ := beInit_drawn baud s
    rw [initBackend, hstate, State.finish_L (s := { s with
      answers := as, draws := d, trace := s.trace ++ [.init baud r]
      status := if (beInit baud s).1 then .ok else .failed }) hturn]
    refine State.DataInv.inv ⟨hdata.rxmemWf, hdata.txmemWf, hdata.echoTmpWf, hdata.rxBound, hdata.txBound,
      hdata.echoMaxLe, hdata.rxInv, hdata.txInv, hdata.beCopied⟩ hnil ?_ (by simp [Seq.active])
    simp only [hseqI, legalI]
  · have hturn : s.turn = .L := by
      cases hturn : s.turn
      · rw [hturn] at hport; simp [takenOn] at hport
      · rfl
    have hnil := h.echoTmp_of_idle hturn hidle
    have hseqI := legalI_idle h.legalPortI hstatus
    have hsizes : a ≠ 0 ∧ b ≠ 0 := by
      simp only [initAccepts, Bool.and_eq_true, bne_iff_ne] at hacc
      exact ⟨hacc.1.2, hacc.2⟩
    rw [State.setCurrent_L (s := initSetup a b s) hturn]
    refine State.DataInv.inv ⟨h.rxmemWf, h.txmemWf, h.echoTmpWf, rfl, rfl, h.echoMaxLe,
      Fifo.inv_of_init hsizes.1 _, Fifo.inv_of_init hsizes.2 _, rfl⟩ ⟨hacc, hstatus, hnil⟩ ?_ (by simp [Seq.active])
    have hidleI : (initSetup a b s).seqI = .idle := hseqI
    simp only [hidleI, legalI]
  · exact h.finish_of_idle hidle _

theorem State.Inv.of_execIngest {b : Byte} (hexec : execIngestReceivedByte b s = .next t) : t.Inv := by
  rcases execIngest_next b s t hexec with hw | ⟨hs, hb⟩
  · exact h.of_wrongPort hw
  have hok : s.status = .ok := hs.2.2
  have hturn := starts_turn_I hs rfl
  have hne : (Instr.ingestReceivedByte b).mnemonic ≠ "init" := by simp [Instr.mnemonic]
  rcases ingest_ok b s t hb with ⟨u, hp, rfl⟩ | ⟨-, rfl⟩
  · rcases push_ok .rx b s u _ hp with ⟨hr, -⟩ | ⟨-, hfull, -, rfl⟩
    · simp at hr
    · have hroom := (h.dataInv_of_ok hok).rxInv.cnt_lt_cap hfull
      have hcnt : s.rx.cnt.toNat ≤ (s.pushed .rx b).rx.cnt.toNat := by
        rw [State.pushed_rx_rx, pushedFifo_cnt_toNat hroom]; exact Nat.le_succ _
      exact State.Inv.finish (h.access hok (.ingest b hfull) hne
        (legalAt_I hturn trivial hcnt (by rw [State.pushed_rx_eq])) (by simp [Seq.active])) _
  · exact State.Inv.finish (h.access hok (.overflow b s) hne (legalAt_I hturn trivial (Nat.le_refl _) rfl)
      (by simp [Seq.active])) _

theorem State.Inv.of_execServiceTransmit (hexec : execServiceTransmit s = .next t) : t.Inv := by
  rcases execServiceTransmit_next s t hexec with hw | ⟨loc, hplace, hs⟩
  · exact h.of_wrongPort hw
  obtain ⟨o, u, hservice, rfl⟩ := serviceTransmitStep_ok loc s t hs
  have hacc : Access .serviceTransmit s u := serviceStep_access (by decide) hservice
  have hcur : loc.active = true → s.current.active = true := by
    rcases hplace with hcur | ⟨-, rfl⟩
    · rw [hcur]; exact id
    · simp [TxLoc.active]
  have hok : s.status = .ok := by
    rcases hplace with hcur | ⟨hs, -⟩
    · cases hturn : s.turn
      · have hlegal : legalI s (.serviceTransmit loc) := hcur ▸ h.legal_at_I hturn
        exact hlegal.1
      · have hlegal : legalL s (.serviceTransmit loc) := hcur ▸ h.legal_at_L hturn
        exact hlegal.1
    · exact hs.2.2
  have hstatus : u.status = .ok := ((hacc.constructed (by decide)).2.2.2.2.1).trans hok
  have htmp : s.turn = .L → u.echoTmp = [] := fun hturn => (hacc.echoTmp (by decide)).trans (by
    rcases hplace with hcur | ⟨hs, -⟩
    · have hlegal : legalL s (.serviceTransmit loc) := hcur ▸ h.legal_at_L hturn
      exact hlegal.2.2
    · exact h.echoTmp_of_idle hturn hs.1)
  have hlegal : ∀ q : Seq, (q = .idle ∨ ∃ loc', q = .serviceTransmit loc' ∧ loc' ≠ .start) → LegalAt s.turn s u q := by
    intro q hq
    cases hturn : s.turn with
    | I =>
      refine ⟨?_, by rw [hacc.rx_cnt (by decide)], hacc.echoTmp (by decide)⟩
      rcases hq with rfl | ⟨loc', rfl, hloc'⟩
      · trivial
      · exact ⟨hstatus, hloc'⟩
    | L =>
      rcases hq with rfl | ⟨loc', rfl, hloc'⟩
      · exact htmp hturn
      · exact ⟨hstatus, hloc', htmp hturn⟩
  cases o with
  | none => exact State.Inv.finish (h.access hok hacc (by decide) (hlegal _ (.inl rfl)) (by simp [Seq.active])) _
  | some loc' =>
    obtain ⟨hloc', hother⟩ := serviceStep_some hservice
    exact h.access hok hacc (by decide) (hlegal _ (.inr ⟨loc', rfl, hloc'⟩)) fun _ => h.other_inactive_of hcur hother

theorem State.Inv.of_execWrite {data : List Byte} {length : Half} (hexec : execWrite data length s = .next t) : t.Inv := by
  rcases execWrite_next data length s t hexec with hw | ⟨i, loc, hplace, hs⟩
  · exact h.of_wrongPort hw
  obtain ⟨o, u, hwrite, rfl⟩ := writeCommandStep_ok data length i loc s t hs
  have hmem : (Instr.write data length).mnemonic ∈ ["write", "echoPump"] := by simp [Instr.mnemonic]
  have hne : (Instr.write data length).mnemonic ≠ "init" := by simp [Instr.mnemonic]
  have hacc : Access (.write data length) s u := writeStep_access hmem hwrite
  have hturn : s.turn = .L := hplace.elim (fun hcur => h.turn_L hcur id) fun hs => starts_turn_L hs.1 rfl
  obtain ⟨hok, hlen, hi, hnil⟩ : legalL s (.write data length i loc) := by
    rcases hplace with hcur | ⟨hstart, hlen, rfl, rfl⟩
    · exact hcur ▸ h.legal_at_L hturn
    · exact ⟨hstart.2.2, hlen, Nat.zero_le _, h.echoTmp_of_idle hturn hstart.1⟩
  have hcur : loc.active = true → s.current.active = true := by
    rcases hplace with hcur | ⟨-, -, -, rfl⟩
    · rw [hcur]; exact id
    · simp [WriteLoc.active]
  have hstatus : u.status = .ok := (hacc.constructed hne).2.2.2.2.1.trans hok
  have htmp : u.echoTmp = [] := (hacc.echoTmp (by simp [Instr.mnemonic])).trans hnil
  cases o with
  | returned i' => exact State.Inv.finish (h.access hok hacc hne (legalAt_L hturn htmp) (by simp [Seq.active])) _
  | running i' loc' =>
    obtain ⟨hi', hother⟩ := writeStep_running hwrite
    have hle : i' ≤ data.length := by
      rcases hi' with rfl | ⟨rfl, -, hsome⟩
      · exact hi
      · exact (List.getElem?_eq_some_iff.1 (Option.eq_some_of_isSome hsome)).1
    exact h.access hok hacc hne (legalAt_L hturn ⟨hstatus, hlen, hle, htmp⟩) fun hact =>
      h.other_inactive_of hcur (hother hact)

theorem State.Inv.of_execRead {maxLen : Half} (hexec : execRead maxLen s = .next t) : t.Inv := by
  rcases execRead_next maxLen s t hexec with hw | ⟨hs, -, rfl⟩ | ⟨out, hplace, hs⟩
  · exact h.of_wrongPort hw
  · exact h.finish_of_idle hs.1 _
  obtain ⟨o, u, hp, rfl⟩ := readCommandStep_ok maxLen out s t hs
  have hne : (Instr.read maxLen).mnemonic ≠ "init" := by simp [Instr.mnemonic]
  have hturn : s.turn = .L := hplace.elim (fun hcur => h.turn_L hcur id) fun hs => starts_turn_L hs.1 rfl
  obtain ⟨hok, hnil⟩ : s.status = .ok ∧ s.echoTmp = [] := by
    rcases hplace with hcur | ⟨hstart, -, -⟩
    · obtain ⟨hok, -, -, hnil⟩ : legalL s (.read maxLen out) := hcur ▸ h.legal_at_L hturn
      exact ⟨hok, hnil⟩
    · exact ⟨hstart.2.2, h.echoTmp_of_idle hturn hstart.1⟩
  rcases pop_ok .rx s u o hp with ⟨rfl, -, rfl⟩ | ⟨b, rfl, hempty, -, -, rfl⟩
  · exact State.Inv.finish (h.access hok (.none _ _) hne (legalAt_L hturn hnil) (by simp [Seq.active])) _
  · have hacc : Access (.read maxLen) s (s.popped .rx) := .read maxLen hempty
    simp only
    split
    next hlt =>
      refine h.access hok hacc hne (legalAt_L hturn ⟨hok, ?_, ?_, hnil⟩) (by simp [Seq.active])
      · simp
      · simpa using hlt
    next => exact State.Inv.finish (h.access hok hacc hne (legalAt_L hturn hnil) (by simp [Seq.active])) _

/-- A command of one micro-step that only writes `ovf` or `echo_cfg`. -/
theorem State.Inv.starts_finish {i : Instr} {u : State} (hs : starts i s) (hport : takenOn .I i = false)
    (hacc : Access i s u) (hne : i.mnemonic ≠ "init") (htmp : u.echoTmp = s.echoTmp) (r : Response) :
    (u.finish r).Inv := by
  have hturn := starts_turn_L hs hport
  exact State.Inv.finish (h.access hs.2.2 hacc hne (legalAt_L hturn (htmp.trans (h.echoTmp_of_idle hturn hs.1)))
    (by simp [Seq.active])) r

/-! ### `echoPump` -/

/-- A pop of the inner `read` while bytes of the chunk are still to be taken: the counted bytes are there, since only port L
takes from `rx` (R173). -/
theorem State.Inv.of_echoRead {n : Half} {k i : Nat} (hturn : s.turn = .L) (hok : s.status = .ok) (hik : i < k)
    (hkn : k ≤ n.toNat) (hkmax : k ≤ s.echoMax.toNat) (hleft : k - i ≤ s.rx.cnt.toNat) (hstaged : staged s.echoTmp i)
    (hs : echoRead n k i s = .ok t) : t.Inv := by
  have hdata := h.dataInv_of_ok hok
  have hempty : s.rx.empty = false := Fifo.empty_eq_false (by omega)
  have hcnt : (s.stagedPop i).rx.cnt.toNat = s.rx.cnt.toNat - 1 := poppedFifo_cnt_toNat (Fifo.cnt_toNat_pos hempty)
  have hstaged' : staged (s.stagedPop i).echoTmp (i + 1) := staged_write hstaged _
  rw [echoRead_pop n k i hempty hdata.rxInv.rdLt (by omega)] at hs
  obtain rfl := Except.ok.inj hs
  refine h.access hok (.stage hempty i) (by decide) (legalAt_L hturn ?_) ?_
  · split
    · exact ⟨hok, Nat.succ_pos i, by assumption, hkn, hkmax, by omega, hstaged'⟩
    · exact ⟨hok, by omega, Nat.succ_pos i, Nat.zero_le _, hkn, hkmax, hstaged'⟩
  · split <;> simp [Seq.active, WriteLoc.active]

/-- One micro-step of the inner `write` of `r` staged bytes. -/
theorem State.Inv.of_echoWrite {n : Half} {k r i : Nat} {loc : WriteLoc} (hturn : s.turn = .L)
    (hlegal : legalL s (.echoPump (.writing n k r i loc)))
    (hcur : loc.active = true → s.current.active = true) (hs : echoWrite n k r i loc s = .ok t) : t.Inv := by
  obtain ⟨hok, hrk, hpos, hi, hkn, hkmax, hstaged⟩ := hlegal
  obtain ⟨next, o, u, hnext, hwrite, rfl⟩ := echoWrite_ok n k r i loc s t hs
  have hacc : Access .echoPump s u := writeStep_access (by decide) hwrite
  have htmp : u.echoTmp = s.echoTmp := (writeStep_access (i := .write [] 0) (by decide) hwrite).echoTmp (by decide)
  have hstatus : u.status = .ok := (hacc.constructed (by decide)).2.2.2.2.1.trans hok
  cases o with
  | returned i' => exact h.access hok (.drop hacc) (by decide) (legalAt_L hturn ⟨hstatus, rfl⟩) (by simp [Seq.active])
  | running i' loc' =>
    obtain ⟨hi', hother⟩ := writeStep_running hwrite
    have hle : i' ≤ r := by
      rcases hi' with rfl | ⟨rfl, rfl, hsome⟩
      · exact hi
      · rcases echoNext_ok r i .pushing s next hnext with ⟨rfl, -⟩ | ⟨-, hlt, -⟩
        · simp at hsome
        · exact hlt
    refine h.access hok hacc (by decide) (legalAt_L hturn ⟨hstatus, hrk, hpos, hle, hkn, ?_, ?_⟩) fun hact =>
      h.other_inactive_of hcur (hother hact)
    · rw [hacc.sameSeats.echoMax]; exact hkmax
    · rw [htmp]; exact hstaged

theorem State.Inv.of_echoReturn (hturn : s.turn = .L) (hok : s.status = .ok) : (echoReturn s).Inv :=
  State.Inv.finish (h.access hok (.drop (.none .echoPump s)) (by decide) (legalAt_L hturn rfl) (by simp [Seq.active])) _

theorem State.Inv.of_echoPumpStep {loc : EchoLoc} (hturn : s.turn = .L) (hlegal : legalL s (.echoPump loc))
    (hcur : (Seq.echoPump loc).active = true → s.current.active = true) (hs : echoPumpStep loc s = .ok t) : t.Inv := by
  cases loc with
  | ask =>
    obtain ⟨hok, hnil⟩ := hlegal
    obtain rfl : echoAsk s = t := Except.ok.inj hs
    unfold echoAsk
    split
    next => exact h.of_echoReturn hturn hok
    next h0 =>
      have hpos : 0 < s.rx.cnt.toNat := Fifo.cnt_toNat_pos (Fifo.empty_of_ne h0)
      exact h.access hok (.none .echoPump s) (by decide) (legalAt_L hturn ⟨hok, hpos, Nat.le_refl _, hnil⟩)
        (by simp [Seq.active])
  | counted n =>
    obtain ⟨hok, hpos, hle, hnil⟩ := hlegal
    simp only [echoPumpStep] at hs
    split at hs
    next => obtain rfl := Except.ok.inj hs; exact h.of_echoReturn hturn hok
    next h0 =>
      have hkn : echoChunk n s ≤ n.toNat := Nat.min_le_left _ _
      have hkmax : echoChunk n s ≤ s.echoMax.toNat := (Nat.min_le_right _ _).trans (effectiveChunk_le _ _)
      exact h.of_echoRead hturn hok (Nat.pos_of_ne_zero h0) hkn hkmax (hkn.trans hle)
        (fun j hj => absurd hj (Nat.not_lt_zero j)) hs
  | reading n k i =>
    obtain ⟨hok, -, hik, hkn, hkmax, hleft, hstaged⟩ := hlegal
    exact h.of_echoRead hturn hok hik hkn hkmax hleft hstaged hs
  | writing n k r i loc => exact h.of_echoWrite hturn hlegal hcur hs

theorem State.Inv.of_execEchoPump (hexec : execEchoPump s = .next t) : t.Inv := by
  rcases execEchoPump_next s t hexec with hw | ⟨loc, hplace, hs⟩
  · exact h.of_wrongPort hw
  have hturn : s.turn = .L := hplace.elim (fun hcur => h.turn_L hcur id) fun hstart => starts_turn_L hstart.1 rfl
  rcases hplace with hcur | ⟨hstart, rfl⟩
  · exact h.of_echoPumpStep hturn (hcur ▸ h.legal_at_L hturn) (fun hact => by rwa [hcur]) hs
  · exact h.of_echoPumpStep (loc := .ask) hturn ⟨hstart.2.2, h.echoTmp_of_idle hturn hstart.1⟩ (by simp [Seq.active]) hs

/-! ### Every command, and a step -/

theorem State.Inv.of_accessor {i : Instr} {v : Word}
    (hexec : startOn i s (whenReady s (.next (s.finish (okResponse v)))) = .next t) : t.Inv := by
  rcases accessor_next i v s t hexec with hw | ⟨hs, rfl⟩
  · exact h.of_wrongPort hw
  · exact h.finish_of_idle hs.1 _

/-- Every command's micro-step keeps the invariant. -/
theorem State.Inv.of_exec {i : Instr} (hexec : exec i s = .next t) : t.Inv := by
  cases i with
  | init be rxs txs baud rxSize txSize => exact h.of_execInit hexec
  | ingestReceivedByte b => exact h.of_execIngest hexec
  | serviceTransmit => exact h.of_execServiceTransmit hexec
  | write data length => exact h.of_execWrite hexec
  | read maxLen => exact h.of_execRead hexec
  | rxAvailableCount => exact h.of_accessor hexec
  | txQueuedCount => exact h.of_accessor hexec
  | echoPump => exact h.of_execEchoPump hexec
  | overflowCount => exact h.of_accessor hexec
  | overflowClear =>
    rcases execOverflowClear_next s t hexec with hw | ⟨hs, rfl⟩
    · exact h.of_wrongPort hw
    · exact h.starts_finish hs rfl (.clear s) (by decide) rfl _
  | setEchoChunkSize n =>
    rcases execSetEchoChunkSize_next n s t hexec with hw | ⟨hs, rfl⟩
    · exact h.of_wrongPort hw
    · exact h.starts_finish hs rfl (.tune n s) (by simp [Instr.mnemonic]) rfl _
  | getEchoChunkSize => exact h.of_accessor hexec

theorem State.Inv.takeTurn : s.takeTurn.Inv := h.of_sameCore s.sameCore_takeTurn

theorem State.Inv.consume (rest : List Word) : (s.consume rest).Inv := h.of_sameCore (s.sameCore_consume rest)

end Keeps

theorem State.current_consume (s : State) (rest : List Word) : (s.consume rest).current = s.current := by
  rw [State.current, State.consume, State.setCommands_turn, State.current]
  cases s.turn <;> rfl

theorem Seq.idle_of_instr_none {q : Seq} (hq : q.instr = none) : q = .idle := by
  cases q with
  | idle => rfl
  | init | serviceTransmit | write | read | echoPump => simp [Seq.instr] at hq

/-- What a port with the turn can do: nothing, answer what does not decode, or a micro-step (R38, R104). -/
theorem portStep_next {s t : State} (hstep : portStep s = .next t) :
    t = s ∨ (∃ e rest, s.current = .idle ∧ t = s.answerError e rest) ∨ (∃ i, exec i s = .next t) ∨
      (∃ i rest, s.current = .idle ∧ exec i (s.consume rest) = .next t) := by
  unfold portStep at hstep
  split at hstep
  next i _ => exact .inr (.inr (.inl ⟨i, hstep⟩))
  next hnone =>
    have hidle := Seq.idle_of_instr_none hnone
    split at hstep
    next => exact .inl (Host.Outcome.next.inj hstep).symm
    next e rest _ => exact .inr (.inl ⟨e, rest, hidle, (Host.Outcome.next.inj hstep).symm⟩)
    next i rest _ => exact .inr (.inr (.inr ⟨i, rest, hidle, hstep⟩))

end Sys2Proof.Machine

namespace Sys2Proof

open Machine

/-- Settles O57: taking the turn and a command's words touches nothing the invariant speaks of, and every command's micro-step
keeps it. -/
theorem stepKeepsTheInvariant : Obligations.StepKeepsTheInvariant := by
  intro s t h hstep
  have hturn := h.takeTurn
  rcases portStep_next hstep with rfl | ⟨e, rest, hidle, rfl⟩ | ⟨i, hexec⟩ | ⟨i, rest, -, hexec⟩
  · exact hturn
  · exact (hturn.consume rest).finish_of_idle ((State.current_consume _ rest).trans hidle) _
  · exact hturn.of_exec hexec
  · exact (hturn.consume rest).of_exec hexec

end Sys2Proof

/-! # Stops, the transmit side, and port I

From a state that meets the invariant: which faults a step can end in, that no step loses or reorders a byte on its way to the
backend, and that port I only appends to `rx`. -/

namespace Sys2Proof.Machine

/-! ## No access faults while the invariant holds (R15) -/

theorem Fifo.Inv.push_ne_error {f : FifoId} {s : State} (h : (s.fifo f).Inv (s.region (s.fifo f).mem)) (b : Byte)
    (e : Fault) : push f b s ≠ .error e := fun he =>
  absurd (push_error f b s e he).2.2 (Nat.not_le.2 h.wrLt)

theorem Fifo.Inv.pop_ne_error {f : FifoId} {s : State} (h : (s.fifo f).Inv (s.region (s.fifo f).mem)) (e : Fault) :
    pop f s ≠ .error e := fun he =>
  absurd (pop_error f s e he).2.2 (Nat.not_le.2 h.rdLt)

/-- An outcome of a micro-step whose only fault is a second activity (R156). -/
def OnlyOverlap {α : Type} (r : Except Fault α) : Prop := ∀ e, r = .error e → e = .txConsumerOverlap

theorem onlyOverlap_ok {α : Type} {r : Except Fault α} {a : α} (h : r = .ok a) : OnlyOverlap r := by
  rintro e rfl
  simp at h

section Faults

variable {s : State} (h : s.DataInv)
include h

theorem State.DataInv.serviceStep_onlyOverlap (loc : TxLoc) : OnlyOverlap (serviceStep loc s) := by
  intro e he
  cases loc with
  | start =>
    simp only [serviceStep] at he
    split at he
    · exact (Except.error.inj he).symm
    · simp at he
  | ask => simp [serviceStep] at he
  | pop =>
    simp only [serviceStep] at he
    split at he
    next hpop => exact absurd hpop ((h.fifoInv .tx).pop_ne_error _)
    next => simp at he
    next => simp at he
  | put b => simp [serviceStep] at he

theorem State.DataInv.flushStep_onlyOverlap (i : Nat) (loc : TxLoc) : OnlyOverlap (flushStep i loc s) := by
  intro e he
  simp only [flushStep] at he
  split at he
  next hs => exact h.serviceStep_onlyOverlap loc e (hs.trans (congrArg _ (Except.error.inj he)))
  next => simp at he
  next => simp at he

theorem State.DataInv.writeStep_onlyOverlap (next : Option Byte) (i : Nat) (loc : WriteLoc) :
    OnlyOverlap (writeStep next i loc s) := by
  cases loc with
  | flushing l => exact h.flushStep_onlyOverlap i l
  | pushing =>
    cases next with
    | none => exact h.flushStep_onlyOverlap i .start
    | some b =>
      intro e he
      simp only [writeStep] at he
      split at he
      next hpush => exact absurd hpush ((h.fifoInv .tx).push_ne_error b _)
      next => simp at he
      next => simp at he

theorem State.DataInv.ingest_onlyOverlap (b : Byte) : OnlyOverlap (ingest b s) := by
  intro e he
  simp only [ingest] at he
  split at he
  next hpush => exact absurd hpush ((h.fifoInv .rx).push_ne_error b _)
  next => simp at he
  next => simp at he

theorem State.DataInv.serviceTransmitStep_onlyOverlap (loc : TxLoc) : OnlyOverlap (serviceTransmitStep loc s) := by
  intro e he
  simp only [serviceTransmitStep] at he
  split at he
  next hs => exact h.serviceStep_onlyOverlap loc e (hs.trans (congrArg _ (Except.error.inj he)))
  next => simp at he
  next => simp at he

theorem State.DataInv.writeCommandStep_onlyOverlap (data : List Byte) (length : Half) (i : Nat) (loc : WriteLoc) :
    OnlyOverlap (writeCommandStep data length i loc s) := by
  intro e he
  simp only [writeCommandStep] at he
  split at he
  next hs => exact h.writeStep_onlyOverlap _ i loc e (hs.trans (congrArg _ (Except.error.inj he)))
  next => simp at he
  next => simp at he

theorem State.DataInv.readCommandStep_onlyOverlap (maxLen : Half) (out : List Byte) : OnlyOverlap (readCommandStep maxLen out s) := by
  intro e he
  simp only [readCommandStep] at he
  split at he
  next hpop => exact absurd hpop ((h.fifoInv .rx).pop_ne_error _)
  next => simp at he
  next => split at he <;> simp at he

theorem State.DataInv.echoRead_onlyOverlap (n : Half) {k i : Nat} (hmax : i < s.echoMax.toNat) : OnlyOverlap (echoRead n k i s) := by
  cases hempty : s.rx.empty with
  | true => exact onlyOverlap_ok (echoRead_empty n k i hempty)
  | false => exact onlyOverlap_ok (echoRead_pop n k i hempty h.rxInv.rdLt hmax)

theorem State.DataInv.echoWrite_onlyOverlap (n : Half) (k : Nat) {r i : Nat} (loc : WriteLoc) (hmax : r ≤ s.echoMax.toNat) :
    OnlyOverlap (echoWrite n k r i loc s) := by
  intro e he
  have hnext : ∃ next, echoNext r i loc s = .ok next := by
    cases loc with
    | flushing l => exact ⟨none, rfl⟩
    | pushing =>
      by_cases hi : i < r
      · exact ⟨_, echoNext_pushing hi (Nat.lt_of_lt_of_le hi hmax)⟩
      · exact ⟨none, if_neg hi⟩
  obtain ⟨next, hnext⟩ := hnext
  simp only [echoWrite, hnext] at he
  split at he
  next hs => exact h.writeStep_onlyOverlap next i loc e (hs.trans (congrArg _ (Except.error.inj he)))
  next => simp at he
  next => simp at he

/-- An `echoPump` at a legal place: the staging buffer holds every byte it reads and has room for every byte it writes. -/
theorem State.DataInv.echoPumpStep_onlyOverlap {loc : EchoLoc} (hlegal : legalL s (.echoPump loc)) :
    OnlyOverlap (echoPumpStep loc s) := by
  cases loc with
  | ask => exact onlyOverlap_ok rfl
  | counted n =>
    have hmaxPos : 0 < s.echoMax.toNat := Nat.lt_of_lt_of_le (by decide) h.echoMaxLe
    simp only [echoPumpStep]
    split
    · exact onlyOverlap_ok rfl
    · exact h.echoRead_onlyOverlap n hmaxPos
  | reading n k i =>
    obtain ⟨-, -, hik, -, hkmax, -⟩ := hlegal
    exact h.echoRead_onlyOverlap n (Nat.lt_of_lt_of_le hik hkmax)
  | writing n k r i loc =>
    obtain ⟨-, rfl, -, -, -, hkmax, -⟩ := hlegal
    exact h.echoWrite_onlyOverlap n r loc hkmax

end Faults

/-! ## How a step can stop (R203) -/

/-- A next state, or one of the three undefined conditions. -/
def GoesOn (o : Host.Outcome State Fault Refusal) : Prop :=
  (∃ t, o = .next t) ∨ o = .fault .useBeforeInit ∨ o = .fault .reInit ∨ o = .fault .txConsumerOverlap

theorem goesOn_next (t : State) : GoesOn (.next t) := .inl ⟨t, rfl⟩

theorem goesOn_ofResult {r : Except Fault State} (h : OnlyOverlap r) : GoesOn (ofResult r) := by
  cases r with
  | ok t => exact goesOn_next t
  | error e => rw [h e rfl]; exact .inr (.inr (.inr rfl))

theorem goesOn_whenReady {s : State} {body : Host.Outcome State Fault Refusal} (h : s.status = .ok → GoesOn body) :
    GoesOn (whenReady s body) := by
  unfold whenReady
  split
  next hok => exact h hok
  next => exact .inr (.inl rfl)

theorem goesOn_startOn {i : Instr} {s : State} {body : Host.Outcome State Fault Refusal} (hidle : s.current = .idle)
    (h : takenOn s.turn i = true → GoesOn body) : GoesOn (startOn i s body) := by
  unfold startOn
  rw [if_neg (not_not_intro hidle)]
  split
  next hport => exact h hport
  next => exact goesOn_next _

theorem goesOn_start {i : Instr} {s : State} {body : Host.Outcome State Fault Refusal} (hidle : s.current = .idle)
    (h : s.status = .ok → GoesOn body) : GoesOn (startOn i s (whenReady s body)) :=
  goesOn_startOn hidle fun _ => goesOn_whenReady h

/-- The command in flight goes on. -/
theorem State.Inv.goesOn_inFlight {s : State} {i : Instr} (h : s.Inv) (hi : s.current.instr = some i) :
    GoesOn (exec i s) := by
  cases hcur : s.current with
  | idle => rw [hcur] at hi; simp [Seq.instr] at hi
  | init be rxs txs baud rxSize txSize =>
    rw [hcur, Seq.instr, Option.some.injEq] at hi
    subst hi
    rw [exec, execInit, if_pos hcur]
    exact goesOn_next _
  | serviceTransmit loc =>
    rw [hcur, Seq.instr, Option.some.injEq] at hi
    subst hi
    have hok : s.status = .ok := by
      cases hturn : s.turn
      · exact ((hcur ▸ h.legal_at_I hturn : legalI s (.serviceTransmit loc))).1
      · exact ((hcur ▸ h.legal_at_L hturn : legalL s (.serviceTransmit loc))).1
    rw [exec_serviceTransmit (.inl hcur), ← serviceTransmitStep_eq]
    exact goesOn_ofResult ((h.dataInv_of_ok hok).serviceTransmitStep_onlyOverlap loc)
  | write data length k loc =>
    rw [hcur, Seq.instr, Option.some.injEq] at hi
    subst hi
    obtain ⟨hok, -⟩ : legalL s (.write data length k loc) := hcur ▸ h.legal_at_L (h.turn_L hcur id)
    rw [exec_write (.inl hcur)]
    exact goesOn_ofResult ((h.dataInv_of_ok hok).writeCommandStep_onlyOverlap data length k loc)
  | read maxLen out =>
    rw [hcur, Seq.instr, Option.some.injEq] at hi
    subst hi
    obtain ⟨hok, -⟩ : legalL s (.read maxLen out) := hcur ▸ h.legal_at_L (h.turn_L hcur id)
    rw [exec_read (.inl hcur)]
    exact goesOn_ofResult ((h.dataInv_of_ok hok).readCommandStep_onlyOverlap maxLen out)
  | echoPump loc =>
    rw [hcur, Seq.instr, Option.some.injEq] at hi
    subst hi
    have hlegal : legalL s (.echoPump loc) := hcur ▸ h.legal_at_L (h.turn_L hcur id)
    have hok : s.status = .ok := by cases loc <;> exact hlegal.1
    rw [exec_echoPump (.inl hcur)]
    exact goesOn_ofResult ((h.dataInv_of_ok hok).echoPumpStep_onlyOverlap hlegal)

/-- A well-formed command at an idle port is answered, starts, or is one of the first two undefined conditions. -/
theorem State.Inv.goesOn_idle {s : State} {i : Instr} (h : s.Inv) (hidle : s.current = .idle)
    (hwf : i.wellFormed = true) : GoesOn (exec i s) := by
  cases i with
  | init be rxs txs baud rxSize txSize =>
    rw [exec, execInit, if_neg (by rw [hidle]; simp)]
    refine goesOn_startOn hidle fun _ => ?_
    split
    · exact .inr (.inr (.inl rfl))
    · split <;> exact goesOn_next _
  | ingestReceivedByte b => exact goesOn_start hidle fun hok => goesOn_ofResult ((h.dataInv_of_ok hok).ingest_onlyOverlap b)
  | serviceTransmit =>
    simp only [exec, execServiceTransmit, hidle]
    exact goesOn_start hidle fun hok => goesOn_ofResult ((h.dataInv_of_ok hok).serviceTransmitStep_onlyOverlap .start)
  | write data length =>
    simp only [exec, execWrite, hidle, hwf, if_true]
    exact goesOn_start hidle fun hok =>
      goesOn_ofResult ((h.dataInv_of_ok hok).writeCommandStep_onlyOverlap data length 0 .pushing)
  | read maxLen =>
    simp only [exec, execRead, hidle]
    refine goesOn_start hidle fun hok => ?_
    split
    · exact goesOn_next _
    · exact goesOn_ofResult ((h.dataInv_of_ok hok).readCommandStep_onlyOverlap maxLen [])
  | echoPump =>
    simp only [exec, execEchoPump, hidle]
    exact goesOn_start hidle fun _ => goesOn_ofResult (onlyOverlap_ok rfl)
  | rxAvailableCount => exact goesOn_start hidle fun _ => goesOn_next _
  | txQueuedCount => exact goesOn_start hidle fun _ => goesOn_next _
  | overflowCount => exact goesOn_start hidle fun _ => goesOn_next _
  | overflowClear => exact goesOn_start hidle fun _ => goesOn_next _
  | setEchoChunkSize n => exact goesOn_start hidle fun _ => goesOn_next _
  | getEchoChunkSize => exact goesOn_start hidle fun _ => goesOn_next _

theorem State.Inv.goesOn_portStep {s : State} (h : s.Inv) : GoesOn (portStep s) := by
  unfold portStep
  split
  next i hi => exact h.goesOn_inFlight hi
  next hnone =>
    have hidle := Seq.idle_of_instr_none hnone
    split
    next => exact goesOn_next _
    next => exact goesOn_next _
    next i rest hfetched =>
      exact (h.consume rest).goesOn_idle ((State.current_consume s rest).trans hidle)
        (encodeInvertsDecode _ i rest hfetched).1

/-! ## The transmit side (R155) -/

/-- The byte a loop holds at the place it goes on at, if it goes on. -/
def heldAfter (o : Option TxLoc) : List Byte := o.elim [] TxLoc.held

theorem TxLoc.held_of_inactive {loc : TxLoc} (h : loc.active = false) : loc.held = [] := by
  cases loc with
  | put b => simp [TxLoc.active] at h
  | start | ask | pop => rfl

theorem WriteLoc.held_of_inactive {loc : WriteLoc} (h : loc.active = false) : loc.held = [] := by
  cases loc with
  | pushing => rfl
  | flushing l => exact TxLoc.held_of_inactive h

/-- Only a port inside an activity holds a byte. -/
theorem Seq.held_of_inactive {q : Seq} (h : q.active = false) : q.held = [] := by
  cases q with
  | serviceTransmit loc => exact TxLoc.held_of_inactive h
  | write data length i loc => exact WriteLoc.held_of_inactive h
  | echoPump loc =>
    cases loc with
    | writing n k r i loc => exact WriteLoc.held_of_inactive h
    | ask | counted | reading => rfl
  | idle | init | read => rfl

/-- What was sent, and then the byte `held` by the acting port, and then what is queued. -/
def State.outgoing (s : State) (held : List Byte) : List (Option Byte) :=
  (sink s.trace ++ held).map some ++ s.contents .tx

/-- While the other port holds nothing, the transmit side is what the acting port sees of it. -/
theorem State.txStream_eq {s : State} (h : (s.seqOf (otherPort s.turn)).held = []) :
    s.txStream = s.outgoing s.current.held := by
  unfold State.txStream State.outgoing State.current
  cases hturn : s.turn <;> rw [hturn] at h
  · rw [show s.seqL.held = [] from h, List.append_nil]; rfl
  · rw [show s.seqI.held = [] from h, List.append_nil]; rfl

/-- While the acting port holds nothing, the transmit side is what the other port sees of it. -/
theorem State.txStream_eq_other {s : State} (h : s.current.held = []) :
    s.txStream = s.outgoing (s.seqOf (otherPort s.turn)).held := by
  unfold State.txStream State.outgoing
  cases hturn : s.turn
  · rw [State.current_I hturn] at h; rw [h, List.append_nil]; rfl
  · rw [State.current_L hturn] at h; rw [h, List.append_nil]; rfl

theorem sink_append_one (trace : List Event) (e : Event) : sink (trace ++ [e]) = sink trace ++ e.sent.toList := by
  rw [sink, List.filterMap_append, sink]
  cases e <;> rfl

/-- R153, R155: a micro-step of the loop moves one byte from the queue to the hand or from the hand to the sink. -/
theorem serviceStep_outgoing {loc : TxLoc} {s u : State} {o : Option TxLoc} (h : s.DataInv)
    (hs : serviceStep loc s = .ok (o, u)) : u.outgoing (heldAfter o) = s.outgoing loc.held := by
  rcases serviceStep_ok loc s u o hs with ⟨hloc, rfl, rfl⟩ | ⟨rfl, ⟨-, rfl, rfl⟩ | ⟨b, hpop, rfl⟩⟩ | ⟨b, rfl, rfl, rfl⟩
  · have hheld : loc.held = [] := by rcases hloc with rfl | ⟨rfl, -⟩ <;> rfl
    have hafter : heldAfter (if (beTxReady s).1 then some TxLoc.pop else none) = [] := by split <;> rfl
    obtain ⟨r, as, d, -, hstate, -⟩ := beTxReady_drawn s
    have hsink : sink (s.trace ++ [Event.txReady r]) = sink s.trace := by rw [sink_append_one]; exact List.append_nil _
    rw [hheld, hafter, hstate]
    unfold State.outgoing
    rw [← hsink]
    rfl
  · rfl
  · rcases pop_ok .tx s u _ hpop with ⟨hb, -⟩ | ⟨b', hb, hempty, -, hbyte, rfl⟩
    · simp at hb
    · obtain rfl : b = s.byteAtRead .tx := (Option.some.inj hb).trans hbyte.symm
      have hcons : s.contents .tx = some (s.byteAtRead .tx) :: (s.popped .tx).contents .tx :=
        (h.fifoInv .tx).contents_popped (Fifo.cnt_toNat_pos hempty)
      change ((sink s.trace ++ [s.byteAtRead .tx]).map some ++ (s.popped .tx).contents .tx) =
        (sink s.trace ++ []).map some ++ s.contents .tx
      rw [hcons]
      simp
  · have hsink : sink (s.trace ++ [Event.txWrite b]) = sink s.trace ++ [b] := sink_append_one ..
    change (sink (s.trace ++ [Event.txWrite b]) ++ []).map some ++ s.contents .tx = (sink s.trace ++ [b]).map some ++ s.contents .tx
    rw [hsink, List.append_nil]

/-- The byte a `write` body holds at the place it goes on at, if it goes on. -/
def WriteOut.held : WriteOut → List Byte
  | .running _ loc => loc.held
  | .returned _ => []

/-- The loop has begun, or begins while the other port is in no activity (R156). -/
theorem serviceStep_alone {loc : TxLoc} {s u : State} {o : Option TxLoc} (hs : serviceStep loc s = .ok (o, u)) :
    loc.active = true ∨ (s.seqOf (otherPort s.turn)).active = false := by
  rcases serviceStep_ok loc s u o hs with ⟨rfl | ⟨-, hoff⟩, -⟩ | ⟨rfl, -⟩ | ⟨b, rfl, -⟩
  · exact .inl rfl
  · exact .inr hoff
  · exact .inl rfl
  · exact .inl rfl

/-- The transmit side as it was, or with at most one byte queued behind all others, whatever is held. -/
def Queues (s u : State) : Prop :=
  ∃ pushed : List Byte, pushed.length ≤ 1 ∧ ∀ held, u.outgoing held = s.outgoing held ++ pushed.map some

theorem queues_nothing {s u : State} (htrace : u.trace = s.trace) (hcontents : u.contents .tx = s.contents .tx) :
    Queues s u :=
  ⟨[], Nat.zero_le _, fun held => by rw [State.outgoing, htrace, hcontents]; exact (List.append_nil _).symm⟩

theorem queues_push {s : State} (h : s.DataInv) (hfull : s.tx.full = false) (b : Byte) : Queues s (s.pushed .tx b) := by
  have hcontents : (s.pushed .tx b).contents .tx = s.contents .tx ++ [some b] :=
    (h.fifoInv .tx).contents_pushed (h.txInv.cnt_lt_cap hfull) b
  have htrace : (s.pushed .tx b).trace = s.trace := by rw [State.pushed_tx_eq]
  refine ⟨[b], Nat.le_refl _, fun held => ?_⟩
  rw [State.outgoing, htrace, hcontents, ← List.append_assoc]
  rfl

/-- A micro-step of a `write` body is one of its flush, which is the loop, or queues at most the byte it pushes. -/
theorem writeStep_outgoing {next : Option Byte} {i : Nat} {loc : WriteLoc} {s u : State} {o : WriteOut} (h : s.DataInv)
    (hs : writeStep next i loc s = .ok (o, u)) :
    ((loc.active = true ∨ (s.seqOf (otherPort s.turn)).active = false) ∧ u.outgoing o.held = s.outgoing loc.held) ∨
    (loc.held = [] ∧ o.held = [] ∧ Queues s u) := by
  have hflush : ∀ l : TxLoc, flushStep i l s = .ok (o, u) →
      (l.active = true ∨ (s.seqOf (otherPort s.turn)).active = false) ∧ u.outgoing o.held = s.outgoing l.held := by
    intro l hf
    obtain ⟨o', hservice, ⟨loc', rfl, rfl⟩ | ⟨rfl, rfl⟩⟩ := flushStep_ok i l s u o hf
    · exact ⟨serviceStep_alone hservice, serviceStep_outgoing h hservice⟩
    · exact ⟨serviceStep_alone hservice, serviceStep_outgoing h hservice⟩
  rcases writeStep_ok next i loc s u o hs with ⟨l, rfl, hf⟩ | ⟨rfl, -, hf⟩ | ⟨rfl, b, r, rfl, hp, rfl⟩
  · exact .inl (hflush l hf)
  · obtain ⟨halone, hout⟩ := hflush .start hf
    exact .inl ⟨.inr (halone.resolve_left (by simp [TxLoc.active])), hout⟩
  · rcases push_ok .tx b s u r hp with ⟨rfl, -, rfl⟩ | ⟨rfl, hfull, -, rfl⟩
    · exact .inr ⟨rfl, rfl, queues_nothing rfl rfl⟩
    · exact .inr ⟨rfl, rfl, queues_push h hfull b⟩

/-! ### From the acting port to the whole transmit side -/

/-- The step appends at most one byte to the transmit side. -/
def KeepsStream (s t : State) : Prop :=
  ∃ pushed : List Byte, pushed.length ≤ 1 ∧ t.txStream = s.txStream ++ pushed.map some

theorem Ends.outgoing {i : Instr} {u t : State} (h : Ends i u t) (held : List Byte) :
    t.outgoing held = u.outgoing held := by
  have htrace : t.trace = u.trace := h.field_eq (·.trace) State.finish_trace State.setCurrent_trace
  have hcontents : t.contents .tx = u.contents .tx := by
    refine State.contents_congr ?_ fun a => ?_
    · exact h.field_eq (·.tx) State.finish_tx State.setCurrent_tx
    · exact h.field_eq (·.byteAt _ a) (fun u p => u.byteAt_finish p _ a) (fun u q => u.byteAt_setCurrent q _ a)
  rw [State.outgoing, State.outgoing, htrace, hcontents]

section Stream

variable {i : Instr} {s t : State} (hexec : exec i s = .next t)
include hexec

/-- A micro-step of the loop: the other port holds nothing. -/
theorem keepsStream_of_loop (hoff : (s.seqOf (otherPort s.turn)).active = false)
    (hout : t.outgoing t.current.held = s.outgoing s.current.held) : KeepsStream s t := by
  obtain ⟨hturn, hother, -⟩ := microStepLeavesTheOtherPortAlone i s t hexec
  have hnone := Seq.held_of_inactive hoff
  refine ⟨[], Nat.zero_le _, ?_⟩
  rw [State.txStream_eq (by rw [hturn, hother, hnone]), State.txStream_eq hnone, hout, List.map_nil, List.append_nil]

/-- A micro-step between places where the acting port holds nothing. -/
theorem keepsStream_of_queues (hbefore : s.current.held = []) (hafter : t.current.held = []) (hqueues : Queues s t) :
    KeepsStream s t := by
  obtain ⟨hturn, hother, -⟩ := microStepLeavesTheOtherPortAlone i s t hexec
  obtain ⟨pushed, hlen, hout⟩ := hqueues
  refine ⟨pushed, hlen, ?_⟩
  rw [State.txStream_eq_other hafter, State.txStream_eq_other hbefore, hturn, hother, hout]

end Stream

/-- A command's micro-step is its first, at an idle port, or one of that command in flight. -/
theorem exec_next_place {i : Instr} {s t : State} (h : exec i s = .next t) :
    s.current = .idle ∨ s.current.instr = some i := by
  cases i with
  | init be rxs txs baud a b =>
    rcases execInit_next be rxs txs baud a b s t h with hw | ⟨hcur, -⟩ | ⟨hidle, -⟩
    · exact .inl hw.1
    · exact .inr (by rw [hcur]; rfl)
    · exact .inl hidle
  | ingestReceivedByte b => exact .inl (startOn_next _ s t _ h).1
  | serviceTransmit =>
    rcases execServiceTransmit_next s t h with hw | ⟨loc, hcur | ⟨hs, -⟩, -⟩
    · exact .inl hw.1
    · exact .inr (by rw [hcur]; rfl)
    · exact .inl hs.1
  | write data length =>
    rcases execWrite_next data length s t h with hw | ⟨k, loc, hcur | ⟨hs, -⟩, -⟩
    · exact .inl hw.1
    · exact .inr (by rw [hcur]; rfl)
    · exact .inl hs.1
  | read maxLen =>
    rcases execRead_next maxLen s t h with hw | ⟨hs, -⟩ | ⟨out, hcur | ⟨hs, -⟩, -⟩
    · exact .inl hw.1
    · exact .inl hs.1
    · exact .inr (by rw [hcur]; rfl)
    · exact .inl hs.1
  | echoPump =>
    rcases execEchoPump_next s t h with hw | ⟨loc, hcur | ⟨hs, -⟩, -⟩
    · exact .inl hw.1
    · exact .inr (by rw [hcur]; rfl)
    · exact .inl hs.1
  | rxAvailableCount | txQueuedCount | overflowCount | overflowClear | setEchoChunkSize | getEchoChunkSize =>
    exact .inl (startOn_next _ s t _ h).1

/-- Only a drainer's sequencer holds a byte. -/
theorem Seq.held_of_not_drainer {q : Seq} {i : Instr} (hq : q = .idle ∨ q.instr = some i)
    (hi : i.mnemonic ∉ drainers) : q.held = [] := by
  rcases hq with rfl | hq
  · rfl
  cases q with
  | idle | init | read => rfl
  | serviceTransmit | write | echoPump =>
    obtain rfl := Option.some.inj hq
    exact absurd (by simp [drainers, Instr.mnemonic]) hi

theorem Ends.place {i : Instr} {u t : State} (h : Ends i u t) : t.current = .idle ∨ t.current.instr = some i := by
  rcases h with ⟨r, rfl⟩ | ⟨q, hq, rfl⟩
  · exact .inl (u.current_finish r)
  · exact .inr (by rw [State.current_setCurrent, hq])

/-- The commands outside the transmit side leave `tx`'s contents alone. -/
theorem Access.contents_tx {i : Instr} {s u : State} (h : Access i s u) (hs : s.DataInv)
    (hi : i.mnemonic ∉ ["init", "write", "echoPump", "serviceTransmit"]) : u.contents .tx = s.contents .tx := by
  have hinit : i.mnemonic ≠ "init" := fun heq => hi (by simp [heq])
  obtain ⟨-, hcap, -, hmem, -⟩ := h.constructed hinit
  have hwr : u.tx.wr = s.tx.wr := h.tx_wr fun hin => hi ((by decide :
    ["init", "write", "echoPump"] ⊆ ["init", "write", "echoPump", "serviceTransmit"]) hin)
  refine State.contents_congr (Fifo.ext hmem hcap hwr (h.tx_rd hi) (h.tx_cnt hi)) fun a => ?_
  cases h with
  | ingest b =>
    refine State.byteAt_pushed_other (f := .rx) b fun heq => ?_
    have hregion : Region.txmem = Region.rxmem := hs.txBound.symm.trans (heq.1.trans hs.rxBound)
    simp at hregion
  | stage | drop | setup | call => simp [Instr.mnemonic] at hi
  | pushTx hin => exact absurd ((by decide :
      ["write", "echoPump"] ⊆ ["init", "write", "echoPump", "serviceTransmit"]) hin) hi
  | popTx => exact s.byteAt_popped ..
  | read => exact s.byteAt_popped ..
  | none | ask | send | overflow | clear | tune => rfl

theorem State.contents_tx_congr {s u : State} (hs : s.DataInv) (htx : u.tx = s.tx) (hmem : u.txmem = s.txmem) :
    u.contents .tx = s.contents .tx := by
  refine State.contents_congr htx fun a => ?_
  rw [State.fifo_tx, hs.txBound]
  exact congrArg (Memory.read · a) hmem

/-- Outside its inner `write` an `echoPump` leaves the transmit side alone and holds nothing. -/
structure OffTransmit (s t : State) : Prop where
  trace : t.trace = s.trace
  tx : t.tx = s.tx
  txmem : t.txmem = s.txmem
  held : t.current.held = []

theorem echoReturn_offTransmit (s : State) : OffTransmit s (echoReturn s) := by
  constructor <;> simp [echoReturn, Seq.held]

theorem offTransmit_setCurrent {s u : State} {q : Seq} (htrace : u.trace = s.trace) (htx : u.tx = s.tx)
    (hmem : u.txmem = s.txmem) (hq : q.held = []) : OffTransmit s (u.setCurrent q) := by
  constructor <;> simp [htrace, htx, hmem, hq]

theorem echoRead_offTransmit {n : Half} {k i : Nat} {s t : State} (h : echoRead n k i s = .ok t) : OffTransmit s t := by
  rcases echoRead_ok n k i s t h with ⟨-, rfl⟩ | ⟨b, u, hpop, -, rfl⟩
  · unfold echoAfterRead
    split
    · exact echoReturn_offTransmit s
    · exact offTransmit_setCurrent rfl rfl rfl rfl
  · rcases pop_ok .rx s u _ hpop with ⟨hb, -⟩ | ⟨-, -, -, -, -, rfl⟩
    · simp at hb
    · split
      · exact offTransmit_setCurrent rfl rfl rfl rfl
      · rw [echoAfterRead, if_neg (Nat.succ_ne_zero i)]
        exact offTransmit_setCurrent rfl rfl rfl rfl

theorem echoPumpStep_offTransmit {loc : EchoLoc} {s t : State} (hloc : ∀ n k r i l, loc ≠ .writing n k r i l)
    (h : echoPumpStep loc s = .ok t) : OffTransmit s t := by
  cases loc with
  | ask =>
    obtain rfl : echoAsk s = t := Except.ok.inj h
    unfold echoAsk
    split
    · exact echoReturn_offTransmit s
    · exact offTransmit_setCurrent rfl rfl rfl rfl
  | counted n =>
    simp only [echoPumpStep] at h
    split at h
    · obtain rfl := Except.ok.inj h
      exact echoReturn_offTransmit s
    · exact echoRead_offTransmit h
  | reading n k i => exact echoRead_offTransmit h
  | writing n k r i l => exact absurd rfl (hloc n k r i l)

/-- A micro-step of a `write` body, seen as a step of its command: what the command does with the outcome shows neither in
the trace nor in `tx`. -/
theorem keepsStream_of_writeStep {i : Instr} {next : Option Byte} {k : Nat} {loc : WriteLoc} {s t u : State}
    {o : WriteOut} (h : s.Inv) (hok : s.status = .ok) (hexec : exec i s = .next t)
    (hwrite : writeStep next k loc s = .ok (o, u)) (hcur : loc.active = true → s.current.active = true)
    (hbefore : s.current.held = loc.held) (hout : ∀ held, t.outgoing held = u.outgoing held)
    (hafter : t.current.held = o.held) : KeepsStream s t := by
  rcases writeStep_outgoing (h.dataInv_of_ok hok) hwrite with ⟨halone, hflush⟩ | ⟨hnone, hnone', pushed, hlen, hpush⟩
  · refine keepsStream_of_loop hexec (h.other_inactive_of hcur halone) ?_
    rw [hafter, hbefore, hout, hflush]
  · exact keepsStream_of_queues hexec (hbefore.trans hnone) (hafter.trans hnone')
      ⟨pushed, hlen, fun held => (hout held).trans (hpush held)⟩

/-- A command that is turned away leaves the transmit side alone. -/
theorem keepsStream_wrongPort {i : Instr} {s t : State} (hexec : exec i s = .next t) (hw : wrongPortAnswer i s t) :
    KeepsStream s t := by
  obtain ⟨hidle, -, rfl⟩ := id hw
  refine keepsStream_of_queues hexec (by rw [hidle]; rfl) (by rw [State.current_finish]; rfl) ?_
  have hout := Ends.outgoing (i := i) (u := s) (.inl ⟨errResponse .wrongPort, rfl⟩)
  exact ⟨[], Nat.zero_le _, fun held => (hout held).trans (List.append_nil _).symm⟩

/-- R155: every command's micro-step keeps the order of the transmit side. -/
theorem exec_keepsStream {i : Instr} {s t : State} (h : s.Inv) (hok : s.status = .ok) (hexec : exec i s = .next t) :
    KeepsStream s t := by
  have hdata := h.dataInv_of_ok hok
  by_cases hi : i.mnemonic ∈ ["init", "write", "echoPump", "serviceTransmit"]
  case neg =>
    obtain ⟨u, hacc, hend⟩ := exec_next_microStep hexec
    have hdrain : i.mnemonic ∉ drainers := fun hin => hi ((by decide :
      drainers ⊆ ["init", "write", "echoPump", "serviceTransmit"]) hin)
    have hback : i.mnemonic ∉ ["init", "serviceTransmit", "write", "echoPump"] := fun hin => hi ((by decide :
      ["init", "serviceTransmit", "write", "echoPump"] ⊆ ["init", "write", "echoPump", "serviceTransmit"]) hin)
    obtain ⟨pushed, hlen, hout⟩ := queues_nothing (hacc.backend hback).1 (hacc.contents_tx hdata hi)
    exact keepsStream_of_queues hexec (Seq.held_of_not_drainer (exec_next_place hexec) hdrain)
      (Seq.held_of_not_drainer hend.place hdrain) ⟨pushed, hlen, fun held => (hend.outgoing held).trans (hout held)⟩
  case pos =>
    cases i with
    | init be rxs txs baud a b =>
      rcases execInit_next be rxs txs baud a b s t hexec with hw | ⟨hcur, -⟩ | ⟨-, -, hstatus, -⟩
      · exact keepsStream_wrongPort hexec hw
      · have hlegal : legalL s (.init be rxs txs baud a b) := hcur ▸ h.legal_at_L (h.turn_L hcur id)
        exact absurd hok hlegal.2.1
      · exact absurd hok hstatus
    | serviceTransmit =>
      rcases execServiceTransmit_next s t hexec with hw | ⟨loc, hplace, hs⟩
      · exact keepsStream_wrongPort hexec hw
      obtain ⟨o, u, hservice, rfl⟩ := serviceTransmitStep_ok loc s t hs
      have hcur : (loc.active = true → s.current.active = true) ∧ s.current.held = loc.held := by
        rcases hplace with hcur | ⟨hstart, rfl⟩
        · rw [hcur]; exact ⟨id, rfl⟩
        · rw [hstart.1]; exact ⟨by simp [TxLoc.active], rfl⟩
      refine keepsStream_of_loop hexec (h.other_inactive_of hcur.1 (serviceStep_alone hservice)) ?_
      rw [hcur.2, ← serviceStep_outgoing hdata hservice]
      cases o with
      | none =>
        rw [State.current_finish]
        exact Ends.outgoing (i := .serviceTransmit) (.inl ⟨_, rfl⟩) _
      | some loc' =>
        rw [State.current_setCurrent]
        exact Ends.outgoing (i := .serviceTransmit) (.inr ⟨_, rfl, rfl⟩) _
    | write data length =>
      rcases execWrite_next data length s t hexec with hw | ⟨k, loc, hplace, hs⟩
      · exact keepsStream_wrongPort hexec hw
      obtain ⟨o, u, hwrite, rfl⟩ := writeCommandStep_ok data length k loc s t hs
      have hcur : (loc.active = true → s.current.active = true) ∧ s.current.held = loc.held := by
        rcases hplace with hcur | ⟨hstart, -, -, rfl⟩
        · rw [hcur]; exact ⟨id, rfl⟩
        · rw [hstart.1]; exact ⟨by simp [WriteLoc.active], rfl⟩
      cases o with
      | running k' loc' =>
        exact keepsStream_of_writeStep h hok hexec hwrite hcur.1 hcur.2
          (Ends.outgoing (i := .write data length) (.inr ⟨_, rfl, rfl⟩)) (by rw [State.current_setCurrent]; rfl)
      | returned k' =>
        exact keepsStream_of_writeStep h hok hexec hwrite hcur.1 hcur.2
          (Ends.outgoing (i := .write data length) (.inl ⟨_, rfl⟩)) (by rw [State.current_finish]; rfl)
    | echoPump =>
      rcases execEchoPump_next s t hexec with hw | ⟨loc, hplace, hs⟩
      · exact keepsStream_wrongPort hexec hw
      by_cases hwriting : ∃ n k r j l, loc = .writing n k r j l
      case pos =>
        obtain ⟨n, k, r, j, l, rfl⟩ := hwriting
        have hcur : s.current = .echoPump (.writing n k r j l) := hplace.resolve_right (by simp)
        obtain ⟨next, o, u, -, hwrite, rfl⟩ := echoWrite_ok n k r j l s t hs
        cases o with
        | running j' l' =>
          exact keepsStream_of_writeStep h hok hexec hwrite (by rw [hcur]; exact id) (by rw [hcur]; rfl)
            (Ends.outgoing (i := .echoPump) (.inr ⟨_, rfl, rfl⟩)) (by rw [State.current_setCurrent]; rfl)
        | returned j' =>
          exact keepsStream_of_writeStep h hok hexec hwrite (by rw [hcur]; exact id) (by rw [hcur]; rfl)
            (Ends.outgoing (i := .echoPump) (u := u.dropStaging) (.inr ⟨_, rfl, rfl⟩))
            (by rw [State.current_setCurrent]; rfl)
      case neg =>
        have hloc : ∀ n k r j l, loc ≠ .writing n k r j l := fun n k r j l heq => hwriting ⟨n, k, r, j, l, heq⟩
        have hoff := echoPumpStep_offTransmit hloc hs
        refine keepsStream_of_queues hexec ?_ hoff.held
          (queues_nothing hoff.trace (State.contents_tx_congr hdata hoff.tx hoff.txmem))
        rcases hplace with hcur | ⟨hstart, -⟩
        · rw [hcur]
          cases loc with
          | writing n k r j l => exact absurd rfl (hloc n k r j l)
          | ask | counted | reading => rfl
        · rw [hstart.1]; rfl
    | ingestReceivedByte | read | rxAvailableCount | txQueuedCount | overflowCount | overflowClear | setEchoChunkSize
      | getEchoChunkSize => simp [Instr.mnemonic] at hi

/-! ## Port I and `rx` (R68) -/

/-- The commands that port I takes, but one, leave `rx` and its bytes alone. -/
theorem Access.contents_rx {i : Instr} {s u : State} (h : Access i s u) (hport : takenOn .I i = true)
    (hi : i.mnemonic ≠ "ingestReceivedByte") : u.contents .rx = s.contents .rx := by
  cases h with
  | none | ask | popTx | send => rfl
  | ingest | overflow => exact absurd rfl hi
  | read | stage | drop | clear | tune | setup | call => simp [takenOn] at hport
  | pushTx hin => cases i <;> simp [takenOn, Instr.mnemonic] at hport hin

theorem Ends.contents_rx {i : Instr} {u t : State} (h : Ends i u t) : t.contents .rx = u.contents .rx := by
  refine State.contents_congr ?_ fun a => ?_
  · exact h.field_eq (·.rx) State.finish_rx State.setCurrent_rx
  · exact h.field_eq (·.byteAt _ a) (fun u p => u.byteAt_finish p _ a) (fun u q => u.byteAt_setCurrent q _ a)

/-- A command that port I does not take is turned away there. -/
theorem State.Inv.wrongPort_of_I {s t : State} {i : Instr} (h : s.Inv) (hturn : s.turn = .I)
    (hport : takenOn .I i = false) (hexec : exec i s = .next t) : t = s.finish (errResponse .wrongPort) := by
  have hidle : s.current = .idle := by
    refine (exec_next_place hexec).resolve_right fun hi => ?_
    have hlegal := h.legal_at_I hturn
    cases hcur : s.current with
    | serviceTransmit loc =>
      rw [hcur, Seq.instr, Option.some.injEq] at hi
      rw [← hi] at hport
      simp [takenOn] at hport
    | idle => rw [hcur] at hi; simp [Seq.instr] at hi
    | init | write | read | echoPump => rw [hcur] at hlegal; exact hlegal
  exact Host.Outcome.next.inj (hexec.symm.trans (exec_wrongPort hidle (by rw [hturn, hport])))

end Sys2Proof.Machine

namespace Sys2Proof

open Machine

/-- Settles O58. -/
theorem onlyUndefinedConditionsStop : Obligations.OnlyUndefinedConditionsStop := fun _ h => h.takeTurn.goesOn_portStep

/-- Settles O59: taking the turn and a command's words touches nothing of the transmit side, and every command's micro-step
keeps its order. -/
theorem transmitSideKeepsEveryByte : Obligations.TransmitSideKeepsEveryByte := by
  intro s t h hok hstep
  have hturn := h.takeTurn
  have hcore := s.sameCore_takeTurn
  have hok' : s.takeTurn.status = .ok := hcore.status.trans hok
  have hstream : s.takeTurn.txStream = s.txStream := by
    unfold State.takeTurn
    split <;> rfl
  have hconsume : ∀ rest, (s.takeTurn.consume rest).txStream = s.takeTurn.txStream := by
    intro rest
    unfold State.consume
    cases s.takeTurn.turn <;> rfl
  have hkeeps : KeepsStream s.takeTurn t := by
    rcases portStep_next hstep with rfl | ⟨e, rest, hidle, rfl⟩ | ⟨i, hexec⟩ | ⟨i, rest, -, hexec⟩
    · exact ⟨[], Nat.zero_le _, (List.append_nil _).symm⟩
    · refine ⟨[], Nat.zero_le _, ?_⟩
      rw [State.answerError_of_idle rfl hidle]
      cases s.takeTurn.turn <;> exact (List.append_nil _).symm
    · exact exec_keepsStream hturn hok' hexec
    · obtain ⟨pushed, hlen, hpush⟩ := exec_keepsStream (hturn.consume rest)
        ((State.sameCore_consume _ rest).status.trans hok') hexec
      exact ⟨pushed, hlen, by rw [hpush, hconsume]⟩
  rwa [KeepsStream, hstream] at hkeeps

/-- Settles O60: of the commands that port I takes, only `ingestReceivedByte` touches `rx`, and it pushes. -/
theorem portINeverTakesFromRx : Obligations.PortINeverTakesFromRx := by
  intro i s t h hturn hok hexec
  cases hport : takenOn .I i with
  | false =>
    rw [h.wrongPort_of_I hturn hport hexec]
    exact ⟨[], (Ends.contents_rx (i := i) (.inl ⟨_, rfl⟩)).trans (List.append_nil _).symm⟩
  | true =>
    obtain ⟨u, hacc, hend⟩ := exec_next_microStep hexec
    rw [hend.contents_rx]
    by_cases hi : i.mnemonic = "ingestReceivedByte"
    · cases hacc with
      | ingest b hfull =>
        have hdata := h.dataInv_of_ok hok
        exact ⟨[b], (hdata.fifoInv .rx).contents_pushed (hdata.rxInv.cnt_lt_cap hfull) b⟩
      | none | overflow => exact ⟨[], (List.append_nil _).symm⟩
      | read | stage | drop | clear | tune | setup | call => simp [Instr.mnemonic] at hi
      | ask hin | popTx hin | send hin => exact absurd (hi ▸ hin) (by decide)
      | pushTx hin => exact absurd (hi ▸ hin) (by decide)
    · rw [hacc.contents_rx hport hi]
      exact ⟨[], (List.append_nil _).symm⟩

end Sys2Proof

/-! # Commands run to their return

`drive` one micro-step at a time; the `serviceTransmit` loop run to its end against a backend whose answers are listed; the
pushes of a `write` body and the pops of a `read`, each by induction on their number. -/

namespace Sys2Proof.Machine

/-! ## One micro-step of a run -/

theorem drive_finish {i : Instr} {s u : State} {r : Response} (h : exec i s = .next (u.finish r)) (n : Nat) :
    drive (n + 1) i s = some (u.finish r) := by
  simp only [drive, h, State.current_finish, if_true]

theorem drive_goOn {i : Instr} {s u : State} {q : Seq} (h : exec i s = .next (u.setCurrent q)) (hq : q ≠ .idle)
    (n : Nat) : drive (n + 1) i s = drive n i (u.setCurrent q) := by
  simp only [drive, h, State.current_setCurrent, if_neg hq]

/-- A run that has returned returns the same with more micro-steps to go. -/
theorem drive_mono {i : Instr} {n m : Nat} {s t : State} (h : drive n i s = some t) (hle : n ≤ m) :
    drive m i s = some t := by
  induction n generalizing m s with
  | zero => simp [drive] at h
  | succ n ih =>
    obtain ⟨m, rfl⟩ : ∃ m', m = m' + 1 := ⟨m - 1, by omega⟩
    simp only [drive] at h ⊢
    split at h
    next u hu =>
      split
      next hidle => rwa [if_pos hidle] at h
      next hbusy =>
        rw [if_neg hbusy] at h
        exact ih h (by omega)
    next => simp at h
    next => simp at h

/-! ## The sequencer commutes with every access -/

@[simp] theorem State.fifo_setCurrent (s : State) (q : Seq) (f : FifoId) : (s.setCurrent q).fifo f = s.fifo f := by
  cases f <;> simp

@[simp] theorem State.region_setCurrent (s : State) (q : Seq) (r : Region) :
    (s.setCurrent q).region r = s.region r := by
  cases r <;> simp

@[simp] theorem State.contents_setCurrent (s : State) (q : Seq) (f : FifoId) :
    (s.setCurrent q).contents f = s.contents f :=
  State.contents_congr (s.fifo_setCurrent q f) fun a => s.byteAt_setCurrent q _ a

@[simp] theorem State.contents_finish (s : State) (r : Response) (f : FifoId) :
    (s.finish r).contents f = s.contents f := by
  refine State.contents_congr ?_ fun a => s.byteAt_finish r _ a
  cases f <;> simp

@[simp] theorem State.byteAtRead_setCurrent (s : State) (q : Seq) (f : FifoId) :
    (s.setCurrent q).byteAtRead f = s.byteAtRead f := by
  simp [State.byteAtRead]

@[simp] theorem State.setCurrent_self (s : State) : s.setCurrent s.current = s := by
  rw [State.setCurrent, State.current]
  cases s.turn <;> rfl

theorem State.setFifo_setCurrent (s : State) (q : Seq) (f : FifoId) (x : Fifo) :
    (s.setCurrent q).setFifo f x = (s.setFifo f x).setCurrent q := by
  rw [State.setCurrent, State.setCurrent, State.setFifo_turn]
  cases s.turn <;> cases f <;> rfl

theorem State.setRegion_setCurrent (s : State) (q : Seq) (r : Region) (m : Memory) :
    (s.setCurrent q).setRegion r m = (s.setRegion r m).setCurrent q := by
  rw [State.setCurrent, State.setCurrent, State.setRegion_turn]
  cases s.turn <;> cases r <;> rfl

theorem State.popped_setCurrent (s : State) (q : Seq) (f : FifoId) :
    (s.setCurrent q).popped f = (s.popped f).setCurrent q := by
  rw [State.popped, State.fifo_setCurrent, State.setFifo_setCurrent, State.popped]

theorem State.pushed_setCurrent (s : State) (q : Seq) (f : FifoId) (b : Byte) :
    (s.setCurrent q).pushed f b = (s.pushed f b).setCurrent q := by
  rw [State.pushed, State.fifo_setCurrent, State.region_setCurrent, State.setRegion_setCurrent,
    State.setFifo_setCurrent, State.pushed]

theorem State.setCurrent_withRx (s : State) (c : Seq) (q : Fifo) :
    { s.setCurrent c with rx := q } = State.setCurrent { s with rx := q } c :=
  s.setFifo_setCurrent c .rx q

theorem State.record_setCurrent (s : State) (q : Seq) (e : Event) :
    (s.setCurrent q).record e = (s.record e).setCurrent q := by
  rw [State.setCurrent, State.setCurrent, State.record_turn]
  cases s.turn <;> rfl

/-! ## The loop against listed answers -/

/-- The transmit side of a state written anew: `tx`'s registers, the trace, and the answers to come. -/
def State.withTransmit (s : State) (q : Fifo) (trace : List Event) (answers : List Bool) : State :=
  { s with tx := q, trace := trace, answers := answers }

theorem State.withTransmit_setCurrent (s : State) (c : Seq) (q : Fifo) (trace : List Event) (answers : List Bool) :
    (s.setCurrent c).withTransmit q trace answers = (s.withTransmit q trace answers).setCurrent c := by
  rw [State.setCurrent, State.setCurrent, show (s.withTransmit q trace answers).turn = s.turn from rfl]
  cases s.turn <;> rfl

/-- The command `i` stands at `wrap loc` while its loop stands at `loc`, and answers `r` when the loop returns. -/
def RunsLoop (i : Instr) (wrap : TxLoc → Seq) (r : Response) : Prop :=
  ∀ loc, wrap loc ≠ .idle ∧
    ∀ s : State, s.current = wrap loc → exec i s = ofResult (loopStep wrap (·.finish r) loc s)

/-- The next micro-step of the command `i` asks the backend. -/
def AsksNext (i : Instr) (wrap : TxLoc → Seq) (r : Response) (s : State) : Prop :=
  exec i s = .next (if (beTxReady s).1 then (beTxReady s).2.setCurrent (wrap .pop) else (beTxReady s).2.finish r)

section Drain

variable {i : Instr} {wrap : TxLoc → Seq} {r : Response} (hloop : RunsLoop i wrap r)

/-- A false answer ends the loop. -/
theorem drive_asks_false {s : State} {rest : List Bool} (hask : AsksNext i wrap r s) (hanswers : s.answers = false :: rest)
    (n : Nat) : drive (n + 1) i s = some ((s.withTransmit s.tx (s.trace ++ [.txReady false]) rest).finish r) := by
  obtain ⟨hfalse, hstate⟩ := beTxReady_listed_snd hanswers
  rw [AsksNext, hfalse, hstate, if_neg (by simp)] at hask
  exact drive_finish hask n

include hloop

theorem RunsLoop.asksNext {s : State} (hcur : s.current = wrap .ask) : AsksNext i wrap r s := by
  rw [AsksNext, (hloop .ask).2 s hcur, loopStep_asks (.inl rfl)]
  rfl

theorem drive_asks_true {s : State} {rest : List Bool} (hask : AsksNext i wrap r s) (hanswers : s.answers = true :: rest)
    (n : Nat) : drive (n + 1) i s =
      drive n i ((s.withTransmit s.tx (s.trace ++ [.txReady true]) rest).setCurrent (wrap .pop)) := by
  obtain ⟨htrue, hstate⟩ := beTxReady_listed_snd hanswers
  rw [AsksNext, htrue, hstate, if_pos rfl] at hask
  exact drive_goOn hask (hloop .pop).1 n

/-- A true answer with `tx` empty: the pop fails and the loop ends. -/
theorem drive_round_empty {s : State} {rest : List Bool} (hask : AsksNext i wrap r s) (hanswers : s.answers = true :: rest)
    (hempty : s.tx.empty = true) (n : Nat) :
    drive (n + 2) i s = some ((s.withTransmit s.tx (s.trace ++ [.txReady true]) rest).finish r) := by
  rw [drive_asks_true hloop hask hanswers]
  have hpop := (hloop .pop).2 _ ((s.withTransmit s.tx (s.trace ++ [.txReady true]) rest).current_setCurrent (wrap .pop))
  rw [loopStep_pop_empty (by rw [State.setCurrent_tx]; exact hempty)] at hpop
  rw [drive_finish hpop, State.finish_setCurrent]

/-- A true answer with a byte queued: after three micro-steps the oldest byte is sent and the loop asks again. -/
theorem drive_round {s : State} {rest : List Bool} (hask : AsksNext i wrap r s) (hanswers : s.answers = true :: rest)
    (hempty : s.tx.empty = false) (hrd : s.tx.rd.toNat < s.tx.cap.toNat) (n : Nat) :
    drive (n + 3) i s = drive n i ((s.withTransmit (poppedFifo s.tx)
      (s.trace ++ [.txReady true, .txWrite (s.byteAtRead .tx)]) rest).setCurrent (wrap .ask)) := by
  have hpop := (hloop .pop).2 _ ((s.withTransmit s.tx (s.trace ++ [.txReady true]) rest).current_setCurrent (wrap .pop))
  rw [loopStep_pop (by rw [State.setCurrent_tx]; exact hempty) (by rw [State.setCurrent_tx]; exact hrd),
    State.popped_setCurrent, State.setCurrent_setCurrent, State.byteAtRead_setCurrent] at hpop
  have hput := (hloop (.put (s.byteAtRead .tx))).2 _
    (((s.withTransmit s.tx (s.trace ++ [.txReady true]) rest).popped .tx).current_setCurrent _)
  rw [loopStep_put, State.record_setCurrent, State.setCurrent_setCurrent] at hput
  have hsent : ((s.withTransmit s.tx (s.trace ++ [.txReady true]) rest).popped .tx).record
      (.txWrite (s.byteAtRead .tx)) = s.withTransmit (poppedFifo s.tx)
        (s.trace ++ [.txReady true, .txWrite (s.byteAtRead .tx)]) rest := by
    have htrace := List.append_assoc s.trace [.txReady true] [Event.txWrite (s.byteAtRead .tx)]
    exact congrArg (fun trace => s.withTransmit (poppedFifo s.tx) trace rest) htrace
  rw [hsent] at hput
  rw [drive_asks_true hloop hask hanswers, drive_goOn hpop (hloop _).1]
  exact drive_goOn hput (hloop .ask).1 n

end Drain

/-- A pop that a run has made, seen on the contents. -/
theorem State.DataInv.contents_withTransmit_popped {s : State} (h : s.DataInv) (hempty : s.tx.empty = false)
    (trace : List Event) (answers : List Bool) :
    s.contents .tx = some (s.byteAtRead .tx) :: (s.withTransmit (poppedFifo s.tx) trace answers).contents .tx :=
  (h.fifoInv .tx).contents_popped (Fifo.cnt_toNat_pos hempty)

theorem State.DataInv.withTransmit_popped {s : State} (h : s.DataInv) (hempty : s.tx.empty = false)
    (trace : List Event) (answers : List Bool) : (s.withTransmit (poppedFifo s.tx) trace answers).DataInv :=
  ⟨h.rxmemWf, h.txmemWf, h.echoTmpWf, h.rxBound, h.txBound, h.echoMaxLe, h.rxInv,
    h.txInv.popped (Fifo.cnt_toNat_pos hempty), h.beCopied⟩

theorem sink_append (a b : List Event) : sink (a ++ b) = sink a ++ sink b := List.filterMap_append ..

/-- What a run of the loop has done that ended with `tx` empty: the queued bytes went to the sink, in order. -/
structure Drained (s : State) (q : Fifo) (trace : List Event) (bytes : List Byte) : Prop where
  queued : bytes.map some = s.contents .tx
  sent : sink trace = sink s.trace ++ bytes
  empty : q.cnt = 0
  regs : q = { s.tx with rd := q.rd, cnt := q.cnt }

/-- R155, R267: with a backend that answers true throughout, the loop sends everything queued, oldest first, and returns with
its micro-step `3k + 2` and not before. -/
theorem drive_drains {i : Instr} {wrap : TxLoc → Seq} {r : Response} (hloop : RunsLoop i wrap r) {rest : List Bool} :
    ∀ (k : Nat) (s : State), s.DataInv → AsksNext i wrap r s → s.tx.cnt.toNat = k →
      s.answers = List.replicate (k + 1) true ++ rest →
      drive (3 * k + 1) i s = none ∧
      ∃ q trace bytes, drive (3 * k + 2) i s = some ((s.withTransmit q trace rest).finish r) ∧ Drained s q trace bytes := by
  intro k
  induction k with
  | zero =>
    intro s h hask hcnt hanswers
    have hempty : s.tx.empty = true := (Fifo.empty_iff _).2 hcnt
    have hcnt0 : s.tx.cnt = 0 := BitVec.eq_of_toNat_eq hcnt
    refine ⟨drive_asks_true hloop hask hanswers 0, s.tx, _, [], drive_round_empty hloop hask hanswers hempty 0,
      (State.contents_of_empty (f := .tx) hempty).symm, ?_, hcnt0, rfl⟩
    rw [sink_append_one]; rfl
  | succ k ih =>
    intro s h hask hcnt hanswers
    have hempty : s.tx.empty = false := Fifo.empty_eq_false (by omega)
    have hpopped := poppedFifo_cnt_toNat (Fifo.cnt_toNat_pos hempty)
    have hround := drive_round hloop hask hanswers hempty h.txInv.rdLt
    generalize htrace : s.trace ++ [.txReady true, .txWrite (s.byteAtRead .tx)] = trace at hround
    generalize hnext : s.withTransmit (poppedFifo s.tx) trace (List.replicate (k + 1) true ++ rest) = next at hround
    have hdata : next.DataInv := hnext ▸ h.withTransmit_popped hempty _ _
    have hcontents : s.contents .tx = some (s.byteAtRead .tx) :: next.contents .tx :=
      hnext ▸ h.contents_withTransmit_popped hempty _ _
    obtain ⟨hearly, q, trace', bytes, hdrive, hdrained⟩ := ih (next.setCurrent (wrap .ask)) (hdata.setCurrent _)
      (hloop.asksNext (next.current_setCurrent _)) (by rw [State.setCurrent_tx, ← hnext]; exact hpopped.trans (by omega))
      (by rw [State.setCurrent_answers, ← hnext]; rfl)
    obtain ⟨hqueued, hsent, hcnt0, hregs⟩ := hdrained
    rw [State.setCurrent_tx] at hregs
    rw [State.contents_setCurrent] at hqueued
    rw [State.setCurrent_trace] at hsent
    refine ⟨(hround (3 * k + 1)).trans hearly, q, trace', s.byteAtRead .tx :: bytes, ?_, ?_, ?_, hcnt0, ?_⟩
    · rw [show 3 * (k + 1) + 2 = (3 * k + 2) + 3 from rfl, hround, hdrive, State.withTransmit_setCurrent,
        State.finish_setCurrent, ← hnext]
      rfl
    · rw [hcontents, ← hqueued]; rfl
    · rw [hsent, ← hnext, ← htrace]
      change sink (s.trace ++ _) ++ bytes = _
      rw [sink_append, List.append_assoc]
      rfl
    · rw [hregs, ← hnext]; rfl

/-! ## The commands at the places where they ask -/

theorem runsLoop_serviceTransmit : RunsLoop .serviceTransmit .serviceTransmit (okResponse 0) := fun _ =>
  ⟨by simp, fun _ hcur => exec_serviceTransmit (.inl hcur)⟩

theorem runsLoop_write (data : List Byte) (length : Half) (i : Nat) :
    RunsLoop (.write data length) (writeFlush data length i) (okResponse (BitVec.ofNat 32 i)) := fun _ =>
  ⟨by simp, fun _ hcur => by rw [exec_write (.inl hcur), writeCommandStep_flushing]⟩

theorem asksNext_serviceTransmit {s : State} {p : Port} (h : s.readyAt p) (hother : (s.seqOf (otherPort p)).active = false) :
    AsksNext .serviceTransmit .serviceTransmit (okResponse 0) s := by
  obtain rfl := h.turn
  rw [AsksNext, exec_serviceTransmit (.inr ⟨h, rfl⟩), loopStep_asks (.inr ⟨rfl, hother⟩)]
  rfl

/-! ## The pushes of a `write` body -/

/-- The state after pushing all of `bytes` (R124). -/
def State.pushedAll (s : State) (f : FifoId) (bytes : List Byte) : State := bytes.foldl (·.pushed f ·) s

theorem State.pushedAll_append_one (s : State) (f : FifoId) (bytes : List Byte) (b : Byte) :
    s.pushedAll f (bytes ++ [b]) = (s.pushedAll f bytes).pushed f b := by
  rw [State.pushedAll, List.foldl_append]
  rfl

/-- What pushing `bytes` into a `tx` with room for them has done. -/
structure PushedAll (s t : State) (bytes : List Byte) : Prop where
  data : t.DataInv
  contents : t.contents .tx = s.contents .tx ++ bytes.map some
  cnt : t.tx.cnt.toNat = s.tx.cnt.toNat + bytes.length
  state : t = { s with tx := { s.tx with wr := t.tx.wr, cnt := t.tx.cnt }, txmem := t.txmem }

theorem State.DataInv.pushedAll {s : State} (h : s.DataInv) (bytes : List Byte)
    (hroom : s.tx.cnt.toNat + bytes.length ≤ s.tx.cap.toNat) : PushedAll s (s.pushedAll .tx bytes) bytes := by
  induction bytes using List.reverseRecOn with
  | nil => exact ⟨h, (List.append_nil _).symm, rfl, rfl⟩
  | append_singleton bytes b ih =>
    rw [List.length_append, List.length_singleton] at hroom
    obtain ⟨hdata, hcontents, hcnt, hstate⟩ := ih (by omega)
    rw [State.pushedAll_append_one]
    generalize s.pushedAll .tx bytes = t at *
    have hcap : t.tx.cap = s.tx.cap := by rw [hstate]
    have hlt : t.tx.cnt.toNat < t.tx.cap.toNat := by rw [hcap]; omega
    refine ⟨hdata.pushed_tx (Fifo.full_eq_false hlt.ne) b, ?_, ?_, ?_⟩
    · rw [(hdata.fifoInv .tx).contents_pushed hlt b, hcontents, List.map_append, List.append_assoc]
      rfl
    · rw [State.pushed_tx_tx, pushedFifo_cnt_toNat hlt, hcnt, List.length_append, List.length_singleton, Nat.add_assoc]
    · rw [State.pushed_tx_of_bound hdata.txBound, hstate]
      rfl

/-- The command `i` pushes `bytes[j]` with its next micro-step wherever `place j` holds and `tx` has room. -/
def PushesFrom (i : Instr) (bytes : List Byte) (place : Nat → State → Prop) : Prop :=
  ∀ j b s, place j s → bytes[j]? = some b → s.tx.full = false → s.tx.wr.toNat < s.tx.cap.toNat →
    ∃ q, q ≠ .idle ∧ exec i s = .next ((s.pushed .tx b).setCurrent q) ∧ place (j + 1) ((s.pushed .tx b).setCurrent q)

/-- The first `m` pushes of a body, for which `tx` has room. -/
theorem drive_pushes {i : Instr} {bytes : List Byte} {place : Nat → State → Prop} (hpush : PushesFrom i bytes place)
    {s : State} (h : s.DataInv) (hplace : place 0 s) (m : Nat) (hlen : m ≤ bytes.length)
    (hroom : s.tx.cnt.toNat + m ≤ s.tx.cap.toNat) :
    ∃ q, place m ((s.pushedAll .tx (bytes.take m)).setCurrent q) ∧
      ∀ n, drive (m + n) i s = drive n i ((s.pushedAll .tx (bytes.take m)).setCurrent q) := by
  induction m with
  | zero =>
    have hself : (s.pushedAll .tx (bytes.take 0)).setCurrent s.current = s := s.setCurrent_self
    exact ⟨s.current, hself.symm ▸ hplace, fun n => by rw [hself, Nat.zero_add]⟩
  | succ m ih =>
    obtain ⟨q, hm, hdrive⟩ := ih (by omega) (by omega)
    obtain ⟨b, hb⟩ : ∃ b, bytes[m]? = some b := ⟨_, List.getElem?_eq_getElem hlen⟩
    have htake : bytes.take (m + 1) = bytes.take m ++ [b] := by rw [List.take_add_one, hb]; rfl
    have hlenm : (bytes.take m).length = m := by rw [List.length_take]; omega
    obtain ⟨hdata, -, hcnt, hstate⟩ := h.pushedAll (bytes.take m) (by rw [hlenm]; omega)
    rw [htake, State.pushedAll_append_one]
    generalize s.pushedAll .tx (bytes.take m) = t at *
    have hcap : t.tx.cap = s.tx.cap := by rw [hstate]
    have hfull : (t.setCurrent q).tx.full = false := by
      rw [State.setCurrent_tx]; exact Fifo.full_eq_false (by rw [hcap]; omega)
    obtain ⟨q', hbusy, hexec, hplace'⟩ := hpush m b _ hm hb hfull (by rw [State.setCurrent_tx]; exact hdata.txInv.wrLt)
    rw [State.pushed_setCurrent, State.setCurrent_setCurrent] at hexec hplace'
    refine ⟨q', hplace', fun n => ?_⟩
    rw [Nat.add_assoc, Nat.add_comm 1, hdrive, drive_goOn hexec hbusy]

/-! ## `write` run to its return -/

/-- A `write` at its start or in flight, about to push or, with nothing left to push, about to flush. -/
structure WritePlace (data : List Byte) (length : Half) (i : Nat) (s : State) : Prop where
  turn : s.turn = .L
  other : s.seqI.active = false
  place : s.current = .write data length i .pushing ∨
    (s.readyAt .L ∧ data.length = length.toNat ∧ i = 0 ∧ WriteLoc.pushing = .pushing)

theorem WritePlace.goOn {data : List Byte} {length : Half} {i j : Nat} {s : State} (h : WritePlace data length i s)
    {u : State} (hsame : SameSeats s u) : WritePlace data length j (u.setCurrent (.write data length j .pushing)) := by
  have hturn : u.turn = .L := hsame.turn.trans h.turn
  refine ⟨(u.setCurrent_turn _).trans hturn, ?_, .inl (u.current_setCurrent _)⟩
  rw [State.setCurrent_L hturn]
  exact (congrArg Seq.active hsame.seqI).trans h.other

theorem pushesFrom_write (data : List Byte) (length : Half) :
    PushesFrom (.write data length) data (WritePlace data length) := by
  intro j b s hplace hb hfull hwr
  refine ⟨.write data length (j + 1) .pushing, by simp, ?_, hplace.goOn (s.sameSeats_pushed .tx b)⟩
  rw [exec_write hplace.place, writeCommandStep_room length hb hfull hwr]
  rfl

theorem asksNext_write {data : List Byte} {length : Half} {i : Nat} {s : State} (h : WritePlace data length i s)
    (hi : data.length ≤ i) : AsksNext (.write data length) (writeFlush data length i) (okResponse (BitVec.ofNat 32 i)) s := by
  rw [AsksNext, exec_write h.place, writeCommandStep_pushed_out length s hi,
    loopStep_asks (asks_L h.turn (.inr ⟨rfl, h.other⟩))]
  rfl

/-- A `write` that finds `tx` full asks with the micro-step after. -/
theorem drive_write_full {data : List Byte} {length : Half} {i : Nat} {s : State} (h : WritePlace data length i s)
    (hi : i < data.length) (hfull : s.tx.full = true) :
    AsksNext (.write data length) (writeFlush data length i) (okResponse (BitVec.ofNat 32 i))
      (s.setCurrent (writeFlush data length i .start)) ∧
    ∀ n, drive (n + 1) (.write data length) s =
      drive n (.write data length) (s.setCurrent (writeFlush data length i .start)) := by
  have hexec : exec (.write data length) s = .next (s.setCurrent (writeFlush data length i .start)) := by
    rw [exec_write h.place, writeCommandStep_full length (List.getElem?_eq_getElem hi) hfull]
    rfl
  refine ⟨?_, drive_goOn hexec (by simp)⟩
  have hturn : (s.setCurrent (writeFlush data length i .start)).turn = .L := (s.setCurrent_turn _).trans h.turn
  have hother : (s.setCurrent (writeFlush data length i .start)).seqI.active = false := by
    rw [State.setCurrent_L h.turn]; exact h.other
  rw [AsksNext, exec_write (.inl (s.current_setCurrent _)), writeCommandStep_flushing,
    loopStep_asks (asks_L hturn (.inr ⟨rfl, hother⟩))]
  rfl

/-- The pushes of a `write`, and then its first question, with `min(length, free space)` bytes enqueued (R160, R161). -/
theorem drive_write_enqueues {data : List Byte} {length : Half} {s : State} (h : s.DataInv) (hready : s.readyAt .L)
    (hother : s.seqI.active = false) (hlen : data.length = length.toNat) :
    ∃ m q, m = min length.toNat (s.tx.cap.toNat - s.tx.cnt.toNat) ∧
      AsksNext (.write data length) (writeFlush data length m) (okResponse (BitVec.ofNat 32 m))
        ((s.pushedAll .tx (data.take m)).setCurrent q) ∧
      ∃ steps, steps ≤ length.toNat + 1 ∧ (s.tx.cnt.toNat + length.toNat ≤ s.tx.cap.toNat → steps = length.toNat) ∧
        ∀ n, drive (steps + n) (.write data length) s =
          drive n (.write data length) ((s.pushedAll .tx (data.take m)).setCurrent q) := by
  have hplace : WritePlace data length 0 s := ⟨hready.turn, hother, .inr ⟨hready, hlen, rfl, rfl⟩⟩
  have hle := h.txInv.cntLe
  generalize hm : min length.toNat (s.tx.cap.toNat - s.tx.cnt.toNat) = m
  obtain ⟨q, hq, hdrive⟩ := drive_pushes (pushesFrom_write data length) h hplace m (by omega) (by omega)
  by_cases hall : length.toNat ≤ m
  · obtain rfl : m = length.toNat := by omega
    exact ⟨_, q, rfl, asksNext_write hq (by omega), length.toNat, by omega, fun _ => rfl, hdrive⟩
  · have hlenm : (data.take m).length = m := by rw [List.length_take]; omega
    obtain ⟨-, -, hcnt, hstate⟩ := h.pushedAll (data.take m) (by rw [hlenm]; omega)
    have hcap : (s.pushedAll .tx (data.take m)).tx.cap = s.tx.cap := by rw [hstate]
    obtain ⟨hask, hfull⟩ := drive_write_full hq (by omega)
      (by rw [State.setCurrent_tx]; exact (Fifo.full_iff _).2 (by rw [hcnt, hcap, hlenm]; omega))
    rw [State.setCurrent_setCurrent] at hask hfull
    refine ⟨m, _, rfl, hask, m + 1, by omega, fun _ => by omega, fun n => ?_⟩
    rw [Nat.add_assoc, Nat.add_comm 1, hdrive, hfull]

/-! ## `read` run to its return -/

/-- What pops of `rx` have done that took `bytes`. -/
structure Taken (s : State) (q : Fifo) (bytes : List Byte) (m : Nat) : Prop where
  bytes : bytes.map some = (s.contents .rx).take m
  left : State.contents { s with rx := q } .rx = (s.contents .rx).drop m
  regs : q = { s.rx with rd := q.rd, cnt := q.cnt }

/-- With `rx` empty a `read` returns what it has taken so far. -/
theorem drive_read_empty {maxLen : Half} {out : List Byte} {s : State}
    (hplace : s.current = .read maxLen out ∨ (s.readyAt .L ∧ maxLen ≠ 0 ∧ out = [])) (hempty : s.rx.empty = true)
    (m n : Nat) : ∃ q bytes, drive (n + 1) (.read maxLen) s =
      some (State.finish { s with rx := q } (readResponse (out ++ bytes))) ∧ Taken s q bytes m := by
  have hnil : s.contents .rx = [] := State.contents_of_empty (f := .rx) hempty
  have hexec := exec_read hplace
  rw [readCommandStep_empty maxLen out hempty] at hexec
  refine ⟨s.rx, [], ?_, ?_, hnil.trans ?_, rfl⟩
  · rw [List.append_nil]; exact drive_finish hexec n
  · rw [hnil, List.take_nil]; rfl
  · rw [hnil, List.drop_nil]

/-- A `read` that has still `m + 1` bytes to take returns within `m + 1` micro-steps, with the oldest bytes of `rx`. -/
theorem drive_read {maxLen : Half} : ∀ (m : Nat) (out : List Byte) (s : State), s.DataInv →
    (s.current = .read maxLen out ∨ (s.readyAt .L ∧ maxLen ≠ 0 ∧ out = [])) → maxLen.toNat = out.length + (m + 1) →
    ∃ q bytes, drive (m + 1) (.read maxLen) s = some (State.finish { s with rx := q } (readResponse (out ++ bytes))) ∧
      Taken s q bytes (m + 1) := by
  intro m
  induction m with
  | zero =>
    intro out s h hplace hlen
    cases hempty : s.rx.empty with
    | true => exact drive_read_empty hplace hempty _ _
    | false =>
      have hcons := (h.fifoInv .rx).contents_popped (Fifo.cnt_toNat_pos hempty)
      have hexec := exec_read hplace
      rw [readCommandStep_pop maxLen out hempty h.rxInv.rdLt, if_neg (by omega)] at hexec
      refine ⟨poppedFifo s.rx, [s.byteAtRead .rx], drive_finish hexec 0, ?_, ?_, rfl⟩ <;> rw [hcons] <;> rfl
  | succ m ih =>
    intro out s h hplace hlen
    cases hempty : s.rx.empty with
    | true => exact drive_read_empty hplace hempty _ _
    | false =>
      have hcons := (h.fifoInv .rx).contents_popped (Fifo.cnt_toNat_pos hempty)
      have hexec := exec_read hplace
      rw [readCommandStep_pop maxLen out hempty h.rxInv.rdLt, if_pos (by omega)] at hexec
      obtain ⟨q, bytes, hdrive, hbytes, hleft, hregs⟩ := ih (out ++ [s.byteAtRead .rx])
        ((s.popped .rx).setCurrent (.read maxLen (out ++ [s.byteAtRead .rx]))) ((h.popped_rx hempty).setCurrent _)
        (.inl (State.current_setCurrent ..)) (by rw [List.length_append, List.length_singleton]; omega)
      rw [State.setCurrent_withRx] at hdrive hleft
      rw [State.contents_setCurrent] at hbytes hleft
      rw [State.contents_setCurrent] at hleft
      rw [State.setCurrent_rx] at hregs
      refine ⟨q, s.byteAtRead .rx :: bytes, ?_, ?_, ?_, hregs⟩
      · rw [drive_goOn hexec (by simp), hdrive, State.finish_setCurrent, List.append_assoc]
        rfl
      · rw [hcons, List.take_succ_cons, ← hbytes]; rfl
      · rw [hcons, List.drop_succ_cons]; exact hleft

/-- R162, R163: a `read` returns the oldest `min(maxLen, cnt)` bytes of `rx`. -/
theorem drive_read_all {maxLen : Half} {s : State} (h : s.DataInv) (hready : s.readyAt .L) :
    ∃ q bytes, drive (maxLen.toNat + 1) (.read maxLen) s = some (State.finish { s with rx := q } (readResponse bytes)) ∧
      Taken s q bytes maxLen.toNat := by
  cases hlen : maxLen.toNat with
  | zero =>
    obtain rfl : maxLen = 0 := BitVec.eq_of_toNat_eq hlen
    have hexec : exec (.read 0) s = .next (s.finish (readResponse [])) := by
      rw [State.finish_of_idle hready.turn hready.idle, readOfNothingChangesNothing s hready]
      rfl
    exact ⟨s.rx, [], drive_finish hexec 0, rfl, rfl, rfl⟩
  | succ m =>
    have hne : maxLen ≠ 0 := by rintro rfl; simp at hlen
    obtain ⟨q, bytes, hdrive, htaken⟩ := drive_read m [] s h (.inr ⟨hready, hne, rfl⟩)
      (by rw [hlen, List.length_nil, Nat.zero_add])
    exact ⟨q, bytes, drive_mono hdrive (Nat.le_succ _), htaken⟩

end Sys2Proof.Machine

namespace Sys2Proof

open Machine

/-- Settles O44, by the pops of the `read`. -/
theorem readReturnsTheOldestBytes : Obligations.ReadReturnsTheOldestBytes := by
  intro maxLen s h hready
  obtain ⟨q, bytes, hdrive, hbytes, hleft, hregs⟩ := drive_read_all (maxLen := maxLen) (h.dataInv_of_ok hready.ok) hready
  refine ⟨_, bytes, hdrive, hbytes, (State.contents_finish ..).trans hleft, ?_⟩
  rw [State.finish_of_idle (s := { s with rx := q }) hready.turn hready.idle]
  exact congrArg (fun x => State.respond { s with rx := x } .L (readResponse bytes)) hregs

end Sys2Proof

/-! # Commands against a backend whose answers are listed: O36, O37, O40, O41 -/

namespace Sys2Proof

open Machine

/-- Settles O36, by the rounds of the loop. -/
theorem serviceTransmitDrainsInOrder : Obligations.ServiceTransmitDrainsInOrder := by
  intro s p rest h hready hother hanswers
  obtain ⟨hearly, q, trace, bytes, hdrive, hqueued, hsent, hempty, hregs⟩ := drive_drains runsLoop_serviceTransmit _ s
    (h.dataInv_of_ok hready.ok) (asksNext_serviceTransmit hready hother) rfl hanswers
  rw [State.finish_of_idle (s := s.withTransmit q trace rest) hready.turn (by cases p <;> exact hready.idle)] at hdrive
  refine ⟨hearly, _, bytes, hdrive, hqueued, ?_⟩
  rw [hregs]
  cases p <;> exact ⟨hsent, hempty, rfl, rfl, rfl, rfl⟩

/-- Settles O37: one round of the loop, and a false answer. -/
theorem rateLimitedDrainSendsOneByte : Obligations.RateLimitedDrainSendsOneByte := by
  intro s p rest h hready hother hcnt hanswers
  have hdata := h.dataInv_of_ok hready.ok
  have hempty : s.tx.empty = false := Fifo.empty_of_ne hcnt
  have hround := drive_round runsLoop_serviceTransmit (asksNext_serviceTransmit hready hother) hanswers hempty
    hdata.txInv.rdLt 1
  have hlast := drive_asks_false (runsLoop_serviceTransmit.asksNext (State.current_setCurrent ..))
    ((State.setCurrent_answers ..).trans (rfl : (s.withTransmit (poppedFifo s.tx)
      (s.trace ++ [.txReady true, .txWrite (s.byteAtRead .tx)]) (false :: rest)).answers = _)) 0
  rw [State.withTransmit_setCurrent, State.finish_setCurrent, State.setCurrent_tx, State.setCurrent_trace] at hlast
  refine ⟨_, s.byteAtRead .tx, hround.trans hlast, ?_, ?_, ?_, ?_⟩
  · rw [State.finish_tx]; rfl
  · rw [State.contents_finish]
    exact hdata.contents_withTransmit_popped hempty _ _
  · rw [State.finish_trace]
    exact List.append_assoc ..
  · rw [State.finish_answers]; rfl

/-- Settles O40: the pushes, and a false answer to the first question of the flush. -/
theorem writeReturnsTheShortCount : Obligations.WriteReturnsTheShortCount := by
  intro data length s rest h hready hother hlen hanswers
  have hdata := h.dataInv_of_ok hready.ok
  have hle := hdata.txInv.cntLe
  obtain ⟨m, q, hm, hask, steps, hsteps, -, hdrive⟩ := drive_write_enqueues hdata hready hother hlen
  have hlenm : (data.take m).length = m := by rw [List.length_take]; omega
  have htake : data.take m = data.take (s.tx.cap.toNat - s.tx.cnt.toNat) := by
    rw [List.take_eq_take_iff]; omega
  obtain ⟨-, hcontents, -, hstate⟩ := hdata.pushedAll (data.take m) (by rw [hlenm]; omega)
  rw [← hm, ← htake]
  generalize s.pushedAll .tx (data.take m) = t at *
  have hidle : s.seqL = .idle := hready.idle
  have hreturn := drive_asks_false hask ((State.setCurrent_answers ..).trans (by rw [hstate]; exact hanswers)) 0
  rw [State.withTransmit_setCurrent, State.finish_setCurrent, State.setCurrent_tx, State.setCurrent_trace,
    State.finish_of_idle (p := .L) (by rw [hstate]; exact hready.turn) (by rw [hstate]; exact hidle)] at hreturn
  refine ⟨_, drive_mono ((hdrive 1).trans hreturn) (by omega), hcontents, ?_, ?_⟩
  · rw [hstate]; rfl
  · rw [hstate]; rfl

/-- Settles O41: the pushes, and then the rounds of the flush. -/
theorem writeDeliversEverything : Obligations.WriteDeliversEverything := by
  intro data length s rest h hready hother hlen hroom hanswers
  have hdata := h.dataInv_of_ok hready.ok
  have hidle : s.seqL = .idle := hready.idle
  obtain ⟨m, q, hm, hask, steps, -, hsteps, hdrive⟩ := drive_write_enqueues hdata hready hother hlen
  obtain rfl : m = length.toNat := by omega
  obtain rfl := hsteps hroom
  rw [List.take_of_length_le hlen.le] at hask hdrive
  obtain ⟨hpushed, hcontents, hcnt, hstate⟩ := hdata.pushedAll data (by omega)
  generalize s.pushedAll .tx data = t at *
  obtain ⟨-, f, trace, bytes, hreturn, hqueued, hsent, hempty, hregs⟩ := drive_drains (runsLoop_write data length _)
    (s.tx.cnt.toNat + length.toNat) (t.setCurrent q) (hpushed.setCurrent q) hask
    (by rw [State.setCurrent_tx, hcnt, hlen]) (by rw [State.setCurrent_answers, hstate]; exact hanswers)
  rw [State.withTransmit_setCurrent, State.finish_setCurrent,
    State.finish_of_idle (p := .L) (by rw [hstate]; exact hready.turn) (by rw [hstate]; exact hidle)] at hreturn
  rw [State.contents_setCurrent, hcontents] at hqueued
  rw [State.setCurrent_trace] at hsent
  rw [State.setCurrent_tx] at hregs
  refine ⟨_, by rw [Nat.add_assoc, hdrive, hreturn], ?_, hempty, ?_, ?_⟩
  · have htrace : t.trace = s.trace := by rw [hstate]
    rw [List.append_assoc, ← hqueued, ← htrace, ← List.map_append]
    exact congrArg (List.map some) hsent
  · rw [hstate, BitVec.ofNat_toNat]; rfl
  · rw [hregs, hstate]; rfl

end Sys2Proof

/-! # `echoPump` run to its return (O54)

One iteration: the count, the pops into the staging buffer, the pushes of what was staged, the question that is answered
false. Then an induction on the number of bytes in `rx`, of which every iteration takes at least one. -/

namespace Sys2Proof.Machine

/-! ## Runs whose length does not matter -/

/-- Run alone, the command `i` comes from `s` to `t` before it returns. -/
def Reaches (i : Instr) (s t : State) : Prop := ∃ steps, ∀ n, drive (steps + n) i s = drive n i t

theorem Reaches.refl (i : Instr) (s : State) : Reaches i s s := ⟨0, fun n => by rw [Nat.zero_add]⟩

theorem Reaches.trans {i : Instr} {s t u : State} : Reaches i s t → Reaches i t u → Reaches i s u := by
  rintro ⟨a, hst⟩ ⟨b, htu⟩
  exact ⟨a + b, fun n => by rw [Nat.add_assoc, hst, htu]⟩

theorem Reaches.of_exec {i : Instr} {s u : State} (h : exec i s = .next u) (hbusy : u.current ≠ .idle) : Reaches i s u :=
  ⟨1, fun n => by rw [Nat.add_comm]; simp only [drive, h, if_neg hbusy]⟩

theorem Reaches.of_exec_L {i : Instr} {s u : State} (h : exec i s = .next u) (hturn : u.turn = .L) (hbusy : u.seqL ≠ .idle) :
    Reaches i s u := .of_exec h (by rw [State.current_L hturn]; exact hbusy)

theorem drive_returned {i : Instr} {s u : State} (h : exec i s = .next u) (hturn : u.turn = .L) (hidle : u.seqL = .idle) :
    drive 1 i s = some u := by
  simp only [drive, h, if_pos ((State.current_L hturn).trans hidle)]

/-! ## The pops of the inner `read` -/

theorem State.stagedPop_setCurrent (s : State) (q : Seq) (i : Nat) :
    (s.setCurrent q).stagedPop i = (s.stagedPop i).setCurrent q := by
  rw [State.setCurrent, State.setCurrent, show (s.stagedPop i).turn = s.turn from rfl, State.stagedPop,
    State.setSeq_echoTmp, ← State.setCurrent, State.popped_setCurrent, State.byteAtRead_setCurrent]
  cases hturn : s.turn
  · rw [State.setCurrent_I (s := s.popped .rx) hturn]; rfl
  · rw [State.setCurrent_L (s := s.popped .rx) hturn]; rfl

/-- The state after `m` pops of an inner `read`, staged at offsets 0 to `m - 1` (R170). -/
def State.stagedPops (s : State) : Nat → State
  | 0 => s
  | m + 1 => (s.stagedPops m).stagedPop m

/-- What `m` staged pops have done, where `rx` held `bytes`. -/
structure StagedPops (s t : State) (bytes : List Byte) (m : Nat) : Prop where
  data : t.DataInv
  left : t.contents .rx = (bytes.drop m).map some
  staged : ∀ j, j < m → t.echoTmp.read j = bytes[j]?
  state : t = { s with rx := { s.rx with rd := t.rx.rd, cnt := t.rx.cnt }, echoTmp := t.echoTmp }

theorem StagedPops.empty_eq_false {s t : State} {bytes : List Byte} {m : Nat} (h : StagedPops s t bytes m)
    (hm : m < bytes.length) : t.rx.empty = false := by
  have hlen := t.contents_length .rx
  rw [h.left, List.length_map, List.length_drop] at hlen
  exact Fifo.empty_eq_false (by rw [← State.fifo_rx, ← hlen]; omega)

theorem State.DataInv.stagedPops {s : State} (h : s.DataInv) {bytes : List Byte} (hbytes : s.contents .rx = bytes.map some)
    (m : Nat) (hm : m ≤ bytes.length) : StagedPops s (s.stagedPops m) bytes m := by
  induction m with
  | zero => exact ⟨h, hbytes, fun j hj => absurd hj (Nat.not_lt_zero j), rfl⟩
  | succ m ih =>
    have hdone := ih (by omega)
    have hempty := hdone.empty_eq_false hm
    obtain ⟨hdata, hleft, hstaged, hstate⟩ := hdone
    rw [State.stagedPops]
    generalize s.stagedPops m = t at *
    have hcons := (hdata.fifoInv .rx).contents_popped (Fifo.cnt_toNat_pos hempty)
    rw [hleft, List.drop_eq_getElem_cons hm, List.map_cons, List.cons.injEq, Option.some.injEq] at hcons
    obtain ⟨hbyte, hrest⟩ := hcons
    refine ⟨hdata.stagedPop hempty m, hrest.symm, fun j hj => ?_, ?_⟩
    · change (t.echoTmp.write m (t.byteAtRead .rx)).read j = _
      rw [Memory.read_write]
      split
      next hjm => rw [hjm, ← hbyte, List.getElem?_eq_getElem hm]
      next hjm => exact hstaged j (by omega)
    · rw [hstate]; rfl

/-- The inner `read` stages a byte, and goes on to the next or to the inner `write`. -/
theorem reaches_stagedPop {n : Half} {k i : Nat} {s : State} (hexec : exec .echoPump s = ofResult (echoRead n k i s))
    (hempty : s.rx.empty = false) (hrd : s.rx.rd.toNat < s.rx.cap.toNat) (hmax : i < s.echoMax.toNat) :
    Reaches .echoPump s ((s.stagedPop i).setCurrent
      (.echoPump (if i + 1 < k then .reading n k (i + 1) else .writing n k (i + 1) 0 .pushing))) := by
  rw [echoRead_pop n k i hempty hrd hmax] at hexec
  exact .of_exec hexec (by simp)

/-- The pops of an inner `read` of `k` bytes, all of which `rx` has. -/
theorem reaches_stagedPops {n : Half} {k : Nat} {s : State} {bytes : List Byte} (h : s.DataInv)
    (hbytes : s.contents .rx = bytes.map some) (hk : k ≤ bytes.length) (hmax : k ≤ s.echoMax.toNat)
    (hexec : exec .echoPump s = ofResult (echoRead n k 0 s)) (m : Nat) (hm : m < k) :
    Reaches .echoPump s ((s.stagedPops (m + 1)).setCurrent
      (.echoPump (if m + 1 < k then .reading n k (m + 1) else .writing n k (m + 1) 0 .pushing))) := by
  induction m with
  | zero =>
    have hempty := (h.stagedPops hbytes 0 (Nat.zero_le _)).empty_eq_false (by omega)
    exact reaches_stagedPop (i := 0) hexec hempty h.rxInv.rdLt (by omega)
  | succ m ih =>
    have hbefore := ih (by omega)
    rw [if_pos hm] at hbefore
    have hdone := h.stagedPops hbytes (m + 1) (by omega)
    have hempty := hdone.empty_eq_false (by omega)
    obtain ⟨hdata, -, -, hstate⟩ := hdone
    rw [State.stagedPops]
    generalize s.stagedPops (m + 1) = t at *
    have hmaxt : t.echoMax = s.echoMax := by rw [hstate]
    have hlast := reaches_stagedPop (exec_echoPump (.inl (t.current_setCurrent (.echoPump (.reading n k (m + 1))))))
      (by rw [State.setCurrent_rx]; exact hempty) (by rw [State.setCurrent_rx]; exact hdata.rxInv.rdLt)
      (by rw [State.setCurrent_echoMax, hmaxt]; omega)
    rw [State.stagedPop_setCurrent, State.setCurrent_setCurrent] at hlast
    exact hbefore.trans hlast

/-! ## The pushes of the inner `write` -/

/-- An inner `write` of `k` staged bytes, the first of `bytes`, is about to push the byte after `i` of them. -/
structure EchoWrites (n : Half) (k : Nat) (bytes : List Byte) (i : Nat) (s : State) : Prop where
  turn : s.turn = .L
  other : s.seqI.active = false
  current : s.current = .echoPump (.writing n k k i .pushing)
  max : k ≤ s.echoMax.toNat
  staged : ∀ j, j < k → s.echoTmp.read j = bytes[j]?

theorem EchoWrites.exec_eq {n : Half} {k i : Nat} {bytes : List Byte} {s : State} (h : EchoWrites n k bytes i s) :
    exec .echoPump s = ofResult (echoWrite n k k i .pushing s) := exec_echoPump (.inl h.current)

theorem pushesFrom_echoPump (n : Half) (k : Nat) (bytes : List Byte) :
    PushesFrom .echoPump (bytes.take k) (EchoWrites n k bytes) := by
  intro i b s h hb hfull hwr
  obtain ⟨hik, hbi⟩ : i < k ∧ bytes[i]? = some b := by
    rw [List.getElem?_take] at hb
    split at hb
    next hik => exact ⟨hik, hb⟩
    next => simp at hb
  have hbyte : s.stagedByte i = b := s.stagedByte_of_read i b ((h.staged i hik).trans hbi)
  have hexec := h.exec_eq
  rw [echoWrite_room n k hik (hik.trans_le h.max) hfull hwr, hbyte] at hexec
  have hsame := s.sameSeats_pushed .tx b
  have hturn : (s.pushed .tx b).turn = .L := hsame.turn.trans h.turn
  refine ⟨_, by simp, hexec, (State.setCurrent_turn ..).trans hturn, ?_, State.current_setCurrent .., ?_, fun j hj => ?_⟩
  · rw [State.setCurrent_L hturn]
    exact (congrArg Seq.active hsame.seqI).trans h.other
  · rw [State.setCurrent_echoMax, hsame.echoMax]; exact h.max
  · rw [State.setCurrent_echoTmp, State.pushed_tx_eq]; exact h.staged j hj

/-- The question of the flush is answered false: the iteration ends (R172). -/
def State.iterationEnd (s : State) (rest : List Bool) : State :=
  { s with trace := s.trace ++ [.txReady false], answers := rest, echoTmp := [], seqL := .echoPump .ask }

/-- Once nothing is left to push, or `tx` is full, a false answer ends the iteration. -/
theorem EchoWrites.reaches_head {n : Half} {k i : Nat} {bytes : List Byte} {s : State} {rest : List Bool}
    (h : EchoWrites n k bytes i s) (hdone : k ≤ i ∨ (i < k ∧ s.tx.cnt = s.tx.cap)) (hanswers : s.answers = false :: rest) :
    Reaches .echoPump s (s.iterationEnd rest) := by
  have hseq : s.seqL = .echoPump (.writing n k k i .pushing) := (State.current_L h.turn).symm.trans h.current
  obtain ⟨hpush, hasks, -⟩ := echoPumpDropsWhatDoesNotFit n k k i (s.stagedByte i) s h.turn
  rcases hdone with hall | ⟨hik, hfull⟩
  · exact .of_exec_L (hasks rest (.inr ⟨h.other, .inr ⟨hseq, hall⟩⟩) hanswers) h.turn (by simp [State.iterationEnd])
  · have hfails := (hpush hseq hik (hik.trans_le h.max) rfl).1 hfull
    obtain ⟨-, hasks', -⟩ := echoPumpDropsWhatDoesNotFit n k k i (s.stagedByte i)
      { s with seqL := echoFlush n k k i .start } h.turn
    exact .trans (.of_exec_L hfails h.turn (by simp))
      (.of_exec_L (hasks' rest (.inr ⟨h.other, .inl rfl⟩) hanswers) h.turn (by simp [State.iterationEnd]))

/-- An inner `write` against a backend that is not ready: what `tx` has room for is pushed, and the iteration ends. -/
theorem EchoWrites.reaches_end {n : Half} {k : Nat} {bytes : List Byte} {s : State} {rest : List Bool}
    (h : EchoWrites n k bytes 0 s) (hdata : s.DataInv) (hk : k ≤ bytes.length) (hanswers : s.answers = false :: rest) :
    ∃ t, Reaches .echoPump s (t.iterationEnd rest) ∧
      PushedAll s t ((bytes.take k).take (s.tx.cap.toNat - s.tx.cnt.toNat)) := by
  have hle := hdata.txInv.cntLe
  have hlenk : (bytes.take k).length = k := by rw [List.length_take]; omega
  generalize hm : min k (s.tx.cap.toNat - s.tx.cnt.toNat) = m
  have htake : (bytes.take k).take (s.tx.cap.toNat - s.tx.cnt.toNat) = (bytes.take k).take m := by
    rw [List.take_eq_take_iff]; omega
  have hlenm : ((bytes.take k).take m).length = m := by rw [List.length_take]; omega
  obtain ⟨q, hplace, hdrive⟩ := drive_pushes (pushesFrom_echoPump n k bytes) hdata h m (by omega) (by omega)
  have hpushed := hdata.pushedAll ((bytes.take k).take m) (by omega)
  rw [htake]
  generalize s.pushedAll .tx ((bytes.take k).take m) = t at *
  refine ⟨t, .trans ⟨m, hdrive⟩ ?_, hpushed⟩
  obtain ⟨-, -, hcnt, hstate⟩ := hpushed
  have hturn : t.turn = .L := by rw [hstate]; exact h.turn
  have hcap : t.tx.cap = s.tx.cap := by rw [hstate]
  have hdone : k ≤ m ∨ (m < k ∧ (t.setCurrent q).tx.cnt = (t.setCurrent q).tx.cap) := by
    rw [State.setCurrent_tx]
    refine (Nat.lt_or_ge m k).symm.imp_right fun hmk => ⟨hmk, BitVec.eq_of_toNat_eq ?_⟩
    rw [hcnt, hcap]; omega
  have hend := hplace.reaches_head hdone ((State.setCurrent_answers ..).trans (by rw [hstate]; exact hanswers))
  rw [State.setCurrent_L hturn] at hend ⊢
  exact hend

/-! ## One iteration -/

/-- `s` with everything that an `echoPump` may change before it returns taken from `t`. -/
def State.withPump (s t : State) : State :=
  { s with
    rx := { s.rx with rd := t.rx.rd, cnt := t.rx.cnt }
    tx := { s.tx with wr := t.tx.wr, cnt := t.tx.cnt }
    txmem := t.txmem, echoTmp := t.echoTmp, trace := t.trace, answers := t.answers, seqL := t.seqL }

/-- The head of an iteration: an `echoPump` at its start or about to ask for the count again (R170). -/
structure EchoHead (s : State) : Prop where
  data : s.DataInv
  turn : s.turn = .L
  other : s.seqI.active = false
  noStaging : s.echoTmp = []
  place : s.readyAt .L ∨ (s.turn = .L ∧ s.seqL = .echoPump .ask)

/-- What one iteration has done that took `k` bytes from `rx`. -/
structure Iterated (s t : State) (k : Nat) (rest : List Bool) : Prop where
  head : EchoHead t
  rx : t.contents .rx = (s.contents .rx).drop k
  tx : t.contents .tx = s.contents .tx ++ ((s.contents .rx).take k).take (s.tx.cap.toNat - s.tx.cnt.toNat)
  sink : sink t.trace = sink s.trace
  answers : t.answers = rest
  frame : t = s.withPump t

/-- The chunk that an iteration takes: at least one byte, and no more than `rx` has. -/
theorem EchoHead.chunk {s : State} (h : EchoHead s) (hcnt : s.rx.cnt ≠ 0) :
    0 < echoChunk s.rx.cnt s ∧ echoChunk s.rx.cnt s ≤ s.rx.cnt.toNat ∧ echoChunk s.rx.cnt s ≤ s.echoMax.toNat := by
  have hmax : 0 < s.echoMax.toNat := lt_of_lt_of_le (by decide) h.data.echoMaxLe
  have hpos : 0 < s.rx.cnt.toNat := Fifo.cnt_toNat_pos (Fifo.empty_of_ne hcnt)
  have hchunk := effectiveChunk_pos (v := s.echoCfg) hmax
  have hle := effectiveChunk_le s.echoCfg s.echoMax
  rw [echoChunk]
  omega

/-- The head of an iteration with bytes in `rx`, up to the inner `write`. -/
theorem EchoHead.reaches_write {s : State} (h : EchoHead s) (hcnt : s.rx.cnt ≠ 0) {bytes : List Byte}
    (hbytes : s.contents .rx = bytes.map some) :
    ∃ t n k, Reaches .echoPump s t ∧ 0 < k ∧ k ≤ bytes.length ∧ EchoWrites n k bytes 0 t ∧ t.DataInv ∧
      t.contents .rx = (bytes.drop k).map some ∧
      t = { s with rx := { s.rx with rd := t.rx.rd, cnt := t.rx.cnt }, echoTmp := t.echoTmp, seqL := t.seqL } := by
  obtain ⟨-, hasks⟩ := echoPumpAsksForTheCount s h.place
  obtain ⟨hpos, hle, hmax⟩ := h.chunk hcnt
  have hlen : bytes.length = s.rx.cnt.toNat := by rw [← State.fifo_rx, ← State.contents_length, hbytes, List.length_map]
  have hcounted := hasks hcnt
  rw [← State.setCurrent_L h.turn] at hcounted
  generalize hn : s.rx.cnt = n at *
  generalize hk : echoChunk n s = k at *
  have hchunk : echoChunk n (s.setCurrent (.echoPump (.counted n))) = k := by
    rw [echoChunk, State.setCurrent_echoCfg, State.setCurrent_echoMax, ← hk, echoChunk]
  have hexec := exec_echoPump (.inl (s.current_setCurrent (.echoPump (.counted n))))
  rw [echoPumpStep, hchunk, if_neg hpos.ne'] at hexec
  have hcbytes := (s.contents_setCurrent (.echoPump (.counted n)) .rx).trans hbytes
  have hcdata := h.data.setCurrent (.echoPump (.counted n))
  have hpops := reaches_stagedPops hcdata hcbytes (by omega)
    (by rw [State.setCurrent_echoMax]; exact hmax) hexec (k - 1) (by omega)
  rw [Nat.sub_add_cancel hpos, if_neg (lt_irrefl k)] at hpops
  obtain ⟨hdata, hleft, hstaged, hstate⟩ := hcdata.stagedPops hcbytes k (by omega)
  generalize (s.setCurrent (.echoPump (.counted n))).stagedPops k = t at *
  rw [State.setCurrent_L h.turn] at hstate
  have hturn : t.turn = .L := by rw [hstate]; exact h.turn
  refine ⟨_, n, k, (Reaches.of_exec hcounted (by simp)).trans hpops, hpos, by omega, ⟨(t.setCurrent_turn _).trans hturn, ?_,
    t.current_setCurrent _, ?_, ?_⟩, hdata.setCurrent _, (t.contents_setCurrent ..).trans hleft, ?_⟩
  · rw [State.setCurrent_L hturn, hstate]; exact h.other
  · rw [State.setCurrent_echoMax, hstate]; exact hmax
  · rw [State.setCurrent_echoTmp]; exact hstaged
  · rw [State.setCurrent_L hturn, hstate]

/-- Every queued offset holds a byte (R127). -/
theorem State.DataInv.exists_bytes {s : State} (h : s.DataInv) : ∃ bytes : List Byte, s.contents .rx = bytes.map some := by
  generalize hcnt : s.rx.cnt.toNat = c
  induction c generalizing s with
  | zero => exact ⟨[], State.contents_of_empty (f := .rx) ((Fifo.empty_iff _).2 hcnt)⟩
  | succ c ih =>
    have hempty : s.rx.empty = false := Fifo.empty_eq_false (by omega)
    have hpos := Fifo.cnt_toNat_pos hempty
    have hpopped : (s.popped .rx).rx.cnt.toNat = c := (poppedFifo_cnt_toNat hpos).trans (by omega)
    obtain ⟨bytes, hbytes⟩ := ih (h.popped_rx hempty) hpopped
    exact ⟨s.byteAtRead .rx :: bytes, by rw [(h.fifoInv .rx).contents_popped hpos, hbytes]; rfl⟩

/-- One iteration against a backend that is not ready (R170, R172). -/
theorem EchoHead.iterates {s : State} {rest : List Bool} (h : EchoHead s) (hcnt : s.rx.cnt ≠ 0)
    (hanswers : s.answers = false :: rest) : ∃ t k, 0 < k ∧ Reaches .echoPump s t ∧ Iterated s t k rest := by
  obtain ⟨bytes, hbytes⟩ := h.data.exists_bytes
  obtain ⟨t, n, k, hread, hpos, hk, hwrites, hdata, hleft, hstate⟩ := h.reaches_write hcnt hbytes
  obtain ⟨u, hwrite, hdata', hcontents, -, hpush⟩ := hwrites.reaches_end hdata hk (by rw [hstate]; exact hanswers)
  have htx : t.tx = s.tx := by rw [hstate]
  have hrx : u.contents .rx = t.contents .rx :=
    State.contents_congr (by rw [hpush]; rfl) fun a => by rw [State.fifo_rx, hdata.rxBound, hpush]; rfl
  have htx' : t.contents .tx = s.contents .tx := by rw [hstate]; rfl
  refine ⟨_, k, hpos, hread.trans hwrite, ⟨⟨hdata'.rxmemWf, hdata'.txmemWf, Memory.nil_wf, hdata'.rxBound, hdata'.txBound,
    hdata'.echoMaxLe, hdata'.rxInv, hdata'.txInv, hdata'.beCopied⟩, ?_, ?_, rfl, .inr ⟨?_, rfl⟩⟩, ?_, ?_, ?_, rfl, ?_⟩
  · rw [hpush]; exact hwrites.turn
  · rw [hpush]; exact hwrites.other
  · rw [hpush]; exact hwrites.turn
  · rw [hbytes, ← List.map_drop, ← hleft, ← hrx]; rfl
  · rw [hbytes, ← List.map_take, ← List.map_take, ← htx, ← htx', ← hcontents]; rfl
  · have htrace : u.trace = s.trace := by rw [hpush, hstate]
    rw [← htrace]
    exact (sink_append ..).trans (List.append_nil _)
  · rw [hpush, hstate]; rfl

/-! ## All iterations -/

/-- What an `echoPump` against a backend that is not ready has done at its last question for the count. -/
structure PumpedOut (s t : State) : Prop where
  head : EchoHead t
  empty : t.rx.cnt = 0
  tx : t.contents .tx = s.contents .tx ++ (s.contents .rx).take (s.tx.cap.toNat - s.tx.cnt.toNat)
  sink : sink t.trace = sink s.trace
  frame : t = s.withPump t

/-- What fits of a list is what fits of its first `k` elements, and then of the rest. -/
theorem take_append_take_drop {α : Type} (l : List α) (k cap used : Nat) :
    (l.take k).take (cap - used) ++ (l.drop k).take (cap - (used + ((l.take k).take (cap - used)).length)) =
      l.take (cap - used) := by
  have hroom : cap - (used + ((l.take k).take (cap - used)).length) = cap - used - (l.take k).length := by
    rw [List.length_take]; omega
  rw [hroom, ← List.take_append, List.take_append_drop]

theorem EchoHead.pumpedOut {s : State} (h : EchoHead s) (hempty : s.rx.cnt = 0) :
    ∃ t, Reaches .echoPump s t ∧ PumpedOut s t := by
  have hnil : s.contents .rx = [] := State.contents_of_empty (f := .rx) (Fifo.empty_of_eq hempty)
  exact ⟨s, .refl .., h, hempty, by rw [hnil, List.take_nil, List.append_nil], rfl, rfl⟩

/-- Every iteration takes a byte, so as many false answers as `rx` has bytes are enough (R170, R175). -/
theorem EchoHead.reaches_empty {s : State} (h : EchoHead s) {c : Nat} {rest : List Bool} (hcnt : s.rx.cnt.toNat ≤ c)
    (hanswers : s.answers = List.replicate c false ++ rest) : ∃ t, Reaches .echoPump s t ∧ PumpedOut s t := by
  induction c generalizing s with
  | zero =>
    exact h.pumpedOut (BitVec.eq_of_toNat_eq (Nat.le_zero.1 hcnt))
  | succ c ih =>
    by_cases hempty : s.rx.cnt = 0
    · exact h.pumpedOut hempty
    obtain ⟨t, k, hpos, hreach, hhead, hrx, htx, hsink, hrest, hframe⟩ := h.iterates hempty hanswers
    have hlen := t.contents_length .rx
    have hused := t.contents_length .tx
    rw [hrx, List.length_drop, State.contents_length, State.fifo_rx, State.fifo_rx] at hlen
    rw [htx, List.length_append, State.contents_length, State.fifo_tx, State.fifo_tx] at hused
    obtain ⟨u, hreach', hhead', hempty', htx', hsink', hframe'⟩ := ih hhead (by omega) hrest
    refine ⟨u, hreach.trans hreach', hhead', hempty', ?_, hsink'.trans hsink,
      hframe'.trans (congrArg (·.withPump u) hframe)⟩
    have hcap : t.tx.cap = s.tx.cap := by rw [hframe]; rfl
    rw [htx', htx, hrx, ← hused, hcap, List.append_assoc, take_append_take_drop]

end Sys2Proof.Machine

namespace Sys2Proof

open Machine

/-- Settles O54, by the iterations until `rx` is empty. -/
theorem echoPumpMovesWhatFits : Obligations.EchoPumpMovesWhatFits := by
  intro s rest h hready hother hanswers
  have hhead : EchoHead s := ⟨h.dataInv_of_ok hready.ok, hready.turn, hother,
    h.echoTmp_of_idle hready.turn hready.current, .inl hready⟩
  obtain ⟨t, ⟨steps, hdrive⟩, hout⟩ := hhead.reaches_empty le_rfl hanswers
  obtain ⟨⟨-, hturn, -, hnil, hplace⟩, hempty, htx, hsink, hframe⟩ := hout
  have hreturn := (echoPumpAsksForTheCount t hplace).1 hempty
  refine ⟨steps + 1, _, (hdrive 1).trans (drive_returned hreturn hturn rfl), hempty, htx, ?_, hsink, ?_⟩
  · rw [hframe]; rfl
  · rw [hframe, hhead.noStaging, show s.seqL = .idle from hready.idle]; rfl

end Sys2Proof
